-- ==== Sys2Proof/Word.lean ====
section
/-! DEFINITION. The word types of the TMS 9995 (00_scope.md R10): a word is 16 bits, a byte 8 bits. -/

namespace Sys2Proof

/-- A 16-bit word; also an address of the memory space (R10, R60). -/
abbrev Word := BitVec 16

/-- An 8-bit byte (R10). -/
abbrev Byte := BitVec 8

/-- A CRU bit address: the fifteen lines A0 to A14 (20_memory.md R76). -/
abbrev CruAddr := BitVec 15

end Sys2Proof
end

