-- ==== Sys2Proof/Syntax.lean ====
section
/-! DEFINITION. The instructions of the TMS 9995: one constructor per row of the opcode table
(30_encoding.md R121) and one for the MID opcodes (R122). An instruction is what its opcode word says;
the extension words are read by `Fetch()` while it executes (R100, R101; log 22). -/

namespace Sys2Proof

/-- A workspace register number, 0 to 15 (R26). -/
abbrev Reg := BitVec 4

/-- The five addressing modes of a T field with its register field (R117). -/
inductive Operand where
  /-- `R`, T = 00 (R141). -/
  | reg (r : Reg)
  /-- `*R`, T = 01 (R142). -/
  | ind (r : Reg)
  /-- `@LABEL`, T = 10 with register field 0 (R144). -/
  | sym
  /-- `@TABLE(R)`, T = 10 with register field 1 to 15 (R145). -/
  | idx (r : Reg)
  /-- `*R+`, T = 11 (R143). -/
  | autoInc (r : Reg)
  deriving DecidableEq, Repr

/-- The size of an operand: a byte or a word (R84). -/
inductive Size where
  | byte
  | word
  deriving DecidableEq, Repr

/-- One constructor per mnemonic of the opcode table. -/
inductive Instr where
  -- format DUAL (R103): source, destination
  | szc (sop dop : Operand)
  | szcb (sop dop : Operand)
  | s (sop dop : Operand)
  | sb (sop dop : Operand)
  | c (sop dop : Operand)
  | cb (sop dop : Operand)
  | a (sop dop : Operand)
  | ab (sop dop : Operand)
  | mov (sop dop : Operand)
  | movb (sop dop : Operand)
  | soc (sop dop : Operand)
  | socb (sop dop : Operand)
  -- format DUALW (R104): source, destination register
  | coc (sop : Operand) (d : Reg)
  | czc (sop : Operand) (d : Reg)
  | xor (sop : Operand) (d : Reg)
  | mpy (sop : Operand) (d : Reg)
  | div (sop : Operand) (d : Reg)
  -- format SMD (R105)
  | mpys (sop : Operand)
  | divs (sop : Operand)
  -- format XOP (R106): source, XOP number
  | xop (sop : Operand) (n : BitVec 4)
  -- format SINGLE (R105)
  | b (sop : Operand)
  | bl (sop : Operand)
  | blwp (sop : Operand)
  | clr (sop : Operand)
  | seto (sop : Operand)
  | inv (sop : Operand)
  | neg (sop : Operand)
  | abs (sop : Operand)
  | swpb (sop : Operand)
  | inc (sop : Operand)
  | inct (sop : Operand)
  | dec (sop : Operand)
  | dect (sop : Operand)
  | x (sop : Operand)
  -- format CRUM (R108): operand and bit count, 0 meaning 16
  | ldcr (sop : Operand) (count : BitVec 4)
  | stcr (dop : Operand) (count : BitVec 4)
  -- format CRUS (R109): signed displacement
  | sbo (disp : BitVec 8)
  | sbz (disp : BitVec 8)
  | tb (disp : BitVec 8)
  -- format JUMP (R109): signed displacement in words
  | jmp (disp : BitVec 8)
  | jlt (disp : BitVec 8)
  | jle (disp : BitVec 8)
  | jeq (disp : BitVec 8)
  | jhe (disp : BitVec 8)
  | jgt (disp : BitVec 8)
  | jne (disp : BitVec 8)
  | jnc (disp : BitVec 8)
  | joc (disp : BitVec 8)
  | jno (disp : BitVec 8)
  | jl (disp : BitVec 8)
  | jh (disp : BitVec 8)
  | jop (disp : BitVec 8)
  -- format SHIFT (R111): register and count, 0 meaning "count in WR0"
  | sla (w : Reg) (count : BitVec 4)
  | sra (w : Reg) (count : BitVec 4)
  | srl (w : Reg) (count : BitVec 4)
  | src (w : Reg) (count : BitVec 4)
  -- format IMMW (R112): register; the immediate is the next word
  | li (w : Reg)
  | ai (w : Reg)
  | andi (w : Reg)
  | ori (w : Reg)
  | ci (w : Reg)
  -- format IMM (R113): the immediate is the next word
  | lwpi
  | limi
  -- format REGW (R114)
  | stst (w : Reg)
  | lst (w : Reg)
  | stwp (w : Reg)
  | lwp (w : Reg)
  -- format RTWP (R115)
  | rtwp
  -- format EXT (R116)
  | idle
  | rset
  | ckon
  | ckof
  | lrex
  /-- A MID opcode, with the opcode word itself (R122). -/
  | mid (w : Word)
  deriving DecidableEq, Repr

end Sys2Proof
end

