-- ==== Sys2Proof/WellFormed.lean ====
section
/-! DEFINITION. Which terms of `Instr` an opcode word can stand for: an index register is never WR0
(30_encoding.md R117, 10_state.md R29), and a MID opcode lies in one of the nineteen ranges of R122. -/

namespace Sys2Proof

/-- The ranges of MID opcodes, first and last word of each (30_encoding.md R122, 47_external_mid.md R401). -/
def midRanges : List (Nat × Nat) :=
  [(0x0000, 0x007F), (0x00A0, 0x017F), (0x0210, 0x021F), (0x0230, 0x023F), (0x0250, 0x025F),
   (0x0270, 0x027F), (0x0290, 0x029F), (0x02B0, 0x02BF), (0x02D0, 0x02DF), (0x02E1, 0x02FF),
   (0x0301, 0x033F), (0x0341, 0x035F), (0x0361, 0x037F), (0x0381, 0x039F), (0x03A1, 0x03BF),
   (0x03C1, 0x03DF), (0x03E1, 0x03FF), (0x0780, 0x07FF), (0x0C00, 0x0FFF)]

/-- Whether a word is a MID opcode by the printed list (R122). -/
def isMidOpcode (w : Word) : Bool :=
  midRanges.any fun r => decide (r.1 ≤ w.toNat) && decide (w.toNat ≤ r.2)

/-- "Workspace register 0 may not be used for indexing" (R117). -/
def Operand.wellFormed : Operand → Bool
  | .reg _ => true
  | .ind _ => true
  | .sym => true
  | .idx r => r != 0
  | .autoInc _ => true

/-- The operands an instruction carries are well formed, and a MID term carries a MID opcode. -/
def Instr.wellFormed : Instr → Bool
  | .szc sop dop | .szcb sop dop | .s sop dop | .sb sop dop | .c sop dop | .cb sop dop
  | .a sop dop | .ab sop dop | .mov sop dop | .movb sop dop | .soc sop dop | .socb sop dop =>
    sop.wellFormed && dop.wellFormed
  | .coc sop _ | .czc sop _ | .xor sop _ | .mpy sop _ | .div sop _ | .xop sop _ => sop.wellFormed
  | .mpys sop | .divs sop => sop.wellFormed
  | .b sop | .bl sop | .blwp sop | .clr sop | .seto sop | .inv sop | .neg sop | .abs sop
  | .swpb sop | .inc sop | .inct sop | .dec sop | .dect sop | .x sop => sop.wellFormed
  | .ldcr sop _ => sop.wellFormed
  | .stcr dop _ => dop.wellFormed
  | .sbo _ | .sbz _ | .tb _ => true
  | .jmp _ | .jlt _ | .jle _ | .jeq _ | .jhe _ | .jgt _ | .jne _ | .jnc _ | .joc _ | .jno _
  | .jl _ | .jh _ | .jop _ => true
  | .sla _ _ | .sra _ _ | .srl _ _ | .src _ _ => true
  | .li _ | .ai _ | .andi _ | .ori _ | .ci _ => true
  | .lwpi | .limi => true
  | .stst _ | .lst _ | .stwp _ | .lwp _ => true
  | .rtwp | .idle | .rset | .ckon | .ckof | .lrex => true
  | .mid w => isMidOpcode w

end Sys2Proof
end

