-- ==== Sys2Proof/Decode.lean ====
section
/-! DEFINITION. The decoder (30_encoding.md R102, R121, R122) and the encoder, written from the same
encoding tables. Every 16-bit word is an instruction or a MID opcode (R123), so decoding a word never
fails; decoding bytes is refused, by name, only where they hold no whole word. -/

namespace Sys2Proof

/-! ### The fields of an opcode word (R103 to R116) -/

/-- S, `w[3:0]`; also the W field. -/
def sField (w : Word) : Reg := w.extractLsb' 0 4
/-- TS, `w[5:4]`. -/
def tsField (w : Word) : BitVec 2 := w.extractLsb' 4 2
/-- D, `w[9:6]`; also the C field of CRUM and the XOP number. -/
def dField (w : Word) : Reg := w.extractLsb' 6 4
/-- TD, `w[11:10]`. -/
def tdField (w : Word) : BitVec 2 := w.extractLsb' 10 2
/-- The signed displacement, `w[7:0]` (R109, R120). -/
def dispField (w : Word) : BitVec 8 := w.extractLsb' 0 8
/-- C of the SHIFT format, `w[7:4]` (R111). -/
def shiftField (w : Word) : BitVec 4 := w.extractLsb' 4 4

/-- The addressing mode that T and its register field select (R117). -/
def operandOf (t : BitVec 2) (r : Reg) : Operand :=
  match t.toNat with
  | 0 => .reg r
  | 1 => .ind r
  | 2 => if r = 0 then .sym else .idx r
  | _ => .autoInc r

/-- The general source operand, TS and S. -/
def srcOf (w : Word) : Operand := operandOf (tsField w) (sField w)
/-- The general destination operand, TD and D. -/
def dstOf (w : Word) : Operand := operandOf (tdField w) (dField w)

/-! ### Decoding (R102, R121) -/

/-- `w[15:8]` = >00: LST and LWP (R114), else MID. -/
def decode00 (w : Word) : Instr :=
  match (w.extractLsb' 4 4).toNat with
  | 8 => .lst (sField w)
  | 9 => .lwp (sField w)
  | _ => .mid w

/-- `w[15:8]` = >01: DIVS and MPYS (R105), else MID. -/
def decode01 (w : Word) : Instr :=
  match (w.extractLsb' 6 2).toNat with
  | 2 => .divs (srcOf w)
  | 3 => .mpys (srcOf w)
  | _ => .mid w

/-- `w[15:8]` = >02: the immediate and register forms (R112, R113, R114), else MID. -/
def decode02 (w : Word) : Instr :=
  match (w.extractLsb' 4 4).toNat with
  | 0 => .li (sField w)
  | 2 => .ai (sField w)
  | 4 => .andi (sField w)
  | 6 => .ori (sField w)
  | 8 => .ci (sField w)
  | 10 => .stwp (sField w)
  | 12 => .stst (sField w)
  | 14 => if sField w = 0 then .lwpi else .mid w
  | _ => .mid w

/-- `w[15:8]` = >03: LIMI, RTWP and the external instructions, whole words (R113, R115, R116), else MID. -/
def decode03 (w : Word) : Instr :=
  match (w.extractLsb' 0 8).toNat with
  | 0x00 => .limi
  | 0x40 => .idle
  | 0x60 => .rset
  | 0x80 => .rtwp
  | 0xA0 => .ckon
  | 0xC0 => .ckof
  | 0xE0 => .lrex
  | _ => .mid w

/-- `w[15:10]` = 000001: format SINGLE by `w[9:6]` (R105), >0780 and up MID. -/
def decodeSingle (w : Word) : Instr :=
  match (w.extractLsb' 6 4).toNat with
  | 0 => .blwp (srcOf w)
  | 1 => .b (srcOf w)
  | 2 => .x (srcOf w)
  | 3 => .clr (srcOf w)
  | 4 => .neg (srcOf w)
  | 5 => .inv (srcOf w)
  | 6 => .inc (srcOf w)
  | 7 => .inct (srcOf w)
  | 8 => .dec (srcOf w)
  | 9 => .dect (srcOf w)
  | 10 => .bl (srcOf w)
  | 11 => .swpb (srcOf w)
  | 12 => .seto (srcOf w)
  | 13 => .abs (srcOf w)
  | _ => .mid w

/-- `w[15:12]` = 0000, by `w[11:8]` (R102). -/
def decode0 (w : Word) : Instr :=
  match (w.extractLsb' 8 4).toNat with
  | 0 => decode00 w
  | 1 => decode01 w
  | 2 => decode02 w
  | 3 => decode03 w
  | 4 => decodeSingle w
  | 5 => decodeSingle w
  | 6 => decodeSingle w
  | 7 => decodeSingle w
  | 8 => .sra (sField w) (shiftField w)
  | 9 => .srl (sField w) (shiftField w)
  | 10 => .sla (sField w) (shiftField w)
  | 11 => .src (sField w) (shiftField w)
  | _ => .mid w

/-- `w[15:12]` = 0001: JUMP and CRUS by `w[11:8]` (R109). -/
def decode1 (w : Word) : Instr :=
  match (w.extractLsb' 8 4).toNat with
  | 0 => .jmp (dispField w)
  | 1 => .jlt (dispField w)
  | 2 => .jle (dispField w)
  | 3 => .jeq (dispField w)
  | 4 => .jhe (dispField w)
  | 5 => .jgt (dispField w)
  | 6 => .jne (dispField w)
  | 7 => .jnc (dispField w)
  | 8 => .joc (dispField w)
  | 9 => .jno (dispField w)
  | 10 => .jl (dispField w)
  | 11 => .jh (dispField w)
  | 12 => .jop (dispField w)
  | 13 => .sbo (dispField w)
  | 14 => .sbz (dispField w)
  | _ => .tb (dispField w)

/-- `w[15:13]` = 001: DUALW, XOP and CRUM by `w[12:10]` (R104, R106, R108). -/
def decode23 (w : Word) : Instr :=
  match (w.extractLsb' 10 3).toNat with
  | 0 => .coc (srcOf w) (dField w)
  | 1 => .czc (srcOf w) (dField w)
  | 2 => .xor (srcOf w) (dField w)
  | 3 => .xop (srcOf w) (dField w)
  | 4 => .ldcr (srcOf w) (dField w)
  | 5 => .stcr (srcOf w) (dField w)
  | 6 => .mpy (srcOf w) (dField w)
  | _ => .div (srcOf w) (dField w)

/-- The instruction an opcode word stands for, by its leading bits (R102). -/
def decode (w : Word) : Instr :=
  match (w.extractLsb' 12 4).toNat with
  | 0 => decode0 w
  | 1 => decode1 w
  | 2 => decode23 w
  | 3 => decode23 w
  | 4 => .szc (srcOf w) (dstOf w)
  | 5 => .szcb (srcOf w) (dstOf w)
  | 6 => .s (srcOf w) (dstOf w)
  | 7 => .sb (srcOf w) (dstOf w)
  | 8 => .c (srcOf w) (dstOf w)
  | 9 => .cb (srcOf w) (dstOf w)
  | 10 => .a (srcOf w) (dstOf w)
  | 11 => .ab (srcOf w) (dstOf w)
  | 12 => .mov (srcOf w) (dstOf w)
  | 13 => .movb (srcOf w) (dstOf w)
  | 14 => .soc (srcOf w) (dstOf w)
  | _ => .socb (srcOf w) (dstOf w)

/-- Why bytes are no instruction: there is no whole opcode word. -/
inductive DecodeError where
  /-- Fewer than two bytes were given (R100: an opcode is one 16-bit word). -/
  | truncated
  deriving DecidableEq, Repr

/-- Decoding from memory's bytes, most significant first (R100, R83): the instruction and the bytes after
its opcode word, where its extension words begin. -/
def decodeBytes : List Byte → Except DecodeError (Instr × List Byte)
  | hi :: lo :: rest => .ok (decode (hi ++ lo), rest)
  | _ => .error .truncated

/-! ### Lengths (R118) -/

/-- The extension words of an operand: one for T = 10 (R118). -/
def Operand.extWords : Operand → Nat
  | .sym => 1
  | .idx _ => 1
  | _ => 0

/-- The extension words and immediates that follow the opcode word (R118). -/
def Instr.extWords : Instr → Nat
  | .szc sop dop | .szcb sop dop | .s sop dop | .sb sop dop | .c sop dop | .cb sop dop
  | .a sop dop | .ab sop dop | .mov sop dop | .movb sop dop | .soc sop dop | .socb sop dop =>
    sop.extWords + dop.extWords
  | .coc sop _ | .czc sop _ | .xor sop _ | .mpy sop _ | .div sop _ | .xop sop _ => sop.extWords
  | .mpys sop | .divs sop => sop.extWords
  | .b sop | .bl sop | .blwp sop | .clr sop | .seto sop | .inv sop | .neg sop | .abs sop
  | .swpb sop | .inc sop | .inct sop | .dec sop | .dect sop | .x sop => sop.extWords
  | .ldcr sop _ => sop.extWords
  | .stcr dop _ => dop.extWords
  | .li _ | .ai _ | .andi _ | .ori _ | .ci _ | .lwpi | .limi => 1
  | .sbo _ | .sbz _ | .tb _ => 0
  | .jmp _ | .jlt _ | .jle _ | .jeq _ | .jhe _ | .jgt _ | .jne _ | .jnc _ | .joc _ | .jno _
  | .jl _ | .jh _ | .jop _ => 0
  | .sla _ _ | .sra _ _ | .srl _ _ | .src _ _ => 0
  | .stst _ | .lst _ | .stwp _ | .lwp _ => 0
  | .rtwp | .idle | .rset | .ckon | .ckof | .lrex | .mid _ => 0

/-! ### Encoding -/

/-- The T field of an operand (R117). -/
def Operand.tBits : Operand → BitVec 2
  | .reg _ => 0b00
  | .ind _ => 0b01
  | .sym => 0b10
  | .idx _ => 0b10
  | .autoInc _ => 0b11

/-- The register field of an operand (R117). -/
def Operand.rBits : Operand → Reg
  | .reg r => r
  | .ind r => r
  | .sym => 0
  | .idx r => r
  | .autoInc r => r

/-- Format DUAL (R103). -/
def encDual (op : BitVec 4) (sop dop : Operand) : Word :=
  op ++ dop.tBits ++ dop.rBits ++ sop.tBits ++ sop.rBits
/-- Formats DUALW, XOP and CRUM (R104, R106, R108). -/
def encDualW (op : BitVec 6) (sop : Operand) (d : BitVec 4) : Word :=
  op ++ d ++ sop.tBits ++ sop.rBits
/-- Formats SMD and SINGLE (R105). -/
def encSingle (op : BitVec 10) (sop : Operand) : Word := op ++ sop.tBits ++ sop.rBits
/-- Formats CRUS and JUMP (R109). -/
def encDisp (op : BitVec 8) (disp : BitVec 8) : Word := op ++ disp
/-- Format SHIFT (R111). -/
def encShift (op : BitVec 8) (count : BitVec 4) (w : Reg) : Word := op ++ count ++ w
/-- Formats IMMW and REGW: twelve fixed bits and the register (R112, R114). -/
def encReg (op : BitVec 12) (w : Reg) : Word := op ++ w

/-- The opcode word of an instruction (the "opcode bits" column of R121). -/
def encode : Instr → Word
  | .szc sop dop => encDual 0b0100 sop dop
  | .szcb sop dop => encDual 0b0101 sop dop
  | .s sop dop => encDual 0b0110 sop dop
  | .sb sop dop => encDual 0b0111 sop dop
  | .c sop dop => encDual 0b1000 sop dop
  | .cb sop dop => encDual 0b1001 sop dop
  | .a sop dop => encDual 0b1010 sop dop
  | .ab sop dop => encDual 0b1011 sop dop
  | .mov sop dop => encDual 0b1100 sop dop
  | .movb sop dop => encDual 0b1101 sop dop
  | .soc sop dop => encDual 0b1110 sop dop
  | .socb sop dop => encDual 0b1111 sop dop
  | .coc sop d => encDualW 0b001000 sop d
  | .czc sop d => encDualW 0b001001 sop d
  | .xor sop d => encDualW 0b001010 sop d
  | .xop sop n => encDualW 0b001011 sop n
  | .ldcr sop count => encDualW 0b001100 sop count
  | .stcr dop count => encDualW 0b001101 dop count
  | .mpy sop d => encDualW 0b001110 sop d
  | .div sop d => encDualW 0b001111 sop d
  | .divs sop => encSingle 0b0000000110 sop
  | .mpys sop => encSingle 0b0000000111 sop
  | .blwp sop => encSingle 0b0000010000 sop
  | .b sop => encSingle 0b0000010001 sop
  | .x sop => encSingle 0b0000010010 sop
  | .clr sop => encSingle 0b0000010011 sop
  | .neg sop => encSingle 0b0000010100 sop
  | .inv sop => encSingle 0b0000010101 sop
  | .inc sop => encSingle 0b0000010110 sop
  | .inct sop => encSingle 0b0000010111 sop
  | .dec sop => encSingle 0b0000011000 sop
  | .dect sop => encSingle 0b0000011001 sop
  | .bl sop => encSingle 0b0000011010 sop
  | .swpb sop => encSingle 0b0000011011 sop
  | .seto sop => encSingle 0b0000011100 sop
  | .abs sop => encSingle 0b0000011101 sop
  | .sra w count => encShift 0b00001000 count w
  | .srl w count => encShift 0b00001001 count w
  | .sla w count => encShift 0b00001010 count w
  | .src w count => encShift 0b00001011 count w
  | .jmp disp => encDisp 0b00010000 disp
  | .jlt disp => encDisp 0b00010001 disp
  | .jle disp => encDisp 0b00010010 disp
  | .jeq disp => encDisp 0b00010011 disp
  | .jhe disp => encDisp 0b00010100 disp
  | .jgt disp => encDisp 0b00010101 disp
  | .jne disp => encDisp 0b00010110 disp
  | .jnc disp => encDisp 0b00010111 disp
  | .joc disp => encDisp 0b00011000 disp
  | .jno disp => encDisp 0b00011001 disp
  | .jl disp => encDisp 0b00011010 disp
  | .jh disp => encDisp 0b00011011 disp
  | .jop disp => encDisp 0b00011100 disp
  | .sbo disp => encDisp 0b00011101 disp
  | .sbz disp => encDisp 0b00011110 disp
  | .tb disp => encDisp 0b00011111 disp
  | .lst w => encReg 0b000000001000 w
  | .lwp w => encReg 0b000000001001 w
  | .li w => encReg 0b000000100000 w
  | .ai w => encReg 0b000000100010 w
  | .andi w => encReg 0b000000100100 w
  | .ori w => encReg 0b000000100110 w
  | .ci w => encReg 0b000000101000 w
  | .stwp w => encReg 0b000000101010 w
  | .stst w => encReg 0b000000101100 w
  | .lwpi => 0b0000001011100000
  | .limi => 0b0000001100000000
  | .idle => 0b0000001101000000
  | .rset => 0b0000001101100000
  | .rtwp => 0b0000001110000000
  | .ckon => 0b0000001110100000
  | .ckof => 0b0000001111000000
  | .lrex => 0b0000001111100000
  | .mid w => w

/-- The words of an instruction in the instruction stream: the opcode word and then its extension words
or immediate, which the instruction reads with `Fetch()` (R101). -/
def encodeWords (i : Instr) (ext : List Word) : List Word := encode i :: ext.take i.extWords

/-! ### The opcode table as data (R121) -/

/-- A row of the opcode table: `w &&& mask = value` selects it (R121). -/
structure OpcodeRow where
  mnemonic : String
  value : Word
  mask : Word
  deriving DecidableEq, Repr

/-- The 73 rows of R121. -/
def opcodeTable : List OpcodeRow :=
  [⟨"LST", 0x0080, 0xFFF0⟩, ⟨"LWP", 0x0090, 0xFFF0⟩, ⟨"DIVS", 0x0180, 0xFFC0⟩, ⟨"MPYS", 0x01C0, 0xFFC0⟩,
   ⟨"LI", 0x0200, 0xFFF0⟩, ⟨"AI", 0x0220, 0xFFF0⟩, ⟨"ANDI", 0x0240, 0xFFF0⟩, ⟨"ORI", 0x0260, 0xFFF0⟩,
   ⟨"CI", 0x0280, 0xFFF0⟩, ⟨"STWP", 0x02A0, 0xFFF0⟩, ⟨"STST", 0x02C0, 0xFFF0⟩, ⟨"LWPI", 0x02E0, 0xFFFF⟩,
   ⟨"LIMI", 0x0300, 0xFFFF⟩, ⟨"IDLE", 0x0340, 0xFFFF⟩, ⟨"RSET", 0x0360, 0xFFFF⟩, ⟨"RTWP", 0x0380, 0xFFFF⟩,
   ⟨"CKON", 0x03A0, 0xFFFF⟩, ⟨"CKOF", 0x03C0, 0xFFFF⟩, ⟨"LREX", 0x03E0, 0xFFFF⟩] ++
  [⟨"BLWP", 0x0400, 0xFFC0⟩, ⟨"B", 0x0440, 0xFFC0⟩, ⟨"X", 0x0480, 0xFFC0⟩, ⟨"CLR", 0x04C0, 0xFFC0⟩,
   ⟨"NEG", 0x0500, 0xFFC0⟩, ⟨"INV", 0x0540, 0xFFC0⟩, ⟨"INC", 0x0580, 0xFFC0⟩, ⟨"INCT", 0x05C0, 0xFFC0⟩,
   ⟨"DEC", 0x0600, 0xFFC0⟩, ⟨"DECT", 0x0640, 0xFFC0⟩, ⟨"BL", 0x0680, 0xFFC0⟩, ⟨"SWPB", 0x06C0, 0xFFC0⟩,
   ⟨"SETO", 0x0700, 0xFFC0⟩, ⟨"ABS", 0x0740, 0xFFC0⟩, ⟨"SRA", 0x0800, 0xFF00⟩, ⟨"SRL", 0x0900, 0xFF00⟩,
   ⟨"SLA", 0x0A00, 0xFF00⟩, ⟨"SRC", 0x0B00, 0xFF00⟩] ++
  [⟨"JMP", 0x1000, 0xFF00⟩, ⟨"JLT", 0x1100, 0xFF00⟩, ⟨"JLE", 0x1200, 0xFF00⟩, ⟨"JEQ", 0x1300, 0xFF00⟩,
   ⟨"JHE", 0x1400, 0xFF00⟩, ⟨"JGT", 0x1500, 0xFF00⟩, ⟨"JNE", 0x1600, 0xFF00⟩, ⟨"JNC", 0x1700, 0xFF00⟩,
   ⟨"JOC", 0x1800, 0xFF00⟩, ⟨"JNO", 0x1900, 0xFF00⟩, ⟨"JL", 0x1A00, 0xFF00⟩, ⟨"JH", 0x1B00, 0xFF00⟩,
   ⟨"JOP", 0x1C00, 0xFF00⟩, ⟨"SBO", 0x1D00, 0xFF00⟩, ⟨"SBZ", 0x1E00, 0xFF00⟩, ⟨"TB", 0x1F00, 0xFF00⟩] ++
  [⟨"COC", 0x2000, 0xFC00⟩, ⟨"CZC", 0x2400, 0xFC00⟩, ⟨"XOR", 0x2800, 0xFC00⟩, ⟨"XOP", 0x2C00, 0xFC00⟩,
   ⟨"LDCR", 0x3000, 0xFC00⟩, ⟨"STCR", 0x3400, 0xFC00⟩, ⟨"MPY", 0x3800, 0xFC00⟩, ⟨"DIV", 0x3C00, 0xFC00⟩,
   ⟨"SZC", 0x4000, 0xF000⟩, ⟨"SZCB", 0x5000, 0xF000⟩, ⟨"S", 0x6000, 0xF000⟩, ⟨"SB", 0x7000, 0xF000⟩,
   ⟨"C", 0x8000, 0xF000⟩, ⟨"CB", 0x9000, 0xF000⟩, ⟨"A", 0xA000, 0xF000⟩, ⟨"AB", 0xB000, 0xF000⟩,
   ⟨"MOV", 0xC000, 0xF000⟩, ⟨"MOVB", 0xD000, 0xF000⟩, ⟨"SOC", 0xE000, 0xF000⟩, ⟨"SOCB", 0xF000, 0xF000⟩]

/-- The mnemonic of an instruction as the opcode table spells it. -/
def Instr.mnemonic : Instr → String
  | .szc _ _ => "SZC" | .szcb _ _ => "SZCB" | .s _ _ => "S" | .sb _ _ => "SB" | .c _ _ => "C"
  | .cb _ _ => "CB" | .a _ _ => "A" | .ab _ _ => "AB" | .mov _ _ => "MOV" | .movb _ _ => "MOVB"
  | .soc _ _ => "SOC" | .socb _ _ => "SOCB" | .coc _ _ => "COC" | .czc _ _ => "CZC" | .xor _ _ => "XOR"
  | .mpy _ _ => "MPY" | .div _ _ => "DIV" | .mpys _ => "MPYS" | .divs _ => "DIVS" | .xop _ _ => "XOP"
  | .b _ => "B" | .bl _ => "BL" | .blwp _ => "BLWP" | .clr _ => "CLR" | .seto _ => "SETO"
  | .inv _ => "INV" | .neg _ => "NEG" | .abs _ => "ABS" | .swpb _ => "SWPB" | .inc _ => "INC"
  | .inct _ => "INCT" | .dec _ => "DEC" | .dect _ => "DECT" | .x _ => "X" | .ldcr _ _ => "LDCR"
  | .stcr _ _ => "STCR" | .sbo _ => "SBO" | .sbz _ => "SBZ" | .tb _ => "TB" | .jmp _ => "JMP"
  | .jlt _ => "JLT" | .jle _ => "JLE" | .jeq _ => "JEQ" | .jhe _ => "JHE" | .jgt _ => "JGT"
  | .jne _ => "JNE" | .jnc _ => "JNC" | .joc _ => "JOC" | .jno _ => "JNO" | .jl _ => "JL"
  | .jh _ => "JH" | .jop _ => "JOP" | .sla _ _ => "SLA" | .sra _ _ => "SRA" | .srl _ _ => "SRL"
  | .src _ _ => "SRC" | .li _ => "LI" | .ai _ => "AI" | .andi _ => "ANDI" | .ori _ => "ORI"
  | .ci _ => "CI" | .lwpi => "LWPI" | .limi => "LIMI" | .stst _ => "STST" | .lst _ => "LST"
  | .stwp _ => "STWP" | .lwp _ => "LWP" | .rtwp => "RTWP" | .idle => "IDLE" | .rset => "RSET"
  | .ckon => "CKON" | .ckof => "CKOF" | .lrex => "LREX" | .mid _ => "MID"

/-! ### The host's question about a word of the table -/

/-- The two bytes of the first word as memory holds them, most significant first (R83). -/
def tableBytes (w : Nat) : List Byte :=
  let v : Word := BitVec.ofNat 16 w
  [v.extractLsb' 8 8, v.extractLsb' 0 8]

/-- What the decoder gives for an instruction whose bits are `w`; a row of the table is one opcode word of
16 bits, and the words after it are operands read when it executes (log 45). -/
def decodeTableWord (nbits w : Nat) : Option Instr :=
  match decodeBytes (tableBytes (w % 2 ^ nbits)) with
  | .ok (i, _) => some i
  | .error _ => none

end Sys2Proof
end

