-- ==== Sys2Proof/Machine/Flags.lean ====
section
/-! DEFINITION. The status register's fields (10_state.md R23) and every flag computation of the spec
(40_addressing_and_status.md R160 to R167). -/

namespace Sys2Proof.Machine

/-! ### The fields of ST, by weight (R23) -/

/-- ST0, L>: logical greater than. -/
abbrev stL : Nat := 15
/-- ST1, A>: arithmetic greater than. -/
abbrev stA : Nat := 14
/-- ST2, EQ. -/
abbrev stEQ : Nat := 13
/-- ST3, C: carry out. -/
abbrev stC : Nat := 12
/-- ST4, OV: overflow. -/
abbrev stOV : Nat := 11
/-- ST5, OP: odd parity. -/
abbrev stOP : Nat := 10
/-- ST6, X: XOP in progress. -/
abbrev stX : Nat := 9
/-- ST10, OV EN: overflow interrupt enable. -/
abbrev stOVEN : Nat := 5

/-- Writing one bit of ST; every other bit stays (R166). -/
def stPut (n : Nat) (b : Bool) (st : Word) : Word :=
  if b then st ||| (1#16 <<< n) else st &&& ~~~(1#16 <<< n)

/-- ST12 to ST15, the interrupt mask, ST12 its MSB (R23). -/
def stMask (st : Word) : BitVec 4 := st.extractLsb' 0 4

/-- Writing the interrupt mask; ST0 to ST11 stay (R166). -/
def stPutMask (m : BitVec 4) (st : Word) : Word := st.extractLsb' 4 12 ++ m

/-- ST7 to ST11 cleared, the rest kept: what XOP and every interrupt do (R225, R420). -/
def stClear7to11 (st : Word) : Word := st &&& 0xFE0F

/-! ### Comparisons (R160 to R162) -/

/-- `cmp0` of a result of N bits: ST0 to ST2 (R160 for words, R161 for bytes). -/
def cmp0 {n : Nat} (r : BitVec n) (st : Word) : Word :=
  stPut stL (r != 0) (stPut stA (!r.msb && r != 0) (stPut stEQ (r == 0) st))

/-- `cmp16`, `cmp8`: ST0 to ST2 from "source greater than destination", unsigned and signed (R162). -/
def cmpOperands {n : Nat} (s d : BitVec n) (st : Word) : Word :=
  stPut stL (d.ult s) (stPut stA (d.slt s) (stPut stEQ (s == d) st))

/-! ### Parity (R163) -/

/-- The number of one bits of a byte (00_scope.md R10). -/
def popcount8 (b : Byte) : Nat := ((List.range 8).filter fun i => b.getLsbD i).length

/-- `parity8`: whether a byte has an odd number of one bits (R163). -/
def parity8 (b : Byte) : Bool := popcount8 b % 2 == 1

/-! ### Addition and subtraction (R164, R165) -/

/-- A result of N bits with its carry and overflow. -/
structure AluSum (n : Nat) where
  r : BitVec n
  c : Bool
  ov : Bool
  deriving DecidableEq, Repr

/-- `addN`: the sum, the carry out of N bits and signed overflow (R164). -/
def addN {n : Nat} (a b : BitVec n) : AluSum n :=
  let t : BitVec (n + 1) := a.setWidth (n + 1) + b.setWidth (n + 1)
  let r : BitVec n := t.setWidth n
  { r := r, c := t.getLsbD n, ov := a.msb == b.msb && r.msb != a.msb }

/-- `subN d s`: `d - s` by the adder computing `d + ~s + 1`; the carry is 1 where there is no borrow
(R165; D4, log 23). -/
def subN {n : Nat} (d s : BitVec n) : AluSum n :=
  let t : BitVec (n + 1) := d.setWidth (n + 1) + (~~~s).setWidth (n + 1) + 1
  let r : BitVec n := t.setWidth n
  { r := r, c := t.getLsbD n, ov := s.msb != d.msb && r.msb != d.msb }

/-- ST0 to ST4 of a word addition or subtraction (R181, R185 and the like). -/
def stSum {n : Nat} (t : AluSum n) (st : Word) : Word :=
  stPut stOV t.ov (stPut stC t.c (cmp0 t.r st))

/-- ST0 to ST5 of a byte addition or subtraction (R182, R186). -/
def stSumByte (t : AluSum 8) (st : Word) : Word := stPut stOP (parity8 t.r) (stSum t st)

/-- ST0 to ST2 and ST5 of a byte result (R188, R190, R192 and the CRU transfers). -/
def stByte (r : Byte) (st : Word) : Word := stPut stOP (parity8 r) (cmp0 r st)

/-! ### Shifts (45_jump_shift.md R331 to R334) -/

/-- A shifted word with the last bit shifted out. -/
structure Shifted where
  r : Word
  c : Bool
  deriving DecidableEq, Repr

/-- Shift left by 1 to 16 places (R331). -/
def shiftLeft (v : Word) (n : Nat) : Shifted := { r := v <<< n, c := v.getLsbD (16 - n) }

/-- "MSB changes during shift" (R331). -/
def shiftLeftOverflow (v : Word) (n : Nat) : Bool :=
  (List.range n).any fun k => (v <<< (k + 1)).msb != v.msb

/-- Arithmetic shift right: vacated positions get the original MSB (R332). -/
def shiftRightArith (v : Word) (n : Nat) : Shifted := { r := v.sshiftRight n, c := v.getLsbD (n - 1) }

/-- Logical shift right (R333). -/
def shiftRightLogical (v : Word) (n : Nat) : Shifted := { r := v >>> n, c := v.getLsbD (n - 1) }

/-- Rotate right (R334). -/
def shiftRightCircular (v : Word) (n : Nat) : Shifted :=
  { r := (v >>> n) ||| (v <<< (16 - n)), c := v.getLsbD (n - 1) }

/-- ST0 to ST3 of a shift (R330). -/
def stShift (t : Shifted) (st : Word) : Word := stPut stC t.c (cmp0 t.r st)

/-! ### Division (R200, R222) -/

/-- The signed quotient, truncated toward zero, and the remainder with the sign of the dividend; none
where the divisor is 0 or the quotient is no signed 16-bit quantity (R222; D7, log 26). -/
def divSigned (n : BitVec 32) (d : Word) : Option (Word × Word) :=
  let q := n.toInt.tdiv d.toInt
  let r := n.toInt - q * d.toInt
  if d = 0 ∨ q < -32768 ∨ 32767 < q then none
  else some (BitVec.ofInt 16 q, BitVec.ofInt 16 r)

/-- ST0 to ST2 set to three given bits: L, A, EQ (R222). -/
def stPut3 (v : BitVec 3) (st : Word) : Word :=
  stPut stL (v.getLsbD 2) (stPut stA (v.getLsbD 1) (stPut stEQ (v.getLsbD 0) st))

end Sys2Proof.Machine
end

