-- ==== Sys2Proof/Config.lean ====
section
/-! DEFINITION. What an implementation or a platform fixes (00_scope.md R7), and the free values: the
`draw` sites of 93_implementation_defined.md, constants without a body, so that no proof can see a value.
Each free value takes the number of draws taken so far, so that every draw is a fresh one. -/

namespace Sys2Proof

/-- What answers at an external address (20_memory.md R70, D23). -/
inductive ExtKind where
  /-- Read/write memory: a read returns the last byte written. -/
  | ram
  /-- Read-only memory: writes have no effect. -/
  | rom
  /-- A device: a read returns any byte, a write is an observable event. -/
  | device
  /-- Nothing: a read returns any byte, a write is lost. -/
  | absent
  deriving DecidableEq, Repr

/-- A stretch of external addresses, both ends included, of one kind. -/
structure ExtRegion where
  lo : Word
  hi : Word
  kind : ExtKind
  deriving DecidableEq, Repr

/-- The parameters of R7 that a value can depend on. They are part of the machine's data so that a
statement holds for every choice of them; no step changes them (log 1, 9, 17). -/
structure Platform where
  /-- `RAM_LO`: the first of the 252 on-chip RAM bytes that are not at the NMI vector; its LSB is ignored. -/
  ramLo : Word
  /-- `DEC_ADDR`: the decrementer's word address; its LSB is ignored. -/
  decAddr : Word
  /-- `OVF_INT_FUNCTIONAL`: whether the arithmetic overflow interrupt works (D11). -/
  ovfFunctional : Bool
  /-- `ExternalMemory`: regions that are not plain RAM; the first that holds an address decides. -/
  ext : List ExtRegion
  deriving DecidableEq, Repr

/-- The defaults of R7: RAM_LO at >F000 and DEC_ADDR at >FFFA, both "from general knowledge, not in
source" (PRESUMED, log 1), no overflow interrupt (log 17), RAM at every external address (log 9). -/
def Platform.default : Platform :=
  { ramLo := 0xF000, decAddr := 0xFFFA, ovfFunctional := false, ext := [] }

/-- `draw(Byte)` of a read that a device answers or nothing answers (R70, U10; log 10). -/
opaque Config.freeByte : Nat → Word → Byte

/-- `draw(bit)` of an external CRU input that no listed line drives (R81, D33, U11; log 11). -/
opaque Config.freeCruBit : Nat → CruAddr → Bool

/-- `draw(Byte)` of the other half in a byte write to the decrementer (60_exceptions.md R451, U3; log 19). -/
opaque Config.freeDecByte : Nat → Byte

/-- The three `draw(Bit)` of ST0, ST1, ST2 after a DIVS that overflows (R222, D7, U6; log 18). -/
opaque Config.freeStatus : Nat → BitVec 3

/-- The three `draw(Word)`: WP, PC and ST at the moment a reset cuts an instruction short (70_reset_and_hazards.md R481,
D26, U9; log 15). -/
opaque Config.freeContext : Nat → Word × Word × Word

/-- Whether an overwritten next opcode executes as the old word (70_reset_and_hazards.md R490, U5; log 20). -/
opaque Config.freeOldOpcode : Nat → Bool

end Sys2Proof
end

