-- ==== Sys2Proof/Machine/State.lean ====
section
/-! DEFINITION. The state of the TMS 9995 (10_state.md), plain data, and the state after reset (R44). -/

namespace Sys2Proof.Machine

/-- The memory space's bytes (20_memory.md R60): addresses strictly rising, no entry equal to what an
unlisted address reads as (log 4). -/
abbrev Memory := List Host.Cell

/-- A bus cycle of the CPU as it is performed, with what it does inside the chip: a cycle cut off from the ones
after it can be told from this alone (70_reset_and_hazards.md R481; log 12). What the pins show of it is a
`PinCycle`. -/
inductive BusEvent where
  /-- A memory read cycle at an address; `iaq` where an instruction's opcode is read (20_memory.md R62, R63, R71 to
  R73). -/
  | memRead (a : Word) (iaq : Bool)
  /-- A memory write cycle that stores one byte: a byte write, or one half of a word off chip (R64, R65, R71). -/
  | byteWrite (a : Word) (b : Byte)
  /-- A memory write cycle that stores a word on chip: a word write at its even address, or a write at either address
  of the decrementer, which loads a whole word (R64, R72, 60_exceptions.md R451). -/
  | wordWrite (a : Word) (v : Word)
  /-- A CRU input cycle at a bit address (R78). -/
  | cruIn (a : CruAddr)
  /-- A CRU output cycle at a bit address (R79). -/
  | cruOut (a : CruAddr) (b : Bool)
  /-- An external-instruction cycle with the code on D0 to D2 (47_external_mid.md R391). -/
  | extInstr (code : BitVec 3)
  deriving DecidableEq, Repr

/-- What an outside observer learns of a bus cycle from the pins (20_memory.md R70 to R73, R78, R79,
47_external_mid.md R391; log 12). The data that a device or a memory drives in a read is not the CPU's. -/
inductive PinCycle where
  /-- A memory read at an address, with IAQ asserted or not: one byte off chip, or all that is read on chip (R71 to
  R73). -/
  | memRead (a : Word) (iaq : Bool)
  /-- A memory write at an address, with the byte on D0 to D7; for an address on chip non-specific data, of which
  nothing is said (R71, R72). -/
  | memWrite (a : Word) (data : Option Byte)
  /-- A CRU input cycle; an internal bit is not shown (R78). -/
  | cruIn (a : CruAddr)
  /-- A CRU output cycle with its bit, at an internal address too (R79). -/
  | cruOut (a : CruAddr) (b : Bool)
  /-- An external-instruction cycle with the code on D0 to D2 (47_external_mid.md R391). -/
  | extInstr (code : BitVec 3)
  deriving DecidableEq, Repr

/-- Everything a memory or CRU cycle can change, with the model's two counters of such cycles. -/
structure Bus where
  /-- Memory: on-chip RAM and external memory (R60, R66, R70). -/
  mem : Memory
  /-- The Starting Count Storage Register (R31). -/
  decStart : Word
  /-- The Decrementing Register (R31). -/
  decCount : Word
  /-- FLAG0 to FLAGF, FLAGi of weight 2^i; FLAG2 to FLAG4 have no storage and stay 0 (R32). -/
  flags : BitVec 16
  /-- The MID flag (R33). -/
  midFlag : Bool
  /-- The model's own: the CPU's bus cycles so far, newest first (log 12). -/
  events : List BusEvent
  /-- The model's own: how many draws were taken (log 38). -/
  draws : Nat
  deriving DecidableEq, Repr

/-- `INHIBIT` (R36). -/
inductive Inhibit where
  | none
  | maskable
  | allButReset
  deriving DecidableEq, Repr

/-- The levels of the input pins, true for high (inactive) (R43, R413, R483, R496). RESET is `resetActive`. -/
structure Pins where
  nmi : Bool
  int1 : Bool
  /-- INT4/EC. -/
  int4 : Bool
  hold : Bool
  ready : Bool
  deriving DecidableEq, Repr

/-- What the other agents can do, or the CPU's turn (70_reset_and_hazards.md R505, R506; log 13). -/
inductive EnvEvent where
  /-- The CPU takes a step. -/
  | cpu
  /-- The RESET pin takes a level (R480). -/
  | reset (high : Bool)
  /-- RESET falls in the middle of the CPU's step, after that many of its bus cycles (R481). -/
  | resetWithin (cycles : Nat)
  /-- The NMI pin is sampled at a level (R424). -/
  | nmi (high : Bool)
  /-- The INT1 pin takes a level (R425). -/
  | int1 (high : Bool)
  /-- The INT4/EC pin takes a level (R425, R426, R447). -/
  | int4 (high : Bool)
  /-- The HOLD pin takes a level (R86). -/
  | hold (high : Bool)
  /-- The READY pin takes a level (R74, R496). -/
  | ready (high : Bool)
  /-- Every fourth CLKOUT cycle: the decrementer's clock in timer mode (R447). -/
  | timerClock
  /-- A DMA device writes a byte of external memory in the Hold state (R86). -/
  | dmaWrite (a : Word) (b : Byte)
  /-- The platform drives an external CRU input line, or stops driving it (R81). -/
  | cruLine (a : CruAddr) (level : Option Bool)
  deriving DecidableEq, Repr

/-- The machine. -/
structure State where
  /-- Program counter, a byte address with LSB 0 (R21). -/
  pc : Word
  /-- Workspace pointer, LSB hardwired to 0 (R22). -/
  wp : Word
  /-- Status register, ST0 of weight 2^15 (R23). -/
  st : Word
  /-- Memory, decrementer, flag register and MID flag. -/
  bus : Bus
  /-- Level 1 request latch (R34). -/
  latch1 : Bool
  /-- Level 3 request latch (R34). -/
  latch3 : Bool
  /-- Level 4 request latch (R34). -/
  latch4 : Bool
  /-- `NMI_ARMED` (R35). -/
  nmiArmed : Bool
  /-- `INHIBIT` (R36). -/
  inhibit : Inhibit
  /-- `MID_PENDING` (R37). -/
  midPending : Bool
  /-- The old word of the next opcode, where the last instruction overwrote it (R38, R490; log 20). -/
  prefetch : Option Word
  /-- The model's own: the target of an X that is again an X (R254, D21; log 21). -/
  xPending : Option Word
  /-- The Idle state (R39). -/
  idle : Bool
  /-- The Hold state (R40). -/
  holdState : Bool
  /-- RESET is active (low): the Reset state (R480). -/
  resetActive : Bool
  /-- RESET was released and the reset sequence has not run yet (R414, R480). -/
  resetPending : Bool
  /-- The reset under way has cut an instruction short: its WP, PC and ST are lost (R481, D26; log 15). -/
  cutShort : Bool
  /-- Automatic first wait state selection, timing only (R41). -/
  autoWait : Bool
  /-- The input pins. -/
  pins : Pins
  /-- External CRU input lines the platform drives, by bit address, rising (R81; log 11). -/
  cruLines : List (Nat × Bool)
  /-- The model's own: what the other agents do next (log 13). -/
  agenda : List EnvEvent
  /-- The parameters of 00_scope.md R7; no step changes them. -/
  plat : Platform
  deriving DecidableEq, Repr

/-- Why a step could stop with a fault: nothing can. The TMS 9995 "has no faults in the usual sense: no
access fault, no alignment fault, no privilege fault, no divide trap" (60_exceptions.md), so the type has
no constructor and nobody raises it (safe). -/
inductive Fault where
  deriving DecidableEq, Repr

/-- Why a step could be refused. -/
inductive Refusal where
  /-- Raised by an arm of `exec` whose instruction has no meaning yet; no arm raises it now (safe). -/
  | notModelled (mnemonic : String)
  deriving DecidableEq, Repr

/-- The pins after reset: all high, inactive (DESIGN CHOICE, log 7). -/
def Pins.inactive : Pins := { nmi := true, int1 := true, int4 := true, hold := true, ready := true }

/-- What the buses reach, after reset: memory with nothing listed (log 4), the decrementer registers and
the user flags at 0 (DESIGN CHOICE, log 5, 6), FLAG0, FLAG1 and the MID flag 0 (R44). -/
def Bus.reset : Bus :=
  { mem := [], decStart := 0, decCount := 0, flags := 0, midFlag := false, events := [], draws := 0 }

/-- The machine right after the reset sequence (R44, R480). WP and PC are the words at >0000 and >0002,
which memory with nothing listed reads as 0; WR13 to WR15 of the new workspace hold the old WP, PC and ST,
which are 0 too (log 3, 4). -/
def State.reset : State :=
  { pc := 0, wp := 0, st := 0, bus := Bus.reset,
    latch1 := false, latch3 := false, latch4 := false,
    nmiArmed := true, inhibit := .allButReset, midPending := false,
    prefetch := none, xPending := none, idle := false,
    holdState := false, resetActive := false, resetPending := false, cutShort := false,
    autoWait := true, pins := Pins.inactive, cruLines := [], agenda := [],
    plat := Platform.default }

end Sys2Proof.Machine
end

