-- ==== Sys2Proof/Machine/Ops.lean ====
section
/-! DEFINITION. The named operations over memory, the CRU and the registers: the primitives of
00_scope.md R11, the context switch that every trap takes (60_exceptions.md R420) and the return from it
(46_immediate_internal.md R370). -/

namespace Sys2Proof.Machine

/-! ### Memory as a list of cells (20_memory.md R60) -/

/-- What an unlisted address reads as (DESIGN CHOICE, log 4). -/
def memFill : Byte := 0

/-- The byte stored at an address. -/
def memGet : Memory → Nat → Byte
  | [], _ => memFill
  | (k, b) :: m, a => if k = a then b else memGet m a

/-- A cell put in its place among rising addresses. -/
def memInsert (a : Nat) (b : Byte) : Memory → Memory
  | [] => [(a, b)]
  | (k, c) :: m => if a < k then (a, b) :: (k, c) :: m else (k, c) :: memInsert a b m

/-- Storing a byte: the old cell goes, and a cell is listed unless the byte is what an unlisted address
reads as. -/
def memSet (m : Memory) (a : Nat) (b : Byte) : Memory :=
  let rest := m.filter fun cell => cell.1 != a
  if b = memFill then rest else memInsert a b rest

/-- The canonical form: addresses strictly rising and inside the space, no cell equal to `memFill`. -/
def Memory.wf (m : Memory) : Bool :=
  decide ((m.map Prod.fst).Pairwise (· < ·)) && m.all fun cell => cell.2 != memFill && decide (cell.1 < 65536)

/-! ### The address map (20_memory.md R66 to R70) -/

/-- Where an address lies. -/
inductive Place where
  /-- On-chip RAM (R66). -/
  | onChip
  /-- The decrementer's word (R67). -/
  | decrementer
  /-- Off chip, with what answers there (R70). -/
  | ext (kind : ExtKind)
  deriving DecidableEq, Repr

/-- The even address of the word that holds a byte (R61). -/
def evenAddr (a : Word) : Word := a &&& 0xFFFE

/-- `a in RAM_LO`: 252 bytes from the platform's base, whole words (R66; log 43). -/
def inRamLo (p : Platform) (a : Word) : Bool := decide ((evenAddr a - evenAddr p.ramLo).toNat < 252)

/-- `a in RAM_HI`: >FFFC to >FFFF (R66). -/
def inRamHi (a : Word) : Bool := decide (0xFFFC ≤ a.toNat)

/-- What answers at an external address: the first region that holds it, else RAM (R70; log 9, 44). -/
def extKindOf : List ExtRegion → Word → ExtKind
  | [], _ => .ram
  | g :: gs, a => if g.lo.toNat ≤ a.toNat ∧ a.toNat ≤ g.hi.toNat then g.kind else extKindOf gs a

/-- The order of the tests of R62 to R65: on-chip RAM, then the decrementer, else external. -/
def placeOf (p : Platform) (a : Word) : Place :=
  if inRamLo p a || inRamHi a then .onChip
  else if evenAddr a = evenAddr p.decAddr then .decrementer
  else .ext (extKindOf p.ext a)

/-! ### Memory cycles (20_memory.md R62 to R65) -/

/-- The byte at an address (R63). -/
def busReadByte (p : Platform) (b : Bus) (a : Word) : Byte :=
  match placeOf p a with
  | .onChip => memGet b.mem a.toNat
  | .decrementer => if a.getLsbD 0 then b.decCount.extractLsb' 0 8 else b.decCount.extractLsb' 8 8
  | .ext .ram => memGet b.mem a.toNat
  | .ext .rom => memGet b.mem a.toNat
  | .ext .device => Config.freeByte b.draws a
  | .ext .absent => Config.freeByte b.draws a

/-- The word at an address, whose LSB is ignored, most significant byte first (R61, R62, R83). -/
def busReadWord (p : Platform) (b : Bus) (a : Word) : Word :=
  busReadByte p b (evenAddr a) ++ busReadByte p b (evenAddr a + 1)

/-- Both registers of the decrementer loaded with one value (60_exceptions.md R446). -/
def decLoad (b : Bus) (v : Word) : Bus := { b with decStart := v, decCount := v }

/-- Bus cycles noted, newest first (log 12). -/
def busNote (b : Bus) (cycles : List BusEvent) : Bus := { b with events := cycles ++ b.events }

/-- A byte stored where there is RAM, on chip or off, and nowhere else (R64, R65, R70). -/
def busPutByte (p : Platform) (b : Bus) (a : Word) (v : Byte) : Bus :=
  match placeOf p a with
  | .onChip => { b with mem := memSet b.mem a.toNat v }
  | .decrementer => b
  | .ext .ram => { b with mem := memSet b.mem a.toNat v }
  | .ext .rom => b
  | .ext .device => b
  | .ext .absent => b

/-- Both bytes of the word at an even address stored, most significant first (R64, R83). -/
def busPutWord (p : Platform) (b : Bus) (a : Word) (v : Word) : Bus :=
  busPutByte p (busPutByte p b a (v.extractLsb' 8 8)) (a + 1) (v.extractLsb' 0 8)

/-- The write cycles of a word at its even address, newest first: one on chip, two off chip, the most
significant byte first (R64, R71, R72). -/
def wordCycles (p : Platform) (a : Word) (v : Word) : List BusEvent :=
  match placeOf p a with
  | .onChip => [.wordWrite a v]
  | .decrementer => [.wordWrite a v]
  | .ext _ => [.byteWrite (a + 1) (v.extractLsb' 0 8), .byteWrite a (v.extractLsb' 8 8)]

/-- The read cycles of a word at its even address, newest first: one on chip, two off chip, the most significant
byte first (R62, R71, R72), all of them with IAQ where the word is an opcode (R73). -/
def readCycles (p : Platform) (iaq : Bool) (a : Word) : List BusEvent :=
  match placeOf p (evenAddr a) with
  | .onChip => [.memRead (evenAddr a) iaq]
  | .decrementer => [.memRead (evenAddr a) iaq]
  | .ext _ => [.memRead (evenAddr a + 1) iaq, .memRead (evenAddr a) iaq]

/-- The byte on D0 to D7 in a write at an address: on chip the data is non-specific (R72). -/
def pinData (p : Platform) (a : Word) (v : Byte) : Option Byte :=
  match placeOf p a with
  | .onChip => none
  | .decrementer => none
  | .ext _ => some v

/-- What the pins show of a bus cycle (R70 to R73, R78, R79, R391; log 12). -/
def pinCycle (p : Platform) : BusEvent → PinCycle
  | .memRead a iaq => .memRead a iaq
  | .byteWrite a v => .memWrite a (pinData p a v)
  | .wordWrite a _ => .memWrite a none
  | .cruIn a => .cruIn a
  | .cruOut a v => .cruOut a v
  | .extInstr code => .extInstr code

/-- What an outside observer has seen on the pins, newest first (R70 to R73; log 12). -/
def State.observed (s : State) : List PinCycle := s.bus.events.map (pinCycle s.plat)

/-- A word stored at its even address; at the decrementer it loads both registers (R64, R446). -/
def busStoreWord (p : Platform) (b : Bus) (a : Word) (v : Word) : Bus :=
  if placeOf p a = .decrementer then decLoad b v else busPutWord p b a v

/-- A word write: the store at the even address, and its cycles (R61, R64). -/
def busWriteWord (p : Platform) (b : Bus) (a : Word) (v : Word) : Bus :=
  busNote (busStoreWord p b (evenAddr a) v) (wordCycles p (evenAddr a) v)

/-- The word that a byte write to the decrementer loads: a free byte in the half not addressed (60_exceptions.md
R451, D18). -/
def decWord (b : Bus) (a : Word) (v : Byte) : Word :=
  if a.getLsbD 0 then Config.freeDecByte b.draws ++ v else v ++ Config.freeDecByte b.draws

/-- A byte write (R65); to the decrementer it loads a whole word, in a cycle at the byte's address (R72, R451). -/
def busWriteByte (p : Platform) (b : Bus) (a : Word) (v : Byte) : Bus :=
  if placeOf p a = .decrementer then
    busNote (decLoad { b with draws := b.draws + 1 } (decWord b a v)) [.wordWrite a (decWord b a v)]
  else busNote (busPutByte p b a v) [.byteWrite a v]

/-- One more draw taken. -/
def State.tickDraws (s : State) : State := { s with bus := { s.bus with draws := s.bus.draws + 1 } }

/-- Input cycles performed: noted, newest first, and the draws of what they read taken. -/
def State.inputCycles (s : State) (cycles : List BusEvent) : State :=
  { s with bus := busNote { s.bus with draws := s.bus.draws + 1 } cycles }

/-- A word read, with IAQ where it is an opcode (R62, R73). -/
def State.readWordAs (iaq : Bool) (s : State) (a : Word) : Word × State :=
  (busReadWord s.plat s.bus a, s.inputCycles (readCycles s.plat iaq a))

/-- `MemRead(a, 2)` (R62). -/
def State.readWord (s : State) (a : Word) : Word × State := s.readWordAs false a

/-- `MemRead(a, 1)` (R63): one cycle at the byte's address, on chip and off (R71, R72). -/
def State.readByte (s : State) (a : Word) : Byte × State :=
  (busReadByte s.plat s.bus a, s.inputCycles [.memRead a false])

/-- `MemWrite(a, 2, v)` (R64). -/
def State.writeWord (s : State) (a v : Word) : State := { s with bus := busWriteWord s.plat s.bus a v }

/-- `MemWrite(a, 1, v)` (R65). -/
def State.writeByte (s : State) (a : Word) (v : Byte) : State := { s with bus := busWriteByte s.plat s.bus a v }

/-! ### Registers (10_state.md R21, R22, R26) -/

/-- The address of WRn: `(WP + 2n) mod 2^16` (R26). -/
def wrAddr (wp : Word) (n : Reg) : Word := wp + 2 * n.setWidth 16

/-- Reading `WR[n]`. -/
def State.readReg (s : State) (n : Reg) : Word × State := s.readWord (wrAddr s.wp n)

/-- Writing `WR[n]`. -/
def State.writeReg (s : State) (n : Reg) (v : Word) : State := s.writeWord (wrAddr s.wp n) v

/-- PC takes a value and loses its LSB (R21). -/
def State.setPc (s : State) (v : Word) : State := { s with pc := evenAddr v }

/-- WP takes a value and loses its LSB (R22). -/
def State.setWp (s : State) (v : Word) : State := { s with wp := evenAddr v }

/-- ST changes by a function of its old value. -/
def State.mapSt (s : State) (f : Word → Word) : State := { s with st := f s.st }

/-- The word at PC, and PC advanced by 2; IAQ shows where it is an opcode (30_encoding.md R101, 20_memory.md R73). -/
def State.fetchAs (iaq : Bool) (s : State) : Word × State :=
  ((s.readWordAs iaq s.pc).1, { (s.readWordAs iaq s.pc).2 with pc := s.pc + 2 })

/-- `Fetch()` of an extension word (30_encoding.md R101). -/
def State.fetch (s : State) : Word × State := s.fetchAs false

/-! ### The CRU (20_memory.md R76 to R81, 60_exceptions.md R455 to R457) -/

/-- `Req1`: the latch or the active level (60_exceptions.md R413). -/
def State.req1 (s : State) : Bool := s.latch1 || !s.pins.int1

/-- `Req4`: the latch, or the active level while FLAG0 = 0 (R413, R426). -/
def State.req4 (s : State) : Bool := s.latch4 || (!s.bus.flags.getLsbD 0 && !s.pins.int4)

/-- `FlagRead(i)`: FLAG2 to FLAG4 read the requests, the others their storage (R456, R428). -/
def State.flagRead (s : State) (i : Nat) : Bool :=
  if i = 2 then s.req1 else if i = 3 then s.latch3 else if i = 4 then s.req4 else s.bus.flags.getLsbD i

/-- One bit of the flag register's storage written. -/
def flagPut (f : BitVec 16) (i : Nat) (b : Bool) : BitVec 16 :=
  if b then f ||| (1#16 <<< i) else f &&& ~~~(1#16 <<< i)

/-- `FlagWrite(i, b)`: FLAG2 to FLAG4 are input only (R456, R427). -/
def flagWrite (f : BitVec 16) (i : Nat) (b : Bool) : BitVec 16 :=
  if i = 2 ∨ i = 3 ∨ i = 4 then f else flagPut f i b

/-- The level the platform drives on an external CRU input line, if it drives one (R81). -/
def cruLine : List (Nat × Bool) → Nat → Option Bool
  | [], _ => none
  | (k, b) :: ls, a => if k = a then some b else cruLine ls a

/-- The bit a CRU input cycle reads (R78). -/
def State.cruBit (s : State) (a : CruAddr) : Bool :=
  if 0x0F70 ≤ a.toNat ∧ a.toNat ≤ 0x0F7F then s.flagRead (a.toNat - 0x0F70)
  else if a.toNat = 0x0FED then s.bus.midFlag
  else (cruLine s.cruLines a.toNat).getD (Config.freeCruBit s.bus.draws a)

/-- `CruIn(a)` (R78). -/
def State.cruIn (s : State) (a : CruAddr) : Bool × State := (s.cruBit a, s.inputCycles [.cruIn a])

/-- What a CRU output cycle does on chip, and its event on the pins (R79). -/
def busCruOut (b : Bus) (a : CruAddr) (v : Bool) : Bus :=
  { b with
    flags := if 0x0F70 ≤ a.toNat ∧ a.toNat ≤ 0x0F7F then flagWrite b.flags (a.toNat - 0x0F70) v else b.flags
    midFlag := if a.toNat = 0x0FED then v else b.midFlag
    events := .cruOut a v :: b.events }

/-- `CruOut(a, v)` (R79). -/
def State.cruOut (s : State) (a : CruAddr) (v : Bool) : State := { s with bus := busCruOut s.bus a v }

/-- `CruBase()`: TI bits 0 to 14 of WR12 (44_cru.md R286, 20_memory.md R80). -/
def cruBase (wr12 : Word) : CruAddr := wr12.extractLsb' 1 15

/-- `CruBitAddr`: the base plus the signed displacement, modulo 2^15 (R148, R286; log 29). -/
def cruBitAddr (wr12 : Word) (disp : BitVec 8) : CruAddr := cruBase wr12 + disp.signExtend 15

/-- `CruFieldAddr(i)`: the base plus the bit's index, modulo 2^15 (R286; log 29). -/
def cruFieldAddr (base : CruAddr) (i : Nat) : CruAddr := base + BitVec.ofNat 15 i

/-- The output cycles of LDCR for bits `i` to `i + k - 1` of a value, lowest first (R281). -/
def cruOutBits (base : CruAddr) (v : Word) : Nat → Nat → State → State
  | _, 0, s => s
  | i, k + 1, s => cruOutBits base v (i + 1) k (s.cruOut (cruFieldAddr base i) (v.getLsbD i))

/-- The input cycles of STCR for bits `i` to `i + k - 1`, lowest first; the other bits are 0 (R282). -/
def cruInBits (base : CruAddr) : Nat → Nat → State → Word × State
  | _, 0, s => (0, s)
  | i, k + 1, s =>
    let p := s.cruIn (cruFieldAddr base i)
    let q := cruInBits base (i + 1) k p.2
    ((if p.1 then 1#16 <<< i else 0) ||| q.1, q.2)

/-- `ExtInstr(code)`: the external-instruction cycle's event (47_external_mid.md R391). -/
def State.extInstr (s : State) (code : BitVec 3) : State :=
  { s with bus := busNote s.bus [.extInstr code] }

/-! ### Bus cycles performed again (70_reset_and_hazards.md R481) -/

/-- What a bus cycle does. -/
def busCycle (p : Platform) (b : Bus) : BusEvent → Bus
  | .memRead a iaq => busNote b [.memRead a iaq]
  | .cruIn a => busNote b [.cruIn a]
  | .byteWrite a v => busNote (busPutByte p b a v) [.byteWrite a v]
  | .wordWrite a v => busNote (busStoreWord p b (evenAddr a) v) [.wordWrite a v]
  | .cruOut a v => busCruOut b a v
  | .extInstr code => busNote b [.extInstr code]

/-! ### Taking a trap and returning (60_exceptions.md R420 to R422, 46_immediate_internal.md R370) -/

/-- The stores of a context switch, in the new workspace: WR13, WR14, WR15 get the old WP, PC, ST; then PC
takes its new value (R420). -/
def State.enter (s : State) (newWp newPc : Word) : State :=
  let t := s.setWp newWp
  (((t.writeReg 13 s.wp).writeReg 14 s.pc).writeReg 15 s.st).setPc newPc

/-- `ContextSwitch(vec)`: both vector words are read, then the three stores (R420; D9, log 28). -/
def State.contextSwitch (s : State) (vec : Word) : State :=
  let w := s.readWord vec
  let p := w.2.readWord (vec + 2)
  p.2.enter w.1 p.1

/-- Which interrupt is taken (R411). Level 0, Reset, has its own sequence (R480). -/
inductive IntKind where
  | mid
  | nmi
  | level1
  | level2
  | level3
  | level4
  deriving DecidableEq, Repr

/-- The trap vector of an interrupt (R411, R414). -/
def intVector : IntKind → Word
  | .mid => 0x0008
  | .nmi => 0xFFFC
  | .level1 => 0x0004
  | .level2 => 0x0008
  | .level3 => 0x000C
  | .level4 => 0x0010

/-- `NewMask(kind, m)` (R421; a MID trap leaves mask 0 alone, conflict C1). -/
def newMask : IntKind → BitVec 4 → BitVec 4
  | .mid, m => if m = 0 then 0 else 1
  | .nmi, _ => 0
  | .level1, _ => 0
  | .level2, _ => 1
  | .level3, _ => 2
  | .level4, _ => 3

/-- The status after an interrupt: ST7 to ST11 cleared, the mask lowered, ST0 to ST6 kept (R420, R421). -/
def intStatus (k : IntKind) (st : Word) : Word := stPutMask (newMask k (stMask st)) (stClear7to11 st)

/-- `InterruptSwitch(vec, kind)`: the one operation by which every interrupt but Reset is taken (R420). -/
def State.interruptSwitch (s : State) (k : IntKind) : State :=
  { (s.contextSwitch (intVector k)).mapSt (intStatus k) with idle := false }

/-- Return from a context switch: ST, PC and WP from WR15, WR14 and WR13 of the current workspace (R370). -/
def State.returnSwitch (s : State) : State :=
  let st := s.readReg 15
  let pc := st.2.readReg 14
  let wp := pc.2.readReg 13
  (({ wp.2 with st := st.1 }).setPc pc.1).setWp wp.1

end Sys2Proof.Machine
end

