-- ==== Sys2Proof/Machine/Operands.lean ====
section
/-! DEFINITION. Effective addresses and operand access (40_addressing_and_status.md R140 to R151) and the
common parts of the instruction formats (R180, R195, R240). -/

namespace Sys2Proof.Machine

/-- What an auto-increment adds: 1 for bytes, 2 for words (R143). -/
def Size.step : Size → Word
  | .byte => 1
  | .word => 2

/-- `EA(T, R, size)` (R140): the address, and the state after the extension word is fetched and an
auto-increment is written back (D3, log 27). -/
def State.ea (s : State) (op : Operand) (size : Size) : Word × State :=
  match op with
  | .reg r => (wrAddr s.wp r, s)
  | .ind r => s.readReg r
  | .sym => s.fetch
  | .idx r =>
    let base := s.fetch
    let i := base.2.readReg r
    (base.1 + i.1, i.2)
  | .autoInc r =>
    let a := s.readReg r
    (a.1, a.2.writeReg r (a.1 + Size.step size))

/-- A source operand read, and the address of the second operand derived after it: what the common part of
the DUAL instructions leaves (R149, R180). -/
structure Pair (n : Nat) where
  /-- The source operand. -/
  src : BitVec n
  /-- DA, the destination address. -/
  da : Word
  /-- The state in which the destination is then read or written. -/
  s : State

/-- The common part of the DUAL instructions on words (R180). -/
def State.dualWord (s : State) (src dst : Operand) : Pair 16 :=
  let sa := s.ea src .word
  let v := sa.2.readWord sa.1
  let da := v.2.ea dst .word
  { src := v.1, da := da.1, s := da.2 }

/-- The common part of the DUAL instructions on bytes (R180). -/
def State.dualByte (s : State) (src dst : Operand) : Pair 8 :=
  let sa := s.ea src .byte
  let v := sa.2.readByte sa.1
  let da := v.2.ea dst .byte
  { src := v.1, da := da.1, s := da.2 }

/-- A word result written, the status changed by the second function of source and old destination. -/
def modifyWord (p : Pair 16) (result : Word → Word → Word) (status : Word → Word → Word → Word) : State :=
  let old := p.s.readWord p.da
  (old.2.writeWord p.da (result p.src old.1)).mapSt (status p.src old.1)

/-- The same for a byte result. -/
def modifyByte (p : Pair 8) (result : Byte → Byte → Byte) (status : Byte → Byte → Word → Word) : State :=
  let old := p.s.readByte p.da
  (old.2.writeByte p.da (result p.src old.1)).mapSt (status p.src old.1)

/-- Two word operands compared: the destination is read and nothing is written (R183). -/
def compareWord (p : Pair 16) (status : Word → Word → Word → Word) : State :=
  let old := p.s.readWord p.da
  old.2.mapSt (status p.src old.1)

/-- Two byte operands compared (R184). -/
def compareByte (p : Pair 8) (status : Byte → Byte → Word → Word) : State :=
  let old := p.s.readByte p.da
  old.2.mapSt (status p.src old.1)

/-- The general word source of the DUALW and SMD formats (R195, R220): its value, and the state after. -/
def State.sourceWord (s : State) (src : Operand) : Word × State :=
  let sa := s.ea src .word
  sa.2.readWord sa.1

/-- A SINGLE instruction that reads the word at SA, transforms it and writes it back (R240). -/
def State.modifySingle (s : State) (src : Operand) (result : Word → Word) (status : Word → Word → Word) : State :=
  let sa := s.ea src .word
  let v := sa.2.readWord sa.1
  (v.2.writeWord sa.1 (result v.1)).mapSt (status v.1)

/-- A SINGLE instruction that only writes the word at SA: no read of it (R151; log 34). -/
def State.writeSingle (s : State) (src : Operand) (v : Word) : State :=
  let sa := s.ea src .word
  sa.2.writeWord sa.1 v

/-- An IMMW instruction: IOP is fetched, then the register is read (R350). The result is written where one
is given. -/
def State.immediateWrite (s : State) (w : Reg) (result : Word → Word → Word) (status : Word → Word → Word → Word) :
    State :=
  let iop := s.fetch
  let r := iop.2.readReg w
  (r.2.writeReg w (result r.1 iop.1)).mapSt (status r.1 iop.1)

/-- A taken or not taken jump (45_jump_shift.md R310, R147): PC is already past the jump. -/
def State.jump (s : State) (disp : BitVec 8) (cond : Bool) : State :=
  if cond then { s with pc := s.pc + 2 * disp.signExtend 16 } else s

/-- `ShiftCount`: 1 to 16, from the C field or from WR0 (R330). WR0 is read only where C = 0. -/
def State.shiftCount (s : State) (c : BitVec 4) : Nat × State :=
  if c = 0 then
    let r := s.readReg 0
    (if r.1.extractLsb' 0 4 = 0 then 16 else (r.1.extractLsb' 0 4).toNat, r.2)
  else (c.toNat, s)

/-- A shift of register W: the count, the register, the result and its status (R330). -/
def State.shift (s : State) (w : Reg) (c : BitVec 4) (f : Word → Nat → Shifted) (status : Word → Nat → Word → Word) :
    State :=
  let n := s.shiftCount c
  let v := n.2.readReg w
  (v.2.writeReg w (f v.1 n.1).r).mapSt (status v.1 n.1)

/-- The number of bits of an LDCR or STCR: C, 0 meaning 16 (R108, R281). -/
def cruCount (c : BitVec 4) : Nat := if c = 0 then 16 else c.toNat

/-- Whether the operand of an LDCR or STCR is a byte: 1 <= C <= 8 (R108; conflict C5). -/
def cruIsByte (c : BitVec 4) : Bool := decide (1 ≤ c.toNat ∧ c.toNat ≤ 8)

/-- A single CRU output bit (44_cru.md R283, R284). -/
def State.cruSet (s : State) (disp : BitVec 8) (v : Bool) : State :=
  let r := s.readReg 12
  r.2.cruOut (cruBitAddr r.1 disp) v

end Sys2Proof.Machine
end

