-- ==== Sys2Proof/Machine/Cru.lean ====
section
/-! DEFINITION. The CRU instructions (44_cru.md R280 to R287). -/

namespace Sys2Proof.Machine

/-- LDCR, memory to CRU output bits: a byte operand for 1 to 8 bits, else a word; the whole operand sets the
status (R281). WR12 is read after the operand. -/
def execLdcr (src : Operand) (count : BitVec 4) (s : State) : Host.Outcome State Fault Refusal :=
  if cruIsByte count then
    let sa := s.ea src .byte
    let v := sa.2.readByte sa.1
    let r := (v.2.mapSt (stByte v.1)).readReg 12
    .next (cruOutBits (cruBase r.1) (v.1.setWidth 16) 0 (cruCount count) r.2)
  else
    let sa := s.ea src .word
    let v := sa.2.readWord sa.1
    let r := (v.2.mapSt (cmp0 v.1)).readReg 12
    .next (cruOutBits (cruBase r.1) v.1 0 (cruCount count) r.2)

/-- STCR, CRU input bits to memory, unfilled bits 0; the stored value sets the status (R282). -/
def execStcr (dst : Operand) (count : BitVec 4) (s : State) : Host.Outcome State Fault Refusal :=
  if cruIsByte count then
    let sa := s.ea dst .byte
    let r := sa.2.readReg 12
    let v := cruInBits (cruBase r.1) 0 (cruCount count) r.2
    .next ((v.2.writeByte sa.1 (v.1.extractLsb' 0 8)).mapSt (stByte (v.1.extractLsb' 0 8)))
  else
    let sa := s.ea dst .word
    let r := sa.2.readReg 12
    let v := cruInBits (cruBase r.1) 0 (cruCount count) r.2
    .next ((v.2.writeWord sa.1 v.1).mapSt (cmp0 v.1))

/-- SBO, set bit to one (R283). -/
def execSbo (disp : BitVec 8) (s : State) : Host.Outcome State Fault Refusal := .next (s.cruSet disp true)

/-- SBZ, set bit to zero (R284). -/
def execSbz (disp : BitVec 8) (s : State) : Host.Outcome State Fault Refusal := .next (s.cruSet disp false)

/-- TB, test bit: ST2 gets the addressed CRU input bit (R285). -/
def execTb (disp : BitVec 8) (s : State) : Host.Outcome State Fault Refusal :=
  let r := s.readReg 12
  let b := r.2.cruIn (cruBitAddr r.1 disp)
  .next (b.2.mapSt (stPut stEQ b.1))

end Sys2Proof.Machine
end

