-- ==== Sys2Proof/Machine/Dual.lean ====
section
/-! DEFINITION. The dual operand instructions with two general operands (41_dual_operand.md R180 to R192). -/

namespace Sys2Proof.Machine

/-- A, add words (R181). -/
def execA (src dst : Operand) (s : State) : Host.Outcome State Fault Refusal :=
  .next (modifyWord (s.dualWord src dst) (fun v d => (addN v d).r) (fun v d => stSum (addN v d)))

/-- AB, add bytes (R182). -/
def execAb (src dst : Operand) (s : State) : Host.Outcome State Fault Refusal :=
  .next (modifyByte (s.dualByte src dst) (fun v d => (addN v d).r) (fun v d => stSumByte (addN v d)))

/-- C, compare words (R183). -/
def execC (src dst : Operand) (s : State) : Host.Outcome State Fault Refusal :=
  .next (compareWord (s.dualWord src dst) (fun v d => cmpOperands v d))

/-- CB, compare bytes; the parity is the source's (R184). -/
def execCb (src dst : Operand) (s : State) : Host.Outcome State Fault Refusal :=
  .next (compareByte (s.dualByte src dst) (fun v d st => stPut stOP (parity8 v) (cmpOperands v d st)))

/-- S, subtract words: destination minus source (R185). -/
def execS (src dst : Operand) (s : State) : Host.Outcome State Fault Refusal :=
  .next (modifyWord (s.dualWord src dst) (fun v d => (subN d v).r) (fun v d => stSum (subN d v)))

/-- SB, subtract bytes (R186). -/
def execSb (src dst : Operand) (s : State) : Host.Outcome State Fault Refusal :=
  .next (modifyByte (s.dualByte src dst) (fun v d => (subN d v).r) (fun v d => stSumByte (subN d v)))

/-- SOC, set ones corresponding (R187). -/
def execSoc (src dst : Operand) (s : State) : Host.Outcome State Fault Refusal :=
  .next (modifyWord (s.dualWord src dst) (fun v d => d ||| v) (fun v d => cmp0 (d ||| v)))

/-- SOCB, set ones corresponding bytes (R188). -/
def execSocb (src dst : Operand) (s : State) : Host.Outcome State Fault Refusal :=
  .next (modifyByte (s.dualByte src dst) (fun v d => d ||| v) (fun v d => stByte (d ||| v)))

/-- SZC, set zeroes corresponding (R189; conflict C4). -/
def execSzc (src dst : Operand) (s : State) : Host.Outcome State Fault Refusal :=
  .next (modifyWord (s.dualWord src dst) (fun v d => d &&& ~~~v) (fun v d => cmp0 (d &&& ~~~v)))

/-- SZCB, set zeroes corresponding bytes (R190). -/
def execSzcb (src dst : Operand) (s : State) : Host.Outcome State Fault Refusal :=
  .next (modifyByte (s.dualByte src dst) (fun v d => d &&& ~~~v) (fun v d => stByte (d &&& ~~~v)))

/-- MOV, move word; the destination is not read (R191, R151). -/
def execMov (src dst : Operand) (s : State) : Host.Outcome State Fault Refusal :=
  let p := s.dualWord src dst
  .next ((p.s.writeWord p.da p.src).mapSt (cmp0 p.src))

/-- MOVB, move byte (R192). -/
def execMovb (src dst : Operand) (s : State) : Host.Outcome State Fault Refusal :=
  let p := s.dualByte src dst
  .next ((p.s.writeByte p.da p.src).mapSt (stByte p.src))

end Sys2Proof.Machine
end

