-- ==== Sys2Proof/Machine/DualReg.lean ====
section
/-! DEFINITION. The instructions with a general source and a register destination
(41_dual_operand.md R195 to R200). The register is read after the source operand. -/

namespace Sys2Proof.Machine

/-- COC, compare ones corresponding (R196). -/
def execCoc (src : Operand) (d : Reg) (s : State) : Host.Outcome State Fault Refusal :=
  let v := s.sourceWord src
  let r := v.2.readReg d
  .next (r.2.mapSt (stPut stEQ (v.1 &&& ~~~r.1 == 0)))

/-- CZC, compare zeroes corresponding (R197). -/
def execCzc (src : Operand) (d : Reg) (s : State) : Host.Outcome State Fault Refusal :=
  let v := s.sourceWord src
  let r := v.2.readReg d
  .next (r.2.mapSt (stPut stEQ (v.1 &&& r.1 == 0)))

/-- XOR, exclusive or (R198; conflict C8). -/
def execXor (src : Operand) (d : Reg) (s : State) : Host.Outcome State Fault Refusal :=
  let v := s.sourceWord src
  let r := v.2.readReg d
  .next ((r.2.writeReg d (r.1 ^^^ v.1)).mapSt (cmp0 (r.1 ^^^ v.1)))

/-- MPY, unsigned multiply: the product in registers D and D+1; for D = 15 its low half goes to the word
after WR15 (R199). -/
def execMpy (src : Operand) (d : Reg) (s : State) : Host.Outcome State Fault Refusal :=
  let v := s.sourceWord src
  let r := v.2.readReg d
  let p : BitVec 32 := r.1.setWidth 32 * v.1.setWidth 32
  .next ((r.2.writeReg d (p.extractLsb' 16 16)).writeWord (wrAddr s.wp d + 2) (p.extractLsb' 0 16))

/-- DIV, unsigned divide: ST4 and nothing else where the divisor is not above the high word (R200, D8). -/
def execDiv (src : Operand) (d : Reg) (s : State) : Host.Outcome State Fault Refusal :=
  let v := s.sourceWord src
  let hi := v.2.readReg d
  if v.1 ≤ hi.1 then .next (hi.2.mapSt (stPut stOV true))
  else
    let lo := hi.2.readWord (wrAddr s.wp d + 2)
    let n : BitVec 32 := hi.1 ++ lo.1
    let q := n / v.1.setWidth 32
    let r := n % v.1.setWidth 32
    .next (((lo.2.writeReg d (q.setWidth 16)).writeWord (wrAddr s.wp d + 2) (r.setWidth 16)).mapSt
      (stPut stOV false))

end Sys2Proof.Machine
end

