-- ==== Sys2Proof/Machine/External.lean ====
section
/-! DEFINITION. The external instructions and the MID opcodes (47_external_mid.md). -/

namespace Sys2Proof.Machine

/-- IDLE: the Idle state is entered and the first Idle code put out (R392). -/
def execIdle (s : State) : Host.Outcome State Fault Refusal := .next { s.extInstr 0b010 with idle := true }

/-- RSET: the interrupt mask cleared; it is no reset of the CPU (R393). -/
def execRset (s : State) : Host.Outcome State Fault Refusal := .next ((s.mapSt (stPutMask 0)).extInstr 0b011)

/-- CKON, user defined: its code only (R394). -/
def execCkon (s : State) : Host.Outcome State Fault Refusal := .next (s.extInstr 0b101)

/-- CKOF, user defined: its code only (R395). -/
def execCkof (s : State) : Host.Outcome State Fault Refusal := .next (s.extInstr 0b110)

/-- LREX, user defined: its code only (R396). -/
def execLrex (s : State) : Host.Outcome State Fault Refusal := .next (s.extInstr 0b111)

/-- "raise MID": the MID flag set and the MID interrupt requested, which the boundary that follows takes
before any other instruction (R400, R430). -/
def State.raiseMid (s : State) : State :=
  { s with bus := { s.bus with midFlag := true }, midPending := true }

/-- A MID opcode (R400). The opcode word itself has no further effect. -/
def execMid (_ : Word) (s : State) : Host.Outcome State Fault Refusal := .next s.raiseMid

end Sys2Proof.Machine
end

