-- ==== Sys2Proof/Machine/Immediate.lean ====
section
/-! DEFINITION. The immediate, internal-register and return instructions (46_immediate_internal.md). -/

namespace Sys2Proof.Machine

/-- LI, load immediate: the register is written without being read (R351, R151). -/
def execLi (w : Reg) (s : State) : Host.Outcome State Fault Refusal :=
  let iop := s.fetch
  .next ((iop.2.writeReg w iop.1).mapSt (cmp0 iop.1))

/-- AI, add immediate (R352). -/
def execAi (w : Reg) (s : State) : Host.Outcome State Fault Refusal :=
  .next (s.immediateWrite w (fun r iop => (addN r iop).r) (fun r iop => stSum (addN r iop)))

/-- ANDI, and immediate (R353). -/
def execAndi (w : Reg) (s : State) : Host.Outcome State Fault Refusal :=
  .next (s.immediateWrite w (fun r iop => r &&& iop) (fun r iop => cmp0 (r &&& iop)))

/-- ORI, or immediate (R354). -/
def execOri (w : Reg) (s : State) : Host.Outcome State Fault Refusal :=
  .next (s.immediateWrite w (fun r iop => r ||| iop) (fun r iop => cmp0 (r ||| iop)))

/-- CI, compare immediate: the register plays the part of the source (R355; conflict C10). -/
def execCi (w : Reg) (s : State) : Host.Outcome State Fault Refusal :=
  let iop := s.fetch
  let r := iop.2.readReg w
  .next (r.2.mapSt (cmpOperands r.1 iop.1))

/-- LWPI, load workspace pointer immediate (R360). -/
def execLwpi (s : State) : Host.Outcome State Fault Refusal :=
  let iop := s.fetch
  .next (iop.2.setWp iop.1)

/-- LIMI, load interrupt mask immediate: the four low bits of IOP (R361). -/
def execLimi (s : State) : Host.Outcome State Fault Refusal :=
  let iop := s.fetch
  .next (iop.2.mapSt (stPutMask (iop.1.extractLsb' 0 4)))

/-- STST, store status register (R365). -/
def execStst (w : Reg) (s : State) : Host.Outcome State Fault Refusal := .next (s.writeReg w s.st)

/-- LST, load status register (R366). -/
def execLst (w : Reg) (s : State) : Host.Outcome State Fault Refusal :=
  let r := s.readReg w
  .next { r.2 with st := r.1 }

/-- STWP, store workspace pointer (R367). -/
def execStwp (w : Reg) (s : State) : Host.Outcome State Fault Refusal := .next (s.writeReg w s.wp)

/-- LWP, load workspace pointer: the register is read in the old workspace (R368). -/
def execLwp (w : Reg) (s : State) : Host.Outcome State Fault Refusal :=
  let r := s.readReg w
  .next (r.2.setWp r.1)

/-- RTWP, return workspace pointer (R370). -/
def execRtwp (s : State) : Host.Outcome State Fault Refusal := .next s.returnSwitch

end Sys2Proof.Machine
end

