-- ==== Sys2Proof/Machine/JumpShift.lean ====
section
/-! DEFINITION. The jump and shift instructions (45_jump_shift.md). -/

namespace Sys2Proof.Machine

/-- JMP: always (R311). -/
def execJmp (disp : BitVec 8) (s : State) : Host.Outcome State Fault Refusal :=
  .next (s.jump disp true)

/-- JLT: ST1 = 0 and ST2 = 0 (R312). -/
def execJlt (disp : BitVec 8) (s : State) : Host.Outcome State Fault Refusal :=
  .next (s.jump disp (!s.st.getLsbD stA && !s.st.getLsbD stEQ))

/-- JLE: ST0 = 0 or ST2 = 1, the unsigned test (R313). -/
def execJle (disp : BitVec 8) (s : State) : Host.Outcome State Fault Refusal :=
  .next (s.jump disp (!s.st.getLsbD stL || s.st.getLsbD stEQ))

/-- JEQ: ST2 = 1 (R314). -/
def execJeq (disp : BitVec 8) (s : State) : Host.Outcome State Fault Refusal :=
  .next (s.jump disp (s.st.getLsbD stEQ))

/-- JHE: ST0 = 1 or ST2 = 1 (R315). -/
def execJhe (disp : BitVec 8) (s : State) : Host.Outcome State Fault Refusal :=
  .next (s.jump disp (s.st.getLsbD stL || s.st.getLsbD stEQ))

/-- JGT: ST1 = 1 (R316). -/
def execJgt (disp : BitVec 8) (s : State) : Host.Outcome State Fault Refusal :=
  .next (s.jump disp (s.st.getLsbD stA))

/-- JNE: ST2 = 0 (R317). -/
def execJne (disp : BitVec 8) (s : State) : Host.Outcome State Fault Refusal :=
  .next (s.jump disp (!s.st.getLsbD stEQ))

/-- JNC: ST3 = 0 (R318). -/
def execJnc (disp : BitVec 8) (s : State) : Host.Outcome State Fault Refusal :=
  .next (s.jump disp (!s.st.getLsbD stC))

/-- JOC: ST3 = 1 (R319). -/
def execJoc (disp : BitVec 8) (s : State) : Host.Outcome State Fault Refusal :=
  .next (s.jump disp (s.st.getLsbD stC))

/-- JNO: ST4 = 0 (R320). -/
def execJno (disp : BitVec 8) (s : State) : Host.Outcome State Fault Refusal :=
  .next (s.jump disp (!s.st.getLsbD stOV))

/-- JL: ST0 = 0 and ST2 = 0 (R321). -/
def execJl (disp : BitVec 8) (s : State) : Host.Outcome State Fault Refusal :=
  .next (s.jump disp (!s.st.getLsbD stL && !s.st.getLsbD stEQ))

/-- JH: ST0 = 1 and ST2 = 0 (R322). -/
def execJh (disp : BitVec 8) (s : State) : Host.Outcome State Fault Refusal :=
  .next (s.jump disp (s.st.getLsbD stL && !s.st.getLsbD stEQ))

/-- JOP: ST5 = 1 (R323). -/
def execJop (disp : BitVec 8) (s : State) : Host.Outcome State Fault Refusal :=
  .next (s.jump disp (s.st.getLsbD stOP))

/-- SLA, shift left arithmetic; ST4 where the MSB changes during the shift (R331). -/
def execSla (w : Reg) (count : BitVec 4) (s : State) : Host.Outcome State Fault Refusal :=
  .next (s.shift w count shiftLeft
    (fun v n st => stPut stOV (shiftLeftOverflow v n) (stShift (shiftLeft v n) st)))

/-- SRA, shift right arithmetic (R332). -/
def execSra (w : Reg) (count : BitVec 4) (s : State) : Host.Outcome State Fault Refusal :=
  .next (s.shift w count shiftRightArith (fun v n => stShift (shiftRightArith v n)))

/-- SRL, shift right logical (R333). -/
def execSrl (w : Reg) (count : BitVec 4) (s : State) : Host.Outcome State Fault Refusal :=
  .next (s.shift w count shiftRightLogical (fun v n => stShift (shiftRightLogical v n)))

/-- SRC, shift right circular (R334). -/
def execSrc (w : Reg) (count : BitVec 4) (s : State) : Host.Outcome State Fault Refusal :=
  .next (s.shift w count shiftRightCircular (fun v n => stShift (shiftRightCircular v n)))

end Sys2Proof.Machine
end

