-- ==== Sys2Proof/Machine/SignedXop.lean ====
section
/-! DEFINITION. Signed multiply and divide, and the extended operation (42_signed_muldiv_xop.md). -/

namespace Sys2Proof.Machine

/-- MPYS, signed multiply: WR0 by the source, into WR0 and WR1; the 32-bit product is compared with 0
(R221; D6, log 25). -/
def execMpys (src : Operand) (s : State) : Host.Outcome State Fault Refusal :=
  let v := s.sourceWord src
  let r := v.2.readReg 0
  let p : BitVec 32 := BitVec.ofInt 32 (r.1.toInt * v.1.toInt)
  .next (((r.2.writeReg 0 (p.extractLsb' 16 16)).writeReg 1 (p.extractLsb' 0 16)).mapSt (cmp0 p))

/-- DIVS, signed divide: WR0 and WR1 by the source. On overflow ST4 is set, WR0 and WR1 stay, and ST0 to ST2
are free (R222; D7, log 18). -/
def execDivs (src : Operand) (s : State) : Host.Outcome State Fault Refusal :=
  let v := s.sourceWord src
  let hi := v.2.readReg 0
  let lo := hi.2.readReg 1
  match divSigned (hi.1 ++ lo.1) v.1 with
  | none =>
    .next (lo.2.tickDraws.mapSt fun st => stPut stOV true (stPut3 (Config.freeStatus lo.2.bus.draws) st))
  | some (q, r) =>
    .next (((lo.2.writeReg 0 q).writeReg 1 r).mapSt fun st => stPut stOV false (cmp0 q st))

/-- The status XOP leaves: ST6 set, ST7 to ST11 cleared, the rest kept (R225, R24, R167). DEDUCED, log 47: entry U25
of 93_implementation_defined.md says otherwise of ST7, ST8, ST9, ST11, 'left by XOP and BLWP', and 90_conflicts.md
does not name the point; the model follows the rules and clears them. -/
def xopStatus (st : Word) : Word := stPut stX true (stClear7to11 st)

/-- XOP, extended operation: a context switch through >0040 + 4D that also passes SA in the new WR11, and
holds back the maskable interrupts for one instruction (R225, R226, R227; the operand is not read). -/
def execXop (src : Operand) (n : BitVec 4) (s : State) : Host.Outcome State Fault Refusal :=
  let sa := s.ea src .word
  let vec : Word := 0x0040 + 4 * n.setWidth 16
  let w := sa.2.readWord vec
  let p := w.2.readWord (vec + 2)
  let t := (p.2.setWp w.1).writeReg 11 sa.1
  let t := ((t.writeReg 13 p.2.wp).writeReg 14 p.2.pc).writeReg 15 p.2.st
  .next { (t.setPc p.1).mapSt xopStatus with inhibit := .maskable }

end Sys2Proof.Machine
end

