-- ==== Sys2Proof/Machine/Single.lean ====
section
/-! DEFINITION. The single operand instructions (43_single_operand.md R240 to R253); X is in Execute.lean. -/

namespace Sys2Proof.Machine

/-- B, branch: only the address of the operand is used (R241). -/
def execB (src : Operand) (s : State) : Host.Outcome State Fault Refusal :=
  let sa := s.ea src .word
  .next (sa.2.setPc sa.1)

/-- BL, branch and link: SA is computed before WR11 gets the return address (R242). -/
def execBl (src : Operand) (s : State) : Host.Outcome State Fault Refusal :=
  let sa := s.ea src .word
  .next ((sa.2.writeReg 11 sa.2.pc).setPc sa.1)

/-- BLWP, branch and load workspace pointer: a context switch through the vector at SA, ST unchanged,
maskable interrupts held back for one instruction (R243, R227). -/
def execBlwp (src : Operand) (s : State) : Host.Outcome State Fault Refusal :=
  let sa := s.ea src .word
  .next { sa.2.contextSwitch sa.1 with inhibit := .maskable }

/-- CLR, clear operand (R244). -/
def execClr (src : Operand) (s : State) : Host.Outcome State Fault Refusal := .next (s.writeSingle src 0)

/-- SETO, set to ones (R245). -/
def execSeto (src : Operand) (s : State) : Host.Outcome State Fault Refusal := .next (s.writeSingle src 0xFFFF)

/-- INV, one's complement (R246). -/
def execInv (src : Operand) (s : State) : Host.Outcome State Fault Refusal :=
  .next (s.modifySingle src (fun v => ~~~v) (fun v => cmp0 (~~~v)))

/-- NEG, two's complement: the operand subtracted from 0 (R247). -/
def execNeg (src : Operand) (s : State) : Host.Outcome State Fault Refusal :=
  .next (s.modifySingle src (fun v => (subN 0 v).r) (fun v => stSum (subN 0 v)))

/-- The status of ABS: the operand, not the result, compared with 0; ST4 for >8000; ST3 cleared
(R248; D5, log 24). -/
def absStatus (v st : Word) : Word := stPut stC false (stPut stOV (v == 0x8000) (cmp0 v st))

/-- ABS, absolute value, written back for either sign (R248). -/
def execAbs (src : Operand) (s : State) : Host.Outcome State Fault Refusal :=
  .next (s.modifySingle src (fun v => if v.msb then 0 - v else v) absStatus)

/-- SWPB, swap bytes; no status (R249). -/
def execSwpb (src : Operand) (s : State) : Host.Outcome State Fault Refusal :=
  .next (s.modifySingle src (fun v => v.extractLsb' 0 8 ++ v.extractLsb' 8 8) (fun _ st => st))

/-- INC, increment (R250). -/
def execInc (src : Operand) (s : State) : Host.Outcome State Fault Refusal :=
  .next (s.modifySingle src (fun v => (addN v 1).r) (fun v => stSum (addN v 1)))

/-- INCT, increment by two (R251). -/
def execInct (src : Operand) (s : State) : Host.Outcome State Fault Refusal :=
  .next (s.modifySingle src (fun v => (addN v 2).r) (fun v => stSum (addN v 2)))

/-- DEC, decrement (R252). -/
def execDec (src : Operand) (s : State) : Host.Outcome State Fault Refusal :=
  .next (s.modifySingle src (fun v => (subN v 1).r) (fun v => stSum (subN v 1)))

/-- DECT, decrement by two (R253). -/
def execDect (src : Operand) (s : State) : Host.Outcome State Fault Refusal :=
  .next (s.modifySingle src (fun v => (subN v 2).r) (fun v => stSum (subN v 2)))

end Sys2Proof.Machine
end

