-- ==== Sys2Proof/Machine/Execute.lean ====
section
/-! DEFINITION. X, execute (43_single_operand.md R254): the word at SA runs as an instruction. -/

namespace Sys2Proof.Machine

/-- The target of an X: every instruction but X itself does what it does on its own, with PC as it stands
(R254). A target that is again an X is left for the next CPU step, which runs it with no boundary between
(D21, log 21). -/
def execTarget (t : Word) (s : State) : Host.Outcome State Fault Refusal :=
  match decode t with
  | .x _ => .next { s with xPending := some t }
  | .szc sop dop => execSzc sop dop s
  | .szcb sop dop => execSzcb sop dop s
  | .s sop dop => execS sop dop s
  | .sb sop dop => execSb sop dop s
  | .c sop dop => execC sop dop s
  | .cb sop dop => execCb sop dop s
  | .a sop dop => execA sop dop s
  | .ab sop dop => execAb sop dop s
  | .mov sop dop => execMov sop dop s
  | .movb sop dop => execMovb sop dop s
  | .soc sop dop => execSoc sop dop s
  | .socb sop dop => execSocb sop dop s
  | .coc sop d => execCoc sop d s
  | .czc sop d => execCzc sop d s
  | .xor sop d => execXor sop d s
  | .mpy sop d => execMpy sop d s
  | .div sop d => execDiv sop d s
  | .mpys sop => execMpys sop s
  | .divs sop => execDivs sop s
  | .xop sop n => execXop sop n s
  | .b sop => execB sop s
  | .bl sop => execBl sop s
  | .blwp sop => execBlwp sop s
  | .clr sop => execClr sop s
  | .seto sop => execSeto sop s
  | .inv sop => execInv sop s
  | .neg sop => execNeg sop s
  | .abs sop => execAbs sop s
  | .swpb sop => execSwpb sop s
  | .inc sop => execInc sop s
  | .inct sop => execInct sop s
  | .dec sop => execDec sop s
  | .dect sop => execDect sop s
  | .ldcr sop count => execLdcr sop count s
  | .stcr dop count => execStcr dop count s
  | .sbo disp => execSbo disp s
  | .sbz disp => execSbz disp s
  | .tb disp => execTb disp s
  | .jmp disp => execJmp disp s
  | .jlt disp => execJlt disp s
  | .jle disp => execJle disp s
  | .jeq disp => execJeq disp s
  | .jhe disp => execJhe disp s
  | .jgt disp => execJgt disp s
  | .jne disp => execJne disp s
  | .jnc disp => execJnc disp s
  | .joc disp => execJoc disp s
  | .jno disp => execJno disp s
  | .jl disp => execJl disp s
  | .jh disp => execJh disp s
  | .jop disp => execJop disp s
  | .sla w count => execSla w count s
  | .sra w count => execSra w count s
  | .srl w count => execSrl w count s
  | .src w count => execSrc w count s
  | .li w => execLi w s
  | .ai w => execAi w s
  | .andi w => execAndi w s
  | .ori w => execOri w s
  | .ci w => execCi w s
  | .lwpi => execLwpi s
  | .limi => execLimi s
  | .stst w => execStst w s
  | .lst w => execLst w s
  | .stwp w => execStwp w s
  | .lwp w => execLwp w s
  | .rtwp => execRtwp s
  | .idle => execIdle s
  | .rset => execRset s
  | .ckon => execCkon s
  | .ckof => execCkof s
  | .lrex => execLrex s
  | .mid w => execMid w s

/-- X, execute (R254). The word at SA is read as data, not as an opcode fetch. -/
def execX (sop : Operand) (s : State) : Host.Outcome State Fault Refusal :=
  let v := s.sourceWord sop
  execTarget v.1 v.2

end Sys2Proof.Machine
end

