-- ==== Sys2Proof/Machine/Dispatch.lean ====
section
/-! DEFINITION. One arm per instruction: a direct call of its meaning. PC is already past the opcode word. -/

namespace Sys2Proof.Machine

/-- What an instruction does, its opcode word fetched (00_scope.md R12). -/
def exec (i : Instr) (s : State) : Host.Outcome State Fault Refusal :=
  match i with
  | .szc sop dop => Sys2Proof.Machine.execSzc sop dop s
  | .szcb sop dop => Sys2Proof.Machine.execSzcb sop dop s
  | .s sop dop => Sys2Proof.Machine.execS sop dop s
  | .sb sop dop => Sys2Proof.Machine.execSb sop dop s
  | .c sop dop => Sys2Proof.Machine.execC sop dop s
  | .cb sop dop => Sys2Proof.Machine.execCb sop dop s
  | .a sop dop => Sys2Proof.Machine.execA sop dop s
  | .ab sop dop => Sys2Proof.Machine.execAb sop dop s
  | .mov sop dop => Sys2Proof.Machine.execMov sop dop s
  | .movb sop dop => Sys2Proof.Machine.execMovb sop dop s
  | .soc sop dop => Sys2Proof.Machine.execSoc sop dop s
  | .socb sop dop => Sys2Proof.Machine.execSocb sop dop s
  | .coc sop d => Sys2Proof.Machine.execCoc sop d s
  | .czc sop d => Sys2Proof.Machine.execCzc sop d s
  | .xor sop d => Sys2Proof.Machine.execXor sop d s
  | .mpy sop d => Sys2Proof.Machine.execMpy sop d s
  | .div sop d => Sys2Proof.Machine.execDiv sop d s
  | .mpys sop => Sys2Proof.Machine.execMpys sop s
  | .divs sop => Sys2Proof.Machine.execDivs sop s
  | .xop sop n => Sys2Proof.Machine.execXop sop n s
  | .b sop => Sys2Proof.Machine.execB sop s
  | .bl sop => Sys2Proof.Machine.execBl sop s
  | .blwp sop => Sys2Proof.Machine.execBlwp sop s
  | .clr sop => Sys2Proof.Machine.execClr sop s
  | .seto sop => Sys2Proof.Machine.execSeto sop s
  | .inv sop => Sys2Proof.Machine.execInv sop s
  | .neg sop => Sys2Proof.Machine.execNeg sop s
  | .abs sop => Sys2Proof.Machine.execAbs sop s
  | .swpb sop => Sys2Proof.Machine.execSwpb sop s
  | .inc sop => Sys2Proof.Machine.execInc sop s
  | .inct sop => Sys2Proof.Machine.execInct sop s
  | .dec sop => Sys2Proof.Machine.execDec sop s
  | .dect sop => Sys2Proof.Machine.execDect sop s
  | .x sop => Sys2Proof.Machine.execX sop s
  | .ldcr sop count => Sys2Proof.Machine.execLdcr sop count s
  | .stcr dop count => Sys2Proof.Machine.execStcr dop count s
  | .sbo disp => Sys2Proof.Machine.execSbo disp s
  | .sbz disp => Sys2Proof.Machine.execSbz disp s
  | .tb disp => Sys2Proof.Machine.execTb disp s
  | .jmp disp => Sys2Proof.Machine.execJmp disp s
  | .jlt disp => Sys2Proof.Machine.execJlt disp s
  | .jle disp => Sys2Proof.Machine.execJle disp s
  | .jeq disp => Sys2Proof.Machine.execJeq disp s
  | .jhe disp => Sys2Proof.Machine.execJhe disp s
  | .jgt disp => Sys2Proof.Machine.execJgt disp s
  | .jne disp => Sys2Proof.Machine.execJne disp s
  | .jnc disp => Sys2Proof.Machine.execJnc disp s
  | .joc disp => Sys2Proof.Machine.execJoc disp s
  | .jno disp => Sys2Proof.Machine.execJno disp s
  | .jl disp => Sys2Proof.Machine.execJl disp s
  | .jh disp => Sys2Proof.Machine.execJh disp s
  | .jop disp => Sys2Proof.Machine.execJop disp s
  | .sla w count => Sys2Proof.Machine.execSla w count s
  | .sra w count => Sys2Proof.Machine.execSra w count s
  | .srl w count => Sys2Proof.Machine.execSrl w count s
  | .src w count => Sys2Proof.Machine.execSrc w count s
  | .li w => Sys2Proof.Machine.execLi w s
  | .ai w => Sys2Proof.Machine.execAi w s
  | .andi w => Sys2Proof.Machine.execAndi w s
  | .ori w => Sys2Proof.Machine.execOri w s
  | .ci w => Sys2Proof.Machine.execCi w s
  | .lwpi => Sys2Proof.Machine.execLwpi s
  | .limi => Sys2Proof.Machine.execLimi s
  | .stst w => Sys2Proof.Machine.execStst w s
  | .lst w => Sys2Proof.Machine.execLst w s
  | .stwp w => Sys2Proof.Machine.execStwp w s
  | .lwp w => Sys2Proof.Machine.execLwp w s
  | .rtwp => Sys2Proof.Machine.execRtwp s
  | .idle => Sys2Proof.Machine.execIdle s
  | .rset => Sys2Proof.Machine.execRset s
  | .ckon => Sys2Proof.Machine.execCkon s
  | .ckof => Sys2Proof.Machine.execCkof s
  | .lrex => Sys2Proof.Machine.execLrex s
  | .mid w => Sys2Proof.Machine.execMid w s

end Sys2Proof.Machine
end

