-- ==== Sys2Proof/Machine/Environment.lean ====
section
/-! DEFINITION. What the other agents do: the pins, the decrementer's clock, DMA and the CRU input lines
(70_reset_and_hazards.md R505, 60_exceptions.md R424 to R452). -/

namespace Sys2Proof.Machine

/-- `DecTick()` (60_exceptions.md R447, R448): nothing unless FLAG1 = 1 and the start count is not 0; at
zero the level 3 latch is set and the count reloaded. -/
def State.decTick (s : State) : State :=
  if s.bus.flags.getLsbD 1 = true ∧ s.bus.decStart ≠ 0 then
    if s.bus.decCount - 1 = 0 then
      { s with latch3 := true, bus := { s.bus with decCount := s.bus.decStart } }
    else { s with bus := { s.bus with decCount := s.bus.decCount - 1 } }
  else s

/-- RESET falls: the Reset state; a Hold state ends, and NMI counts as armed only if it is high now or
later (70_reset_and_hazards.md R480, R482, R483; D19, log 41). -/
def State.resetFalls (s : State) : State :=
  if s.resetActive then s
  else { s with resetActive := true, resetPending := false, holdState := false, nmiArmed := s.pins.nmi }

/-- RESET rises: READY is sampled, Hold is granted first if HOLD is low, and the reset sequence is due
(R480, R483, R496). -/
def State.resetRises (s : State) : State :=
  if s.resetActive then
    { s with resetActive := false, resetPending := true, autoWait := s.pins.ready, holdState := !s.pins.hold }
  else s

/-- INT4/EC takes a level: a falling edge is a decrementer tick in event counter mode and sets LATCH4
otherwise (60_exceptions.md R425, R426, R452). -/
def State.int4Level (s : State) (high : Bool) : State :=
  let t := { s with pins := { s.pins with int4 := high } }
  if s.pins.int4 && !high then
    if s.bus.flags.getLsbD 0 then t.decTick else { t with latch4 := true }
  else t

/-- A CRU input line put in its place among rising addresses, or taken out. -/
def putLine (a : Nat) (level : Option Bool) : List (Nat × Bool) → List (Nat × Bool)
  | [] => match level with
    | some b => [(a, b)]
    | none => []
  | (k, c) :: ls =>
    if k = a then (match level with
      | some b => (a, b) :: ls
      | none => ls)
    else if a < k then (match level with
      | some b => (a, b) :: (k, c) :: ls
      | none => (k, c) :: ls)
    else (k, c) :: putLine a level ls

/-- DMA reaches external memory only, and only in the Hold state (20_memory.md R86). -/
def State.dmaWrite (s : State) (a : Word) (b : Byte) : State :=
  if s.holdState = true ∧ placeOf s.plat a = .ext .ram then
    { s with bus := { s.bus with mem := memSet s.bus.mem a.toNat b } }
  else s

/-- One entry of the agenda that is not the CPU's turn (R505). A reset within the CPU's step is
`State.resetInside`; here only RESET falls. -/
def State.envEvent (s : State) : EnvEvent → State
  | .cpu => s
  | .resetWithin _ => s.resetFalls
  | .reset high => if high then s.resetRises else s.resetFalls
  | .nmi high => { s with pins := { s.pins with nmi := high }, nmiArmed := s.nmiArmed || high }
  | .int1 high =>
    { s with pins := { s.pins with int1 := high }, latch1 := s.latch1 || (s.pins.int1 && !high) }
  | .int4 high => s.int4Level high
  | .hold high => { s with pins := { s.pins with hold := high }, holdState := !high && !s.resetActive }
  | .ready high => { s with pins := { s.pins with ready := high } }
  | .timerClock => if s.bus.flags.getLsbD 0 then s else s.decTick
  | .dmaWrite a b => s.dmaWrite a b
  | .cruLine a level => { s with cruLines := putLine a.toNat level s.cruLines }

end Sys2Proof.Machine
end

