-- ==== Sys2Proof/Machine/Interrupts.lean ====
section
/-! DEFINITION. Requests, the boundary algorithm (60_exceptions.md R413, R414) and the reset sequence
(70_reset_and_hazards.md R480). -/

namespace Sys2Proof.Machine

/-! ### Requests (R413) -/

/-- `ReqNMI`: armed and the pin low (R424). -/
def State.reqNmi (s : State) : Bool := s.nmiArmed && !s.pins.nmi

/-- `Req2`: ST4 and ST10 while the overflow interrupt is functional (R435; D11, D12, log 17, 31). -/
def State.req2 (s : State) : Bool := s.plat.ovfFunctional && s.st.getLsbD stOV && s.st.getLsbD stOVEN

/-- `Accept(L)`: requested and L not above the mask (R413). -/
def State.accepts (s : State) (level : Nat) (req : Bool) : Bool := req && decide (level ≤ (stMask s.st).toNat)

/-- The highest of the levels 1 to 4 that is accepted (R413, R414 step 6). -/
def State.acceptedLevel (s : State) : Option IntKind :=
  if s.accepts 1 s.req1 then some .level1
  else if s.accepts 2 s.req2 then some .level2
  else if s.accepts 3 s.latch3 then some .level3
  else if s.accepts 4 s.req4 then some .level4
  else none

/-! ### The boundary algorithm (R414) -/

/-- What an interrupt uses up: the NMI's arming, MID's request, the latch of its level (R414, R427). -/
def State.consume (s : State) : IntKind → State
  | .mid => { s with midPending := false }
  | .nmi => { s with nmiArmed := false }
  | .level1 => { s with latch1 := false }
  | .level2 => s
  | .level3 => { s with latch3 := false }
  | .level4 => { s with latch4 := false }

/-- What is held back for one instruction after an interrupt is taken (R422). -/
def inhibitAfter : IntKind → Inhibit
  | .mid => .maskable
  | _ => .allButReset

/-- Taking an interrupt: the switch, its request used up, the inhibit set, a prefetched opcode discarded
(R414, R420, R422, R490). -/
def State.takeInterrupt (s : State) (k : IntKind) : State :=
  { (s.interruptSwitch k).consume k with inhibit := inhibitAfter k, prefetch := none }

/-- The interrupt the boundary takes, steps 2 to 6 of R414. -/
def State.grant (s : State) : Option IntKind :=
  if s.midPending then some .mid
  else match s.inhibit with
    | .allButReset => none
    | .maskable => if s.reqNmi then some .nmi else none
    | .none => if s.reqNmi then some .nmi else s.acceptedLevel

/-! ### Reset (R480) -/

/-- An instruction was under way when RESET fell: cut short, or an X whose target had not run (R481, R254). -/
def State.midInstruction (s : State) : Bool := s.cutShort || s.xPending.isSome

/-- WP, PC and ST at the moment an instruction is abandoned: three free words (R481, D26; log 15). -/
def State.loseContext (s : State) : State :=
  let c := Config.freeContext s.bus.draws
  { s with wp := c.1, pc := c.2.1, st := c.2.2 }

/-- `ResetSequence()` from the context switch on (R480): memory but for the three stored words, the
decrementer's registers and FLAG5 to FLAGF stay (D28). Where it interrupts an instruction, the stored words
are free (R481). -/
def State.resetSequence (s : State) : State :=
  let t := (if s.midInstruction then s.loseContext else s).contextSwitch 0x0000
  { t with
    st := 0
    bus := { t.bus with flags := flagPut (flagPut t.bus.flags 0 false) 1 false, midFlag := false }
    latch1 := false, latch3 := false, latch4 := false
    midPending := false, idle := false, inhibit := .allButReset
    prefetch := none, xPending := none, resetPending := false, cutShort := false }

end Sys2Proof.Machine
end

