-- ==== Sys2Proof/Machine/Cpu.lean ====
section
/-! DEFINITION. `CpuStep()` (60_exceptions.md R414), the opcode fetch with its prefetch
(70_reset_and_hazards.md R490), and how one step of the machine is chosen (R506). -/

namespace Sys2Proof.Machine

/-! ### The opcode fetch (30_encoding.md R101, 70_reset_and_hazards.md R490) -/

/-- The byte a location holds, without a bus cycle: what a store can have changed. -/
def storedByte (p : Platform) (b : Bus) (a : Word) : Byte :=
  match placeOf p a with
  | .decrementer => if a.getLsbD 0 then b.decCount.extractLsb' 0 8 else b.decCount.extractLsb' 8 8
  | _ => memGet b.mem a.toNat

/-- The word a location holds, without a bus cycle. -/
def storedWord (p : Platform) (b : Bus) (a : Word) : Word :=
  storedByte p b (evenAddr a) ++ storedByte p b (evenAddr a + 1)

/-- The opcode's `Fetch()`, which IAQ shows (20_memory.md R73): where the instruction before overwrote this word,
either the old or the new word (R490; D22, log 20). -/
def State.fetchOpcode (s : State) : Word × State :=
  match s.prefetch with
  | none => s.fetchAs true
  | some old =>
    let f := s.fetchAs true
    (if Config.freeOldOpcode f.2.bus.draws then old else f.1, { f.2.tickDraws with prefetch := none })

/-- B, which discards what was prefetched and stores nothing but an auto-increment. -/
def isBranch : Instr → Bool
  | .b _ => true
  | _ => false

/-- What memory held when the opcode after an instruction could be prefetched: its state before it stored. An X
discards the prefetched word and its target has its own; after a B the opcode is fetched when it is complete
(R490; D22, log 20). -/
def State.prefetchBase (u : State) (i : Instr) : Option Bus :=
  match i with
  | .x sop => let v := u.sourceWord sop; if isBranch (decode v.1) then none else some v.2.bus
  | i => if isBranch i then none else some u.bus

/-- After an instruction run in a state `u`: the old word of the next opcode is kept where the instruction
overwrote it (R490). An X whose target is still to run has no next opcode yet. -/
def State.notePrefetch (i : Instr) (u after : State) : State :=
  match after.xPending with
  | some _ => after
  | none =>
    match u.prefetchBase i with
    | none => { after with prefetch := none }
    | some base =>
      let old := storedWord u.plat base after.pc
      { after with prefetch := if old = storedWord after.plat after.bus after.pc then none else some old }

/-- An instruction executed, and its prefetch noted. -/
def State.run (u : State) (i : Instr) : Host.Outcome State Fault Refusal :=
  match exec i u with
  | .next t => .next (State.notePrefetch i u t)
  | .fault r => .fault r
  | .refused r => .refused r

/-- One instruction: its opcode fetched, decoded and executed (R414, R506). -/
def State.runInstruction (s : State) : Host.Outcome State Fault Refusal := s.fetchOpcode.2.run (decode s.fetchOpcode.1)

/-! ### `CpuStep()` (60_exceptions.md R414) -/

/-- No interrupt at the boundary: the inhibit is used up, and the CPU runs an instruction, or puts out the
Idle code where it is idle (R414, 47_external_mid.md R392). -/
def State.proceed (s : State) : Host.Outcome State Fault Refusal :=
  let t := { s with inhibit := .none }
  if t.idle then .next (t.extInstr 0b010) else t.runInstruction

/-- `CpuStep()`: no step in the Reset or Hold state (R480, R86), then a due reset (R414 step 1), then the
target of an X (R254), then the boundary, then the instruction. -/
def State.cpuStep (s : State) : Host.Outcome State Fault Refusal :=
  if s.resetActive || s.holdState then .next s
  else if s.resetPending then .next s.resetSequence
  else match s.xPending with
    | some t => { s with xPending := none }.run (decode t)
    | none =>
      match s.grant with
      | some k => .next (s.takeInterrupt k)
      | none => s.proceed

/-! ### A reset in the middle of the CPU's step (70_reset_and_hazards.md R481) -/

/-- The bus cycles that lead from one bus to a later one, the first one first. -/
def cyclesBetween (b b' : Bus) : List BusEvent := (b'.events.take (b'.events.length - b.events.length)).reverse

/-- The machine where a step to `t` is abandoned after its first `k` bus cycles: they were performed and no
other effect of the step remains to be seen (R481; D26, log 15). -/
def State.abandon (s t : State) (k : Nat) : State :=
  { s with
    bus := { ((cyclesBetween s.bus t.bus).take k).foldl (busCycle s.plat) s.bus with draws := t.bus.draws }
    cutShort := true }

/-- RESET falls within the CPU's step; in the Reset or Hold state no step is under way (R481). -/
def State.resetInside (s : State) (k : Nat) : State :=
  if s.resetActive || s.holdState then s.resetFalls
  else match s.cpuStep with
    | .next t => (s.abandon t k).resetFalls
    | .fault _ => s.resetFalls
    | .refused _ => s.resetFalls

/-! ### One step (R506) -/

/-- One step of the machine: the head of the agenda, or the CPU where the agenda is empty (R506; log 13). -/
def State.machineStep (s : State) : Host.Outcome State Fault Refusal :=
  match s.agenda with
  | [] => s.cpuStep
  | .cpu :: rest => { s with agenda := rest }.cpuStep
  | .resetWithin k :: rest => .next ({ s with agenda := rest }.resetInside k)
  | e :: rest => .next ({ s with agenda := rest }.envEvent e)

/-! ### Placing an instruction for the next step -/

/-- A word stored in a location whatever answers there, without a bus cycle. -/
def pokeWord (p : Platform) (b : Bus) (a v : Word) : Bus :=
  if placeOf p (evenAddr a) = .decrementer then { b with decCount := v }
  else { b with mem := memSet (memSet b.mem (evenAddr a).toNat (v.extractLsb' 8 8)) (evenAddr a + 1).toNat (v.extractLsb' 0 8) }

/-- An opcode word at PC with two extension words of zeros, and nothing that would keep the next step from
running it: an empty agenda, no reset, hold, idle, pending trap or prefetched opcode, interrupts held back for
this one instruction, and no device or empty bus among the external regions (log 45). -/
def State.placeInstruction (s : State) (v : Word) : State :=
  let p := { s.plat with ext := s.plat.ext.filter fun g => g.kind == .ram || g.kind == .rom }
  { s with
    plat := p
    bus := pokeWord p (pokeWord p (pokeWord p s.bus (s.pc + 4) 0) (s.pc + 2) 0) s.pc v
    agenda := [], resetActive := false, resetPending := false, cutShort := false
    holdState := false, pins := { s.pins with hold := true }
    midPending := false, idle := false, xPending := none, prefetch := none, inhibit := .allButReset }

end Sys2Proof.Machine
end

