-- ==== Sys2Proof/Machine/Step.lean ====
section
/-! DEFINITION. One step of the machine, and the state whose next step runs a given instruction. -/

namespace Sys2Proof.Machine

/-- One step (70_reset_and_hazards.md R506). -/
def step (s : State) : Host.Outcome State Fault Refusal := s.machineStep

/-- The instruction whose bits are `w` stored where `step` fetches next, so that the very next step runs it
(log 45). -/
def State.withFetchWord (s : State) (nbits w : Nat) : State := s.placeInstruction (BitVec.ofNat 16 (w % 2 ^ nbits))

end Sys2Proof.Machine
end

