-- ==== Sys2Proof/Safety.lean ====
section
/-! DEFINITION. What claims speak of: the invariant of a sound machine state, what a store does to every
byte, what an instruction keeps, and the status bits in terms of integers. -/

namespace Sys2Proof.Machine

/-! ### The invariant -/

/-- Where memory can hold a listed byte: on-chip RAM, and external RAM or ROM (20_memory.md R66, R70). -/
def holdsCells (p : Platform) (a : Word) : Bool :=
  match placeOf p a with
  | .onChip => true
  | .decrementer => false
  | .ext .ram => true
  | .ext .rom => true
  | .ext .device => false
  | .ext .absent => false

/-- A word is an X instruction. -/
def isX (t : Word) : Bool := decide ((decode t).mnemonic = "X")

/-- What holds of the machine at every moment: memory in its canonical form and only where bytes are kept;
PC and WP even (10_state.md R21, R22); no storage behind FLAG2 to FLAG4 (R32); the Hold state exactly while
HOLD is low and RESET is not (20_memory.md R86, 70_reset_and_hazards.md R483); a reset is not due while RESET
is active (R480); NMI armed while its pin is high (60_exceptions.md R424); only an X awaits its turn, and never
in the Idle state; the CRU lines in rising order; an
instruction counts as cut short only while its reset is under way (R481). -/
structure State.Inv (s : State) : Prop where
  memory_wf : Memory.wf s.bus.mem = true
  cells_kept : ∀ c ∈ s.bus.mem, holdsCells s.plat (BitVec.ofNat 16 c.1) = true
  pc_even : s.pc.getLsbD 0 = false
  wp_even : s.wp.getLsbD 0 = false
  flags_unstored : s.bus.flags.getLsbD 2 = false ∧ s.bus.flags.getLsbD 3 = false ∧ s.bus.flags.getLsbD 4 = false
  hold_state : s.holdState = (!s.resetActive && !s.pins.hold)
  reset_due : s.resetActive = true → s.resetPending = false
  nmi_armed : s.pins.nmi = true → s.nmiArmed = true
  x_pending : ∀ t, s.xPending = some t → isX t = true
  idle_alone : s.idle = true → s.xPending = none
  cut_in_reset : s.cutShort = true → s.resetActive = true ∨ s.resetPending = true
  lines_rising : (s.cruLines.map Prod.fst).Pairwise (· < ·)

/-! ### Stores, seen byte by byte -/

/-- A store changes the byte at an address: on-chip RAM and external RAM (R64, R65, R70). -/
def isWritable (p : Platform) (a : Word) : Bool :=
  match placeOf p a with
  | .onChip => true
  | .decrementer => false
  | .ext .ram => true
  | .ext .rom => false
  | .ext .device => false
  | .ext .absent => false

/-- The most significant byte of a word, the one at the even address (R83). -/
def highByte (v : Word) : Byte := v.extractLsb' 8 8

/-- The least significant byte of a word. -/
def lowByte (v : Word) : Byte := v.extractLsb' 0 8

/-- An address lies off chip (R70). -/
def offChip (p : Platform) (a : Word) : Bool :=
  match placeOf p a with
  | .onChip => false
  | .decrementer => false
  | .ext _ => true

/-- The write cycles of a word, newest first: one for the word on chip; off chip one for each byte, the most
significant first (R64, R71, R72). -/
def storeCycles (p : Platform) (a v : Word) : List BusEvent :=
  if offChip p (evenAddr a) then [.byteWrite (evenAddr a + 1) (lowByte v), .byteWrite (evenAddr a) (highByte v)]
  else [.wordWrite (evenAddr a) v]

/-- The read cycles of a word, newest first: one for the word on chip; off chip one for each byte, the most
significant first (R62, R71, R72); with IAQ where it is an opcode (R73). -/
def loadCycles (p : Platform) (iaq : Bool) (a : Word) : List BusEvent :=
  if offChip p (evenAddr a) then [.memRead (evenAddr a + 1) iaq, .memRead (evenAddr a) iaq]
  else [.memRead (evenAddr a) iaq]

/-- An input cycle: a memory read or a CRU input, which stores nothing (R78, R85). -/
def isInput : BusEvent → Bool
  | .memRead _ _ => true
  | .cruIn _ => true
  | .byteWrite _ _ => false
  | .wordWrite _ _ => false
  | .cruOut _ _ => false
  | .extInstr _ => false

/-- The cycles noted since: the given ones, newest first, after input cycles alone. -/
def CyclesNoted (b b' : Bus) (cycles : List BusEvent) : Prop :=
  ∃ inputs, (∀ c ∈ inputs, isInput c = true) ∧ b'.events = cycles ++ (inputs ++ b.events)

/-- What a word write does, whatever is at the address and whatever was read before it (20_memory.md R61, R64;
60_exceptions.md R446). -/
def WordStored (p : Platform) (b b' : Bus) (a v : Word) : Prop :=
  b'.flags = b.flags ∧ b'.midFlag = b.midFlag ∧ CyclesNoted b b' (storeCycles p a v) ∧
  if placeOf p (evenAddr a) = .decrementer then
    b'.decStart = v ∧ b'.decCount = v ∧
    ∀ x, evenAddr x ≠ evenAddr a → storedByte p b' x = storedByte p b x
  else
    b'.decStart = b.decStart ∧ b'.decCount = b.decCount ∧
    ∀ x, storedByte p b' x =
      if x = evenAddr a ∧ isWritable p x = true then highByte v
      else if x = evenAddr a + 1 ∧ isWritable p x = true then lowByte v
      else storedByte p b x

/-- What a byte write does (20_memory.md R65; 60_exceptions.md R451): to the decrementer, the addressed half
is the byte, nothing is said of the other, and both registers hold the same word, which its one cycle loads. -/
def ByteStored (p : Platform) (b b' : Bus) (a : Word) (v : Byte) : Prop :=
  b'.flags = b.flags ∧ b'.midFlag = b.midFlag ∧
  if placeOf p a = .decrementer then
    b'.decStart = b'.decCount ∧ storedByte p b' a = v ∧
    CyclesNoted b b' [.wordWrite a b'.decCount] ∧
    ∀ x, evenAddr x ≠ evenAddr a → storedByte p b' x = storedByte p b x
  else
    b'.decStart = b.decStart ∧ b'.decCount = b.decCount ∧
    CyclesNoted b b' [.byteWrite a v] ∧
    ∀ x, storedByte p b' x = if x = a ∧ isWritable p x = true then v else storedByte p b x

/-- The three stores of a context switch in the workspace at `w`: WR13, WR14, WR15 (60_exceptions.md R420). -/
def ContextStored (p : Platform) (b b' : Bus) (w wp pc st : Word) : Prop :=
  ∃ b1 b2, WordStored p b b1 (wrAddr w 13) wp ∧ WordStored p b1 b2 (wrAddr w 14) pc ∧
    WordStored p b2 b' (wrAddr w 15) st

/-! ### What an instruction keeps -/

/-- `x` is a byte of the word at `a`. -/
def InWord (a x : Word) : Prop := evenAddr x = evenAddr a

/-- `x` can be changed by a byte write at `a`: that byte, or either half of the decrementer. -/
def InByte (p : Platform) (a x : Word) : Prop := x = a ∨ (placeOf p a = .decrementer ∧ evenAddr x = evenAddr a)

/-- `x` is a byte of a register that the operand auto-increments (40_addressing_and_status.md R143). -/
def Bumps (op : Operand) (wp x : Word) : Prop :=
  match op with
  | .autoInc r => InWord (wrAddr wp r) x
  | _ => False

/-- A bus cycle is an input, or writes memory and only at addresses of a set. -/
def CycleIn (touched : Word → Prop) : BusEvent → Prop
  | .memRead _ _ => True
  | .cruIn _ => True
  | .byteWrite a _ => touched a
  | .wordWrite a _ => touched (evenAddr a) ∧ touched (evenAddr a + 1)
  | .cruOut _ _ => False
  | .extInstr _ => False

/-- The bus keeps every byte outside a set of addresses, and the decrementer unless the set meets it; every new
bus cycle is an input or a memory write at addresses of the set. -/
def BusKeptOutside (p : Platform) (b b' : Bus) (touched : Word → Prop) : Prop :=
  (∀ x, ¬ touched x → storedByte p b' x = storedByte p b x) ∧
  ((∀ x, placeOf p x = .decrementer → ¬ touched x) → b'.decStart = b.decStart ∧ b'.decCount = b.decCount) ∧
  ∃ new, b'.events = new ++ b.events ∧ ∀ c ∈ new, CycleIn touched c

/-- The frame of an instruction: only PC, ST and the bus may differ; the flag register and the MID flag stay,
and the bus stays outside the addresses the instruction stores to. -/
def KeptOutside (s t : State) (touched : Word → Prop) : Prop :=
  t = { s with pc := t.pc, st := t.st, bus := t.bus } ∧
  t.bus.flags = s.bus.flags ∧ t.bus.midFlag = s.bus.midFlag ∧ BusKeptOutside s.plat s.bus t.bus touched

/-- No bit of the status differs outside a mask of written bits (R166). -/
def StatusKept (mask st st' : Word) : Prop := st' &&& ~~~mask = st &&& ~~~mask

/-! ### Status bits in terms of integers -/

/-- ST0 to ST2 of a result compared with 0 (R160, R161). -/
def ComparedToZero {n : Nat} (r : BitVec n) (st : Word) : Prop :=
  st.getLsbD stL = decide (r.toNat ≠ 0) ∧ st.getLsbD stA = decide (0 < r.toInt) ∧
  st.getLsbD stEQ = decide (r.toNat = 0)

/-- ST0 to ST2 of source against destination, unsigned and signed (R162). -/
def ComparedOperands {n : Nat} (s d : BitVec n) (st : Word) : Prop :=
  st.getLsbD stL = decide (d.toNat < s.toNat) ∧ st.getLsbD stA = decide (d.toInt < s.toInt) ∧
  st.getLsbD stEQ = decide (s = d)

/-- An integer outside the signed range of n bits. -/
def outOfRange (n : Nat) (x : Int) : Bool := decide (x < -2 ^ (n - 1) ∨ 2 ^ (n - 1) ≤ x)

/-- ST3 and ST4 of an addition: carry out of n bits, signed overflow (R164). -/
def SumCarry {n : Nat} (a b : BitVec n) (st : Word) : Prop :=
  st.getLsbD stC = decide (2 ^ n ≤ a.toNat + b.toNat) ∧ st.getLsbD stOV = outOfRange n (a.toInt + b.toInt)

/-- ST3 and ST4 of a subtraction `d - s`: no borrow, signed overflow (R165; log 23). -/
def DifferenceCarry {n : Nat} (d s : BitVec n) (st : Word) : Prop :=
  st.getLsbD stC = decide (s.toNat ≤ d.toNat) ∧ st.getLsbD stOV = outOfRange n (d.toInt - s.toInt)

/-- A byte has an odd number of one bits (R163). -/
def oddOnes (b : Byte) : Bool := decide (((Finset.range 8).filter fun i => b.getLsbD i = true).card % 2 = 1)

/-- The status bits an instruction may write, as a mask (40_addressing_and_status.md R168). X itself writes
none; what its target writes is the target's. -/
def affectedBits : Instr → Word
  | .a _ _ | .s _ _ => 0xF800
  | .ab _ _ | .sb _ _ => 0xFC00
  | .c _ _ | .soc _ _ | .szc _ _ | .mov _ _ => 0xE000
  | .cb _ _ | .socb _ _ | .szcb _ _ | .movb _ _ => 0xE400
  | .coc _ _ | .czc _ _ => 0x2000
  | .xor _ _ => 0xE000
  | .mpy _ _ => 0
  | .div _ _ => 0x0800
  | .mpys _ => 0xE000
  | .divs _ => 0xE800
  | .xop _ _ => 0x03F0
  | .b _ | .bl _ | .blwp _ | .clr _ | .seto _ | .swpb _ | .x _ => 0
  | .inv _ => 0xE000
  | .neg _ | .abs _ | .inc _ | .inct _ | .dec _ | .dect _ => 0xF800
  | .ldcr _ n | .stcr _ n => if cruIsByte n then 0xE400 else 0xE000
  | .sbo _ | .sbz _ => 0
  | .tb _ => 0x2000
  | .jmp _ | .jlt _ | .jle _ | .jeq _ | .jhe _ | .jgt _ | .jne _ | .jnc _ | .joc _ | .jno _
  | .jl _ | .jh _ | .jop _ => 0
  | .sla _ _ => 0xF800
  | .sra _ _ | .srl _ _ | .src _ _ => 0xF000
  | .li _ | .andi _ | .ori _ | .ci _ => 0xE000
  | .ai _ => 0xF800
  | .lwpi => 0
  | .limi => 0x000F
  | .stst _ | .stwp _ | .lwp _ => 0
  | .lst _ | .rtwp => 0xFFFF
  | .idle | .ckon | .ckof | .lrex => 0
  | .rset => 0x000F
  | .mid _ => 0

/-! ### What the instruction formats leave -/

/-- A DUAL instruction on words stored its result at DA (R180): the store, the status bits it may write, the
frame. -/
def DualWordWrote (s t : State) (sop dop : Operand) (r mask : Word) : Prop :=
  let p := s.dualWord sop dop
  WordStored s.plat p.s.bus t.bus p.da r ∧ StatusKept mask s.st t.st ∧
  KeptOutside s t fun x => Bumps sop s.wp x ∨ Bumps dop s.wp x ∨ InWord p.da x

/-- A DUAL instruction on bytes stored its result at DA. -/
def DualByteWrote (s t : State) (sop dop : Operand) (r : Byte) (mask : Word) : Prop :=
  let p := s.dualByte sop dop
  ByteStored s.plat p.s.bus t.bus p.da r ∧ StatusKept mask s.st t.st ∧
  KeptOutside s t fun x => Bumps sop s.wp x ∨ Bumps dop s.wp x ∨ InByte s.plat p.da x

/-- A SINGLE instruction stored its result at SA (R240). -/
def SingleWrote (s t : State) (sop : Operand) (r mask : Word) : Prop :=
  let q := s.ea sop .word
  WordStored s.plat q.2.bus t.bus q.1 r ∧ StatusKept mask s.st t.st ∧
  KeptOutside s t fun x => Bumps sop s.wp x ∨ InWord q.1 x

/-- An instruction without a general operand stored its result in register `w`. -/
def RegisterWrote (s t : State) (w : Reg) (r mask : Word) : Prop :=
  WordStored s.plat s.bus t.bus (wrAddr s.wp w) r ∧ StatusKept mask s.st t.st ∧
  KeptOutside s t (InWord (wrAddr s.wp w))

/-- A bus that differs from another in nothing but input cycles noted and draws taken. -/
def OnlyDrew (b b' : Bus) : Prop :=
  b' = { b with draws := b'.draws, events := b'.events } ∧ CyclesNoted b b' []

/-- The quotient truncated toward zero and the remainder with the sign of the dividend (R222). -/
def IsSignedDivision (n d quot rem : Int) : Prop :=
  n = quot * d + rem ∧ |rem| < |d| ∧ (rem = 0 ∨ rem.sign = n.sign)

/-- CRU output cycles for `n` bits from a bit address, the lowest first (R79, R281): an event for each; FLAGk
and the MID flag take the bit sent to them, FLAG2 to FLAG4 none; memory and the decrementer stay. -/
def CruFieldWritten (b b' : Bus) (base n : Nat) (bit : Nat → Bool) : Prop :=
  b'.mem = b.mem ∧ b'.decStart = b.decStart ∧ b'.decCount = b.decCount ∧
  b'.events = ((List.range n).map fun i => BusEvent.cruOut (BitVec.ofNat 15 (base + i)) (bit i)).reverse ++ b.events ∧
  (∀ k, k < 16 →
    (∀ i, i < n → (base + i) % 32768 = 0x0F70 + k → ¬(k = 2 ∨ k = 3 ∨ k = 4) → b'.flags.getLsbD k = bit i) ∧
    ((∀ i, i < n → (base + i) % 32768 ≠ 0x0F70 + k) ∨ k = 2 ∨ k = 3 ∨ k = 4 →
      b'.flags.getLsbD k = b.flags.getLsbD k)) ∧
  (∀ i, i < n → (base + i) % 32768 = 0x0FED → b'.midFlag = bit i) ∧
  ((∀ i, i < n → (base + i) % 32768 ≠ 0x0FED) → b'.midFlag = b.midFlag)

/-- The byte that a bus cycle leaves at an address, if it stores one there (R64, R65, R446). -/
def cycleByte (p : Platform) (x : Word) : BusEvent → Option Byte
  | .byteWrite a v => if x = a ∧ isWritable p x = true then some v else none
  | .wordWrite a v =>
    if evenAddr x = evenAddr a ∧ (isWritable p x = true ∨ placeOf p x = .decrementer) then
      some (if x.getLsbD 0 then lowByte v else highByte v)
    else none
  | .memRead _ _ => none
  | .cruIn _ => none
  | .cruOut _ _ => none
  | .extInstr _ => none

/-- The value that a bus cycle gives a flag, if it reaches it (R79, R456). -/
def cycleFlag (k : Nat) : BusEvent → Option Bool
  | .cruOut a v => if a.toNat = 0x0F70 + k ∧ ¬(k = 2 ∨ k = 3 ∨ k = 4) then some v else none
  | .memRead _ _ => none
  | .cruIn _ => none
  | .byteWrite _ _ => none
  | .wordWrite _ _ => none
  | .extInstr _ => none

/-- The value that a bus cycle gives the MID flag, if it reaches it (R79, R457). -/
def cycleMid : BusEvent → Option Bool
  | .cruOut a v => if a.toNat = 0x0FED then some v else none
  | .memRead _ _ => none
  | .cruIn _ => none
  | .byteWrite _ _ => none
  | .wordWrite _ _ => none
  | .extInstr _ => none

/-- The word that a bus cycle loads into both registers of the decrementer, if it reaches them (R446). -/
def cycleDec (p : Platform) : BusEvent → Option Word
  | .wordWrite a v => if placeOf p a = .decrementer then some v else none
  | .memRead _ _ => none
  | .cruIn _ => none
  | .byteWrite _ _ => none
  | .cruOut _ _ => none
  | .extInstr _ => none

/-- The count of a shift: C, or the four low bits of WR0, 0 there meaning 16 (R330). -/
def ShiftAmount (s : State) (c : BitVec 4) : Nat :=
  let low := (busReadWord s.plat s.bus (wrAddr s.wp 0)).toNat % 16
  if c ≠ 0 then c.toNat else if low = 0 then 16 else low

/-- The register a shift reads, after the count (R330). -/
def ShiftedValue (s : State) (w : Reg) (c : BitVec 4) : Word :=
  busReadWord s.plat (s.shiftCount c).2.bus (wrAddr s.wp w)

/-! ### When the CPU acts, and instructions by what they transfer -/

/-- The CPU's turn: no other agent is due, and the machine is in neither the Reset nor the Hold state. -/
def CpuTurn (s : State) : Prop := s.agenda = [] ∧ s.resetActive = false ∧ s.holdState = false

/-- A boundary between instructions: the CPU's turn with no reset due and no X under way. -/
def AtBoundary (s : State) : Prop := CpuTurn s ∧ s.resetPending = false ∧ s.xPending = none

/-- The instructions that load PC other than past their own words: jumps, branches, context switches, the
return, and X for its target. -/
def loadsPc : Instr → Bool
  | .b _ | .bl _ | .blwp _ | .xop _ _ | .rtwp | .x _ => true
  | .jmp _ | .jlt _ | .jle _ | .jeq _ | .jhe _ | .jgt _ | .jne _ | .jnc _ | .joc _ | .jno _
  | .jl _ | .jh _ | .jop _ => true
  | .szc _ _ | .szcb _ _ | .s _ _ | .sb _ _ | .c _ _ | .cb _ _ | .a _ _ | .ab _ _ | .mov _ _
  | .movb _ _ | .soc _ _ | .socb _ _ => false
  | .coc _ _ | .czc _ _ | .xor _ _ | .mpy _ _ | .div _ _ | .mpys _ | .divs _ => false
  | .clr _ | .seto _ | .inv _ | .neg _ | .abs _ | .swpb _ | .inc _ | .inct _ | .dec _ | .dect _ => false
  | .ldcr _ _ | .stcr _ _ | .sbo _ | .sbz _ | .tb _ => false
  | .sla _ _ | .sra _ _ | .srl _ _ | .src _ _ => false
  | .li _ | .ai _ | .andi _ | .ori _ | .ci _ | .lwpi | .limi => false
  | .stst _ | .lst _ | .stwp _ | .lwp _ | .idle | .rset | .ckon | .ckof | .lrex | .mid _ => false

/-- Both bytes of a workspace register can be written and read back. -/
def RegWritable (p : Platform) (w : Word) (n : Reg) : Prop :=
  isWritable p (evenAddr (wrAddr w n)) = true ∧ isWritable p (evenAddr (wrAddr w n) + 1) = true

/-- The platform answers a read of the byte at an address with a definite value (R70). -/
def answers (p : Platform) (a : Word) : Bool :=
  decide (placeOf p a ≠ .ext .device ∧ placeOf p a ≠ .ext .absent)

end Sys2Proof.Machine
end

