-- ==== Sys2Proof/Certificates/Slice0/Obligations.lean ====
section
/-! DEFINITION. The statements about the model, for the provers. Each says which rules of `spec/` it
formalises; the predicates it speaks in are those of Sys2Proof/Safety.lean. -/

section
open Sys2Proof Sys2Proof.Machine

/-! ### Encoding -/

/-- Decoding the bytes of an encoded well-formed instruction gives it back, nothing left over (R100, R102). -/
def Obligations.DecodeOfEncodeIsTheInstruction : Prop :=
  ∀ i : Instr, i.wellFormed = true →
    decodeBytes [highByte (encode i), lowByte (encode i)] = .ok (i, [])

/-- R121, R122: every word matches exactly one row of the opcode table or lies in exactly one MID range, and not
both (the spec's own inference, its "Partition check"); and the decoder agrees: the row's instruction, or the MID
term; encoding what was decoded gives the word. -/
def Obligations.OpcodeWordsArePartitioned : Prop :=
  ∀ w : Word,
    Xor ((opcodeTable.filter fun r => w &&& r.mask = r.value).length = 1)
      ((midRanges.filter fun r => r.1 ≤ w.toNat ∧ w.toNat ≤ r.2).length = 1) ∧
    (∀ r ∈ opcodeTable, w &&& r.mask = r.value → (decode w).mnemonic = r.mnemonic) ∧
    (isMidOpcode w = true → decode w = .mid w) ∧
    encode (decode w) = w ∧ (decode w).wellFormed = true

/-- A few words written out from the encoding tables (R103 to R116) decode to the instruction they stand for. -/
def Obligations.SampleWordsDecode : Prop :=
  decode 0b1010000010000001 = .a (.reg 1) (.reg 2) ∧
  decode 0b1101000011100000 = .movb .sym (.reg 3) ∧
  decode 0b0011110010000001 = .div (.reg 1) 2 ∧
  decode 0b0000000111000010 = .mpys (.reg 2) ∧
  decode 0b0010110010100000 = .xop .sym 2 ∧
  decode 0b0000010001011011 = .b (.ind 11) ∧
  decode 0b0011001000000001 = .ldcr (.reg 1) 8 ∧
  decode 0b0001111011111111 = .sbz 0xFF ∧
  decode 0b0001011011111101 = .jne 0xFD ∧
  decode 0b0000101001000001 = .sla 1 4 ∧
  decode 0b0000001000000001 = .li 1 ∧
  decode 0b0000001100000000 = .limi ∧
  decode 0b0000000010000100 = .lst 4 ∧
  decode 0b0000001110000000 = .rtwp ∧
  decode 0b0000001101000000 = .idle ∧
  decode 0b0000110000000000 = .mid 0x0C00

/-! ### Memory -/

/-- A word write then reads (R61, R62, R64, R83): where both bytes can be written, or at the decrementer, the
word reads back at either address of it; its bytes read most significant first; every other byte that the
platform answers reads as before. On the pins (R71, R72) a word is two cycles off chip, the most significant byte
first, and one cycle at its even address on chip, where a write shows none of the data. That it is the even address
is the model's reading (log 12). -/
def Obligations.WordWriteThenRead : Prop :=
  ∀ (s : State) (a v : Word),
    let t := s.writeWord a v
    let e := evenAddr a
    let held := (isWritable s.plat e = true ∧ isWritable s.plat (e + 1) = true) ∨ placeOf s.plat e = .decrementer
    (held → ∀ x, evenAddr x = e → (t.readWord x).1 = v) ∧
    (held → (t.readByte e).1 = highByte v ∧ (t.readByte (e + 1)).1 = lowByte v) ∧
    (∀ x, evenAddr x ≠ e → answers s.plat x = true → (t.readByte x).1 = (s.readByte x).1) ∧
    (s.readWord a).2.observed =
      (if offChip s.plat e then [.memRead (e + 1) false, .memRead e false] else [.memRead e false]) ++ s.observed ∧
    t.observed =
      (if offChip s.plat e then [.memWrite (e + 1) (some (lowByte v)), .memWrite e (some (highByte v))]
      else [.memWrite e none]) ++ s.observed

/-- A byte write (R65, R70): it changes the addressed byte of RAM and not the other byte of the word; in ROM, at a
device and where nothing is, it is one write cycle and no byte changes. On the pins (R71, R72) a byte read and a
byte write are one cycle each at the byte's address, also at either half of the decrementer, and no cycle ever shows
the data of a write on chip. -/
def Obligations.ByteWriteThenRead : Prop :=
  ∀ (s : State) (a : Word) (v : Byte),
    let t := s.writeByte a v
    (isWritable s.plat a = true → (t.readByte a).1 = v) ∧
    (placeOf s.plat a ≠ .decrementer →
      ∀ x, x ≠ a → answers s.plat x = true → (t.readByte x).1 = (s.readByte x).1) ∧
    (placeOf s.plat a = .ext .rom ∨ placeOf s.plat a = .ext .absent ∨ placeOf s.plat a = .ext .device →
      t = { s with bus := { s.bus with events := .byteWrite a v :: s.bus.events } }) ∧
    (s.readByte a).2.observed = .memRead a false :: s.observed ∧
    t.observed = .memWrite a (if offChip s.plat a then some v else none) :: s.observed ∧
    ∀ x b, .memWrite x (some b) ∈ s.observed → offChip s.plat x = true

/-- The decrementer in memory (R446, R450, R451): a word write loads both registers, whatever the flags; a
read gives the count and changes nothing; a byte read gives its half; a byte write puts the byte in its half
and the same word in both registers (decision D18, log 19). -/
def Obligations.DecrementerInMemory : Prop :=
  ∀ (s : State) (a v : Word) (c : Byte), placeOf s.plat a = .decrementer →
    s.writeWord a v = { s with bus :=
      { s.bus with decStart := v, decCount := v, events := .wordWrite (evenAddr a) v :: s.bus.events } } ∧
    (s.readWord a).1 = s.bus.decCount ∧ OnlyDrew s.bus (s.readWord a).2.bus ∧
    (s.readByte (evenAddr a)).1 = highByte s.bus.decCount ∧
    (s.readByte (evenAddr a + 1)).1 = lowByte s.bus.decCount ∧
    (let t := s.writeByte a c
     (t.readByte a).1 = c ∧ t.bus.decStart = t.bus.decCount ∧ t.bus.mem = s.bus.mem)

/-! ### Addressing -/

/-- The five addressing modes (R141 to R145): the effective address, PC, and the register that an
auto-increment writes, by 1 or 2. -/
def Obligations.EffectiveAddresses : Prop :=
  ∀ (s : State) (r : Reg) (size : Size),
    let reg := busReadWord s.plat s.bus (wrAddr s.wp r)
    s.ea (.reg r) size = (BitVec.ofNat 16 (s.wp.toNat + 2 * r.toNat), s) ∧
    (∃ t, s.ea (.ind r) size = (reg, t) ∧ t = { s with bus := t.bus } ∧ OnlyDrew s.bus t.bus) ∧
    (∃ t, s.ea .sym size = (busReadWord s.plat s.bus s.pc, t) ∧ t = { s with pc := s.pc + 2, bus := t.bus } ∧
      OnlyDrew s.bus t.bus) ∧
    (∃ t, s.ea (.idx r) size =
        (BitVec.ofNat 16 ((busReadWord s.plat s.bus s.pc).toNat +
          (busReadWord s.plat s.fetch.2.bus (wrAddr s.wp r)).toNat), t) ∧
      t = { s with pc := s.pc + 2, bus := t.bus } ∧ OnlyDrew s.bus t.bus) ∧
    (∃ t, s.ea (.autoInc r) size = (reg, t) ∧ t = { s with bus := t.bus } ∧
      WordStored s.plat s.bus t.bus (wrAddr s.wp r)
        (BitVec.ofNat 16 (reg.toNat + if size = .byte then 1 else 2)))

/-! ### Two general operands -/

/-- A and S on words (R181, R185): sum, and destination minus source, with ST0 to ST4. The carry of S is the
spec's own decision D4 (log 23). -/
def Obligations.AddAndSubtractWords : Prop :=
  ∀ (sop dop : Operand) (s : State),
    let p := s.dualWord sop dop
    let old := busReadWord s.plat p.s.bus p.da
    (∃ t, exec (.a sop dop) s = .next t ∧
      DualWordWrote s t sop dop (BitVec.ofNat 16 (p.src.toNat + old.toNat)) 0xF800 ∧
      ComparedToZero (BitVec.ofNat 16 (p.src.toNat + old.toNat)) t.st ∧ SumCarry p.src old t.st) ∧
    (∃ t, exec (.s sop dop) s = .next t ∧
      DualWordWrote s t sop dop (BitVec.ofInt 16 (old.toInt - p.src.toInt)) 0xF800 ∧
      ComparedToZero (BitVec.ofInt 16 (old.toInt - p.src.toInt)) t.st ∧ DifferenceCarry old p.src t.st)

/-- AB and SB on bytes (R182, R186): as words at 8 bits, with the parity of the result (the carry of SB: D4,
log 23). -/
def Obligations.AddAndSubtractBytes : Prop :=
  ∀ (sop dop : Operand) (s : State),
    let p := s.dualByte sop dop
    let old := busReadByte s.plat p.s.bus p.da
    (∃ t, exec (.ab sop dop) s = .next t ∧
      DualByteWrote s t sop dop (BitVec.ofNat 8 (p.src.toNat + old.toNat)) 0xFC00 ∧
      ComparedToZero (BitVec.ofNat 8 (p.src.toNat + old.toNat)) t.st ∧ SumCarry p.src old t.st ∧
      t.st.getLsbD stOP = oddOnes (BitVec.ofNat 8 (p.src.toNat + old.toNat))) ∧
    (∃ t, exec (.sb sop dop) s = .next t ∧
      DualByteWrote s t sop dop (BitVec.ofInt 8 (old.toInt - p.src.toInt)) 0xFC00 ∧
      ComparedToZero (BitVec.ofInt 8 (old.toInt - p.src.toInt)) t.st ∧ DifferenceCarry old p.src t.st ∧
      t.st.getLsbD stOP = oddOnes (BitVec.ofInt 8 (old.toInt - p.src.toInt)))

/-- C and CB (R183, R184): source compared with destination, nothing stored; CB has the source's parity. -/
def Obligations.CompareWordsAndBytes : Prop :=
  ∀ (sop dop : Operand) (s : State),
    (let p := s.dualWord sop dop
     ∃ t, exec (.c sop dop) s = .next t ∧ ComparedOperands p.src (busReadWord s.plat p.s.bus p.da) t.st ∧
       StatusKept 0xE000 s.st t.st ∧ OnlyDrew p.s.bus t.bus ∧
       KeptOutside s t fun x => Bumps sop s.wp x ∨ Bumps dop s.wp x) ∧
    (let p := s.dualByte sop dop
     ∃ t, exec (.cb sop dop) s = .next t ∧ ComparedOperands p.src (busReadByte s.plat p.s.bus p.da) t.st ∧
       t.st.getLsbD stOP = oddOnes p.src ∧ StatusKept 0xE400 s.st t.st ∧ OnlyDrew p.s.bus t.bus ∧
       KeptOutside s t fun x => Bumps sop s.wp x ∨ Bumps dop s.wp x)

/-- SOC and SZC on words (R187, R189): ones of the source set, or cleared, in the destination. -/
def Obligations.SetOnesAndZeroesWords : Prop :=
  ∀ (sop dop : Operand) (s : State),
    let p := s.dualWord sop dop
    let old := busReadWord s.plat p.s.bus p.da
    (∃ t r, exec (.soc sop dop) s = .next t ∧ DualWordWrote s t sop dop r 0xE000 ∧
      (∀ i, i < 16 → r.getLsbD i = if p.src.getLsbD i then true else old.getLsbD i) ∧ ComparedToZero r t.st) ∧
    (∃ t r, exec (.szc sop dop) s = .next t ∧ DualWordWrote s t sop dop r 0xE000 ∧
      (∀ i, i < 16 → r.getLsbD i = if p.src.getLsbD i then false else old.getLsbD i) ∧ ComparedToZero r t.st)

/-- SOCB and SZCB on bytes (R188, R190), with the parity of the result. -/
def Obligations.SetOnesAndZeroesBytes : Prop :=
  ∀ (sop dop : Operand) (s : State),
    let p := s.dualByte sop dop
    let old := busReadByte s.plat p.s.bus p.da
    (∃ t r, exec (.socb sop dop) s = .next t ∧ DualByteWrote s t sop dop r 0xE400 ∧
      (∀ i, i < 8 → r.getLsbD i = if p.src.getLsbD i then true else old.getLsbD i) ∧ ComparedToZero r t.st ∧
      t.st.getLsbD stOP = oddOnes r) ∧
    (∃ t r, exec (.szcb sop dop) s = .next t ∧ DualByteWrote s t sop dop r 0xE400 ∧
      (∀ i, i < 8 → r.getLsbD i = if p.src.getLsbD i then false else old.getLsbD i) ∧ ComparedToZero r t.st ∧
      t.st.getLsbD stOP = oddOnes r)

/-- MOV and MOVB (R191, R192): the source at the destination and compared with 0; MOVB has its parity. -/
def Obligations.MoveWordsAndBytes : Prop :=
  ∀ (sop dop : Operand) (s : State),
    (∃ t, exec (.mov sop dop) s = .next t ∧ DualWordWrote s t sop dop (s.dualWord sop dop).src 0xE000 ∧
      ComparedToZero (s.dualWord sop dop).src t.st) ∧
    (∃ t, exec (.movb sop dop) s = .next t ∧ DualByteWrote s t sop dop (s.dualByte sop dop).src 0xE400 ∧
      ComparedToZero (s.dualByte sop dop).src t.st ∧
      t.st.getLsbD stOP = oddOnes (s.dualByte sop dop).src)

/-! ### A general source and a register -/

/-- COC and CZC (R196, R197): ST2 says whether the register has 1's, or 0's, wherever the source has 1's. -/
def Obligations.CompareOnesAndZeroesCorresponding : Prop :=
  ∀ (sop : Operand) (d : Reg) (s : State),
    let q := s.sourceWord sop
    let r := busReadWord s.plat q.2.bus (wrAddr s.wp d)
    (∃ t, exec (.coc sop d) s = .next t ∧
      (t.st.getLsbD stEQ = true ↔ ∀ i, i < 16 → q.1.getLsbD i = true → r.getLsbD i = true) ∧
      StatusKept 0x2000 s.st t.st ∧ OnlyDrew q.2.bus t.bus ∧ KeptOutside s t (Bumps sop s.wp)) ∧
    (∃ t, exec (.czc sop d) s = .next t ∧
      (t.st.getLsbD stEQ = true ↔ ∀ i, i < 16 → q.1.getLsbD i = true → r.getLsbD i = false) ∧
      StatusKept 0x2000 s.st t.st ∧ OnlyDrew q.2.bus t.bus ∧ KeptOutside s t (Bumps sop s.wp))

/-- XOR (R198): the exclusive or in the register, compared with 0. -/
def Obligations.ExclusiveOr : Prop :=
  ∀ (sop : Operand) (d : Reg) (s : State),
    let q := s.sourceWord sop
    let old := busReadWord s.plat q.2.bus (wrAddr s.wp d)
    ∃ t r, exec (.xor sop d) s = .next t ∧ WordStored s.plat q.2.bus t.bus (wrAddr s.wp d) r ∧
      (∀ i, i < 16 → r.getLsbD i = (old.getLsbD i != q.1.getLsbD i)) ∧ ComparedToZero r t.st ∧
      StatusKept 0xE000 s.st t.st ∧ KeptOutside s t fun x => Bumps sop s.wp x ∨ InWord (wrAddr s.wp d) x

/-- MPY (R199): the 32-bit unsigned product, high half in register D, low half in the next word, which for
D = 15 is the word after WR15; no status bit. -/
def Obligations.MultiplyUnsigned : Prop :=
  ∀ (sop : Operand) (d : Reg) (s : State),
    let q := s.sourceWord sop
    let product := (busReadWord s.plat q.2.bus (wrAddr s.wp d)).toNat * q.1.toNat
    ∃ t m, exec (.mpy sop d) s = .next t ∧
      WordStored s.plat q.2.bus m (wrAddr s.wp d) (BitVec.ofNat 16 (product / 65536)) ∧
      WordStored s.plat m t.bus (wrAddr s.wp d + 2) (BitVec.ofNat 16 (product % 65536)) ∧ t.st = s.st ∧
      KeptOutside s t fun x => Bumps sop s.wp x ∨ InWord (wrAddr s.wp d) x ∨ InWord (wrAddr s.wp d + 2) x

/-- DIV (R200): where the divisor is not above the high word, ST4 is set and nothing stored; else quotient and
remainder replace the dividend and ST4 is cleared. No other status bit changes (D8). -/
def Obligations.DivideUnsigned : Prop :=
  ∀ (sop : Operand) (d : Reg) (s : State),
    let q := s.sourceWord sop
    let hi := busReadWord s.plat q.2.bus (wrAddr s.wp d)
    let lo := busReadWord s.plat q.2.tickDraws.bus (wrAddr s.wp d + 2)
    (q.1.toNat ≤ hi.toNat →
      ∃ t, exec (.div sop d) s = .next t ∧ OnlyDrew q.2.bus t.bus ∧ t.st.getLsbD stOV = true ∧
        StatusKept 0x0800 s.st t.st ∧ KeptOutside s t (Bumps sop s.wp)) ∧
    (hi.toNat < q.1.toNat →
      ∃ t m quot rem, exec (.div sop d) s = .next t ∧
        hi.toNat * 65536 + lo.toNat = quot * q.1.toNat + rem ∧ rem < q.1.toNat ∧ quot < 65536 ∧
        WordStored s.plat q.2.bus m (wrAddr s.wp d) (BitVec.ofNat 16 quot) ∧
        WordStored s.plat m t.bus (wrAddr s.wp d + 2) (BitVec.ofNat 16 rem) ∧ t.st.getLsbD stOV = false ∧
        StatusKept 0x0800 s.st t.st ∧
        KeptOutside s t fun x => Bumps sop s.wp x ∨ InWord (wrAddr s.wp d) x ∨ InWord (wrAddr s.wp d + 2) x)

/-! ### Signed multiply and divide, extended operation -/

/-- MPYS (R221): the signed product of WR0 and the source in WR0 and WR1, the whole product compared with 0
(D6, log 25). -/
def Obligations.MultiplySigned : Prop :=
  ∀ (sop : Operand) (s : State),
    let q := s.sourceWord sop
    let product : Int := (busReadWord s.plat q.2.bus (wrAddr s.wp 0)).toInt * q.1.toInt
    ∃ t m, exec (.mpys sop) s = .next t ∧
      WordStored s.plat q.2.bus m (wrAddr s.wp 0) (BitVec.ofInt 16 (product / 65536)) ∧
      WordStored s.plat m t.bus (wrAddr s.wp 1) (BitVec.ofInt 16 product) ∧
      t.st.getLsbD stL = decide (product ≠ 0) ∧ t.st.getLsbD stA = decide (0 < product) ∧
      t.st.getLsbD stEQ = decide (product = 0) ∧ StatusKept 0xE000 s.st t.st ∧
      KeptOutside s t fun x => Bumps sop s.wp x ∨ InWord (wrAddr s.wp 0) x ∨ InWord (wrAddr s.wp 1) x

/-- DIVS (R222): where the quotient is a signed 16-bit quantity, it and the remainder replace WR0 and WR1, the
quotient is compared with 0 and ST4 cleared; where it is not, also for a divisor of 0 (D7, log 26), ST4 is set
and nothing stored, and nothing is said of ST0 to ST2 (log 18). -/
def Obligations.DivideSigned : Prop :=
  ∀ (sop : Operand) (s : State),
    let q := s.sourceWord sop
    let n : Int := (busReadWord s.plat q.2.bus (wrAddr s.wp 0)).toInt * 65536 +
      (busReadWord s.plat q.2.tickDraws.bus (wrAddr s.wp 1)).toNat
    (∀ quot rem, IsSignedDivision n q.1.toInt quot rem → -32768 ≤ quot → quot ≤ 32767 →
      ∃ t m, exec (.divs sop) s = .next t ∧
        WordStored s.plat q.2.bus m (wrAddr s.wp 0) (BitVec.ofInt 16 quot) ∧
        WordStored s.plat m t.bus (wrAddr s.wp 1) (BitVec.ofInt 16 rem) ∧
        ComparedToZero (BitVec.ofInt 16 quot) t.st ∧ t.st.getLsbD stOV = false ∧
        StatusKept 0xE800 s.st t.st ∧
        KeptOutside s t fun x => Bumps sop s.wp x ∨ InWord (wrAddr s.wp 0) x ∨ InWord (wrAddr s.wp 1) x) ∧
    ((∀ quot rem, IsSignedDivision n q.1.toInt quot rem → quot < -32768 ∨ 32767 < quot) →
      ∃ t, exec (.divs sop) s = .next t ∧ OnlyDrew q.2.bus t.bus ∧ t.st.getLsbD stOV = true ∧
        StatusKept 0xE800 s.st t.st ∧ KeptOutside s t (Bumps sop s.wp))

/-- XOP (R225, R226): WP and PC from the vector at >0040 + 4n; SA in the new WR11, the old WP, PC, ST in the new
WR13 to WR15; ST6 set, ST7 to ST11 cleared; maskable interrupts held back for one instruction (R227). That SA
is stored unmasked is decision D25 (log 40), the order of reads and stores D9 (log 28); that ST7, ST8, ST9 and ST11
are cleared is the model's choice of R225 against entry U25 of 93_implementation_defined.md (log 47). -/
def Obligations.ExtendedOperation : Prop :=
  ∀ (sop : Operand) (n : BitVec 4) (s : State),
    let q := s.ea sop .word
    let vec := BitVec.ofNat 16 (0x0040 + 4 * n.toNat)
    let w := evenAddr (busReadWord s.plat q.2.bus vec)
    ∃ t m, exec (.xop sop n) s = .next t ∧ t.wp = w ∧
      t.pc = evenAddr (busReadWord s.plat q.2.tickDraws.bus (vec + 2)) ∧
      WordStored s.plat q.2.bus m (wrAddr w 11) q.1 ∧ ContextStored s.plat m t.bus w s.wp q.2.pc s.st ∧
      (∀ i, i < 16 → t.st.getLsbD i = if i = stX then true else if 4 ≤ i ∧ i ≤ 8 then false else s.st.getLsbD i) ∧
      t = { s with pc := t.pc, wp := t.wp, st := t.st, bus := t.bus, inhibit := .maskable } ∧
      t.bus.flags = s.bus.flags ∧ t.bus.midFlag = s.bus.midFlag ∧
      BusKeptOutside s.plat s.bus t.bus fun x => Bumps sop s.wp x ∨ InWord (wrAddr w 11) x ∨
        InWord (wrAddr w 13) x ∨ InWord (wrAddr w 14) x ∨ InWord (wrAddr w 15) x

/-! ### One general operand -/

/-- B and BL (R241, R242): PC takes SA without its LSB; BL leaves in WR11 the address after its own words; no
status bit. -/
def Obligations.BranchAndLink : Prop :=
  ∀ (sop : Operand) (s : State),
    let q := s.ea sop .word
    (∃ t, exec (.b sop) s = .next t ∧ t.pc = evenAddr q.1 ∧ t.st = s.st ∧ t.bus = q.2.bus ∧
      KeptOutside s t (Bumps sop s.wp)) ∧
    (∃ t, exec (.bl sop) s = .next t ∧ t.pc = evenAddr q.1 ∧ t.st = s.st ∧
      WordStored s.plat q.2.bus t.bus (wrAddr s.wp 11) q.2.pc ∧
      KeptOutside s t fun x => Bumps sop s.wp x ∨ InWord (wrAddr s.wp 11) x)

/-- BLWP (R243): WP and PC from the two words at SA; the old WP, PC, ST in the new WR13 to WR15; ST unchanged;
maskable interrupts held back for one instruction (R227). That both vector words are read before the stores is
decision D9 (log 28). -/
def Obligations.BranchAndLoadWorkspace : Prop :=
  ∀ (sop : Operand) (s : State),
    let q := s.ea sop .word
    let w := evenAddr (busReadWord s.plat q.2.bus q.1)
    ∃ t, exec (.blwp sop) s = .next t ∧ t.wp = w ∧
      t.pc = evenAddr (busReadWord s.plat q.2.tickDraws.bus (q.1 + 2)) ∧
      ContextStored s.plat q.2.bus t.bus w s.wp q.2.pc s.st ∧
      t = { s with pc := t.pc, wp := t.wp, bus := t.bus, inhibit := .maskable } ∧
      t.bus.flags = s.bus.flags ∧ t.bus.midFlag = s.bus.midFlag ∧
      BusKeptOutside s.plat s.bus t.bus fun x => Bumps sop s.wp x ∨
        InWord (wrAddr w 13) x ∨ InWord (wrAddr w 14) x ∨ InWord (wrAddr w 15) x

/-- R244, R245: CLR, of opcode >04C0, stores 0, SETO, of opcode >0700, stores >FFFF; no status bit changes. -/
def Obligations.ClearAndSetToOnes : Prop :=
  (∀ w : Word, w &&& 0xFFC0 = 0x04C0 → decode w = .clr (srcOf w)) ∧
  (∀ w : Word, w &&& 0xFFC0 = 0x0700 → decode w = .seto (srcOf w)) ∧
  ∀ (sop : Operand) (s : State),
    (∃ t, exec (.clr sop) s = .next t ∧ SingleWrote s t sop 0x0000 0 ∧ t.st = s.st) ∧
    (∃ t, exec (.seto sop) s = .next t ∧ SingleWrote s t sop 0xFFFF 0 ∧ t.st = s.st)

/-- R249: SWPB, of opcode >06C0, exchanges the bytes of its operand; no status bit changes. -/
def Obligations.SwapBytes : Prop :=
  (∀ w : Word, w &&& 0xFFC0 = 0x06C0 → decode w = .swpb (srcOf w)) ∧
  ∀ (sop : Operand) (s : State),
    let q := s.ea sop .word
    let old := busReadWord s.plat q.2.bus q.1
    ∃ t r, exec (.swpb sop) s = .next t ∧ SingleWrote s t sop r 0 ∧ t.st = s.st ∧
      highByte r = lowByte old ∧ lowByte r = highByte old

/-- INV, NEG and ABS (R246 to R248): one's complement; negation, with carry only for 0 (D4) and overflow for
>8000; absolute value, whose operand is compared with 0, with carry cleared (D5, log 24). -/
def Obligations.InvertNegateAbsolute : Prop :=
  ∀ (sop : Operand) (s : State),
    let q := s.ea sop .word
    let old := busReadWord s.plat q.2.bus q.1
    (∃ t, exec (.inv sop) s = .next t ∧ SingleWrote s t sop (BitVec.ofNat 16 (65535 - old.toNat)) 0xE000 ∧
      ComparedToZero (BitVec.ofNat 16 (65535 - old.toNat)) t.st) ∧
    (∃ t, exec (.neg sop) s = .next t ∧ SingleWrote s t sop (BitVec.ofInt 16 (-old.toInt)) 0xF800 ∧
      ComparedToZero (BitVec.ofInt 16 (-old.toInt)) t.st ∧ t.st.getLsbD stC = decide (old.toNat = 0) ∧
      t.st.getLsbD stOV = decide (old.toInt = -32768)) ∧
    (∃ t, exec (.abs sop) s = .next t ∧ SingleWrote s t sop (BitVec.ofInt 16 |old.toInt|) 0xF800 ∧
      ComparedToZero old t.st ∧ t.st.getLsbD stC = false ∧ t.st.getLsbD stOV = decide (old.toInt = -32768))

/-- INC, INCT, DEC and DECT (R250 to R253), with the carries and overflows their rules list; the carries of DEC
and DECT rest on D4 (log 23). -/
def Obligations.IncrementAndDecrement : Prop :=
  ∀ (sop : Operand) (s : State),
    let q := s.ea sop .word
    let old := busReadWord s.plat q.2.bus q.1
    (∃ t r, exec (.inc sop) s = .next t ∧ SingleWrote s t sop r 0xF800 ∧ r = BitVec.ofInt 16 (old.toInt + 1) ∧
      ComparedToZero r t.st ∧ t.st.getLsbD stC = decide (old.toNat = 0xFFFF) ∧
      t.st.getLsbD stOV = decide (old.toNat = 0x7FFF)) ∧
    (∃ t r, exec (.inct sop) s = .next t ∧ SingleWrote s t sop r 0xF800 ∧ r = BitVec.ofInt 16 (old.toInt + 2) ∧
      ComparedToZero r t.st ∧ t.st.getLsbD stC = decide (old.toNat = 0xFFFE ∨ old.toNat = 0xFFFF) ∧
      t.st.getLsbD stOV = decide (old.toNat = 0x7FFE ∨ old.toNat = 0x7FFF)) ∧
    (∃ t r, exec (.dec sop) s = .next t ∧ SingleWrote s t sop r 0xF800 ∧ r = BitVec.ofInt 16 (old.toInt - 1) ∧
      ComparedToZero r t.st ∧ t.st.getLsbD stC = decide (old.toNat ≠ 0) ∧
      t.st.getLsbD stOV = decide (old.toNat = 0x8000)) ∧
    (∃ t r, exec (.dect sop) s = .next t ∧ SingleWrote s t sop r 0xF800 ∧ r = BitVec.ofInt 16 (old.toInt - 2) ∧
      ComparedToZero r t.st ∧ t.st.getLsbD stC = decide (old.toNat ≠ 0 ∧ old.toNat ≠ 1) ∧
      t.st.getLsbD stOV = decide (old.toNat = 0x8000 ∨ old.toNat = 0x8001))

/-- X (R254): the word at SA runs as an instruction in the state after SA is derived, so that its extension
words come from the words after X. A target that is again an X runs in the step that follows, with no boundary
between (D21, log 21). -/
def Obligations.ExecuteRunsItsTarget : Prop :=
  (∀ (sop : Operand) (s : State),
    let v := s.sourceWord sop
    ∃ t, exec (.x sop) s = .next t ∧
      if isX v.1 = true then t = { v.2 with xPending := some v.1 } else exec (decode v.1) v.2 = .next t) ∧
  ∀ (s : State) (v : Word), CpuTurn s → s.resetPending = false → s.xPending = some v →
    ∃ t, exec (decode v) { s with xPending := none } = .next t ∧
      step s = .next (State.notePrefetch (decode v) { s with xPending := none } t)

/-! ### CRU -/

/-- LDCR (R281): the operand, a byte for 1 to 8 bits, is compared with 0, with its parity if it is a byte; its
low bits go out one by one to ascending CRU addresses from WR12's base; memory stays but for a register that
the operand increments. -/
def Obligations.LoadCommunicationRegister : Prop :=
  ∀ (sop : Operand) (c : BitVec 4) (s : State),
    (1 ≤ c.toNat ∧ c.toNat ≤ 8 →
      let q := s.ea sop .byte
      let v := busReadByte s.plat q.2.bus q.1
      let base := (busReadWord s.plat q.2.tickDraws.bus (wrAddr s.wp 12)).toNat / 2
      ∃ t m, exec (.ldcr sop c) s = .next t ∧ OnlyDrew q.2.bus m ∧
        CruFieldWritten m t.bus base c.toNat (fun i => v.getLsbD i) ∧
        ComparedToZero v t.st ∧ t.st.getLsbD stOP = oddOnes v ∧ StatusKept 0xE400 s.st t.st ∧
        t = { s with pc := q.2.pc, st := t.st, bus := t.bus } ∧
        ∀ x, ¬ Bumps sop s.wp x → storedByte s.plat t.bus x = storedByte s.plat s.bus x) ∧
    (c.toNat = 0 ∨ 9 ≤ c.toNat →
      let q := s.ea sop .word
      let v := busReadWord s.plat q.2.bus q.1
      let base := (busReadWord s.plat q.2.tickDraws.bus (wrAddr s.wp 12)).toNat / 2
      ∃ t m, exec (.ldcr sop c) s = .next t ∧ OnlyDrew q.2.bus m ∧
        CruFieldWritten m t.bus base (if c.toNat = 0 then 16 else c.toNat) (fun i => v.getLsbD i) ∧
        ComparedToZero v t.st ∧ StatusKept 0xE000 s.st t.st ∧
        t = { s with pc := q.2.pc, st := t.st, bus := t.bus } ∧
        ∀ x, ¬ Bumps sop s.wp x → storedByte s.plat t.bus x = storedByte s.plat s.bus x)

/-- STCR (R282): bit i of what is stored is the CRU input bit at base + i, the bits beyond the count are 0; the
stored byte or word is compared with 0, a byte's parity too. -/
def Obligations.StoreCommunicationRegister : Prop :=
  ∀ (dop : Operand) (c : BitVec 4) (s : State),
    (1 ≤ c.toNat ∧ c.toNat ≤ 8 →
      let q := s.ea dop .byte
      let base := (busReadWord s.plat q.2.bus (wrAddr s.wp 12)).toNat / 2
      ∃ t r, exec (.stcr dop c) s = .next t ∧ ByteStored s.plat q.2.bus t.bus q.1 r ∧
        (∀ i, i < 8 → r.getLsbD i = (decide (i < c.toNat) &&
          { q.2 with bus := { q.2.bus with draws := q.2.bus.draws + 1 + i } }.cruBit (BitVec.ofNat 15 (base + i)))) ∧
        ComparedToZero r t.st ∧ t.st.getLsbD stOP = oddOnes r ∧ StatusKept 0xE400 s.st t.st ∧
        KeptOutside s t fun x => Bumps dop s.wp x ∨ InByte s.plat q.1 x) ∧
    (c.toNat = 0 ∨ 9 ≤ c.toNat →
      let q := s.ea dop .word
      let base := (busReadWord s.plat q.2.bus (wrAddr s.wp 12)).toNat / 2
      ∃ t r, exec (.stcr dop c) s = .next t ∧ WordStored s.plat q.2.bus t.bus q.1 r ∧
        (∀ i, i < 16 → r.getLsbD i = (decide (i < if c.toNat = 0 then 16 else c.toNat) &&
          { q.2 with bus := { q.2.bus with draws := q.2.bus.draws + 1 + i } }.cruBit (BitVec.ofNat 15 (base + i)))) ∧
        ComparedToZero r t.st ∧ StatusKept 0xE000 s.st t.st ∧
        KeptOutside s t fun x => Bumps dop s.wp x ∨ InWord q.1 x)

/-- SBO, SBZ and TB (R283 to R285): one CRU bit at WR12's base plus the signed displacement is set, cleared, or
read into ST2. That the address wraps modulo 2^15 is decision D10 (log 29), for LDCR and STCR too. -/
def Obligations.SingleCruBits : Prop :=
  ∀ (disp : BitVec 8) (s : State),
    let base : Int := (busReadWord s.plat s.bus (wrAddr s.wp 12)).toNat / 2
    let a := BitVec.ofInt 15 (base + disp.toInt)
    (∃ t m, exec (.sbo disp) s = .next t ∧ OnlyDrew s.bus m ∧ CruFieldWritten m t.bus a.toNat 1 (fun _ => true) ∧
      t = { s with bus := t.bus }) ∧
    (∃ t m, exec (.sbz disp) s = .next t ∧ OnlyDrew s.bus m ∧ CruFieldWritten m t.bus a.toNat 1 (fun _ => false) ∧
      t = { s with bus := t.bus }) ∧
    (∃ t, exec (.tb disp) s = .next t ∧ t.st.getLsbD stEQ = s.tickDraws.cruBit a ∧
      StatusKept 0x2000 s.st t.st ∧ OnlyDrew s.bus t.bus ∧ t = { s with st := t.st, bus := t.bus })

/-- What a CRU input bit is (R78, R428, R456, R457): the flags, the requests in FLAG2 to FLAG4, the MID flag, and
outside the chip the level a line is driven at. The model's choices here: that the flags read back is D27 (log 32),
that FLAG2 and FLAG4 read latch or level, with INT4/EC gated by FLAG0 alone, is D13 and D14 (log 31), and that a
line is data the platform drives is log 11 (D33). -/
def Obligations.CruInputMap : Prop :=
  ∀ (s : State) (a : CruAddr),
    (∀ k, k < 16 → a.toNat = 0x0F70 + k → k ≠ 2 → k ≠ 3 → k ≠ 4 → s.cruBit a = s.bus.flags.getLsbD k) ∧
    (a.toNat = 0x0F72 → s.cruBit a = (s.latch1 || !s.pins.int1)) ∧
    (a.toNat = 0x0F73 → s.cruBit a = s.latch3) ∧
    (a.toNat = 0x0F74 → s.cruBit a = (s.latch4 || (!s.bus.flags.getLsbD 0 && !s.pins.int4))) ∧
    (a.toNat = 0x0FED → s.cruBit a = s.bus.midFlag) ∧
    (∀ b, a.toNat < 0x0F70 ∨ 0x0F7F < a.toNat → a.toNat ≠ 0x0FED → cruLine s.cruLines a.toNat = some b →
      s.cruBit a = b)

/-! ### Jumps and shifts -/

/-- The thirteen jumps (R310 to R323): where the condition on the status holds, PC moves by twice the signed
displacement; nothing else changes, and nothing at all where it does not hold. -/
def Obligations.JumpsFollowTheirConditions : Prop :=
  ∀ (d : BitVec 8) (s : State),
    let taken : State := { s with pc := BitVec.ofInt 16 (s.pc.toInt + 2 * d.toInt) }
    let bit (n : Nat) : Bool := s.st.getLsbD n
    exec (.jmp d) s = .next taken ∧
    exec (.jlt d) s = .next (if bit stA = false ∧ bit stEQ = false then taken else s) ∧
    exec (.jle d) s = .next (if bit stL = false ∨ bit stEQ = true then taken else s) ∧
    exec (.jeq d) s = .next (if bit stEQ = true then taken else s) ∧
    exec (.jhe d) s = .next (if bit stL = true ∨ bit stEQ = true then taken else s) ∧
    exec (.jgt d) s = .next (if bit stA = true then taken else s) ∧
    exec (.jne d) s = .next (if bit stEQ = false then taken else s) ∧
    exec (.jnc d) s = .next (if bit stC = false then taken else s) ∧
    exec (.joc d) s = .next (if bit stC = true then taken else s) ∧
    exec (.jno d) s = .next (if bit stOV = false then taken else s) ∧
    exec (.jl d) s = .next (if bit stL = false ∧ bit stEQ = false then taken else s) ∧
    exec (.jh d) s = .next (if bit stL = true ∧ bit stEQ = false then taken else s) ∧
    exec (.jop d) s = .next (if bit stOP = true then taken else s)

/-- SLA (R330, R331): the register times a power of 2; carry is the last bit shifted out; ST4 says whether the
MSB changes at any place of the shift. -/
def Obligations.ShiftLeftArithmetic : Prop :=
  ∀ (w : Reg) (c : BitVec 4) (s : State),
    let n := ShiftAmount s c
    let v := ShiftedValue s w c
    ∃ t r, exec (.sla w c) s = .next t ∧ RegisterWrote s t w r 0xF800 ∧ t.pc = s.pc ∧
      r = BitVec.ofNat 16 (v.toNat * 2 ^ n) ∧ ComparedToZero r t.st ∧
      t.st.getLsbD stC = v.getLsbD (16 - n) ∧
      (t.st.getLsbD stOV = true ↔ ∃ k, 1 ≤ k ∧ k ≤ n ∧ (v <<< k).msb ≠ v.msb)

/-- SRA, SRL and SRC (R330, R332 to R334): floor division of the signed value, division of the unsigned value,
rotation; carry is the last bit shifted out. -/
def Obligations.ShiftsRight : Prop :=
  ∀ (w : Reg) (c : BitVec 4) (s : State),
    let n := ShiftAmount s c
    let v := ShiftedValue s w c
    (∃ t r, exec (.sra w c) s = .next t ∧ RegisterWrote s t w r 0xF000 ∧ t.pc = s.pc ∧
      r = BitVec.ofInt 16 (v.toInt / 2 ^ n) ∧ ComparedToZero r t.st ∧ t.st.getLsbD stC = v.getLsbD (n - 1)) ∧
    (∃ t r, exec (.srl w c) s = .next t ∧ RegisterWrote s t w r 0xF000 ∧ t.pc = s.pc ∧
      r = BitVec.ofNat 16 (v.toNat / 2 ^ n) ∧ ComparedToZero r t.st ∧ t.st.getLsbD stC = v.getLsbD (n - 1)) ∧
    (∃ t r, exec (.src w c) s = .next t ∧ RegisterWrote s t w r 0xF000 ∧ t.pc = s.pc ∧
      (∀ i, i < 16 → r.getLsbD i = v.getLsbD ((i + n) % 16)) ∧ ComparedToZero r t.st ∧
      t.st.getLsbD stC = v.getLsbD (n - 1))

/-! ### Immediate and internal registers -/

/-- LI, ANDI and ORI (R351, R353, R354): the immediate, or the register and or the immediate, compared with 0;
PC past both words. -/
def Obligations.LoadAndCombineImmediate : Prop :=
  ∀ (w : Reg) (s : State),
    let iop := busReadWord s.plat s.bus s.pc
    let old := busReadWord s.plat s.fetch.2.bus (wrAddr s.wp w)
    (∃ t, exec (.li w) s = .next t ∧ RegisterWrote s t w iop 0xE000 ∧ ComparedToZero iop t.st ∧ t.pc = s.pc + 2) ∧
    (∃ t r, exec (.andi w) s = .next t ∧ RegisterWrote s t w r 0xE000 ∧ ComparedToZero r t.st ∧ t.pc = s.pc + 2 ∧
      ∀ i, i < 16 → r.getLsbD i = (old.getLsbD i && iop.getLsbD i)) ∧
    (∃ t r, exec (.ori w) s = .next t ∧ RegisterWrote s t w r 0xE000 ∧ ComparedToZero r t.st ∧ t.pc = s.pc + 2 ∧
      ∀ i, i < 16 → r.getLsbD i = (old.getLsbD i || iop.getLsbD i))

/-- AI and CI (R352, R355): the sum with its carry and overflow; the register compared with the immediate as
source with destination, nothing stored. -/
def Obligations.AddAndCompareImmediate : Prop :=
  ∀ (w : Reg) (s : State),
    let iop := busReadWord s.plat s.bus s.pc
    let old := busReadWord s.plat s.fetch.2.bus (wrAddr s.wp w)
    (∃ t r, exec (.ai w) s = .next t ∧ RegisterWrote s t w r 0xF800 ∧ r = BitVec.ofNat 16 (old.toNat + iop.toNat) ∧
      ComparedToZero r t.st ∧ SumCarry old iop t.st ∧ t.pc = s.pc + 2) ∧
    (∃ t, exec (.ci w) s = .next t ∧ ComparedOperands old iop t.st ∧ StatusKept 0xE000 s.st t.st ∧
      OnlyDrew s.bus t.bus ∧ t = { s with pc := s.pc + 2, st := t.st, bus := t.bus })

/-- LWPI and LIMI (R360, R361): WP is the immediate without its LSB; ST12 to ST15 are its four low bits and the
other status bits stay. -/
def Obligations.LoadPointerAndMaskImmediate : Prop :=
  ∀ s : State,
    let iop := busReadWord s.plat s.bus s.pc
    (∃ t, exec .lwpi s = .next t ∧ t.wp.toNat = iop.toNat / 2 * 2 ∧ OnlyDrew s.bus t.bus ∧
      t = { s with pc := s.pc + 2, wp := t.wp, bus := t.bus }) ∧
    (∃ t, exec .limi s = .next t ∧ (stMask t.st).toNat = iop.toNat % 16 ∧ StatusKept 0x000F s.st t.st ∧
      OnlyDrew s.bus t.bus ∧ t = { s with pc := s.pc + 2, st := t.st, bus := t.bus })

/-- R365, R367: STST, of opcode >02C0, stores all sixteen bits of ST in its register, STWP, of opcode >02A0,
stores WP; no status bit changes. -/
def Obligations.StoreStatusAndPointer : Prop :=
  (∀ w : Word, w &&& 0xFFF0 = 0x02C0 → decode w = .stst (sField w)) ∧
  (∀ w : Word, w &&& 0xFFF0 = 0x02A0 → decode w = .stwp (sField w)) ∧
  ∀ (w : Reg) (s : State),
    (∃ t, exec (.stst w) s = .next t ∧ RegisterWrote s t w s.st 0 ∧ t.st = s.st ∧ t.pc = s.pc) ∧
    (∃ t, exec (.stwp w) s = .next t ∧ RegisterWrote s t w s.wp 0 ∧ t.st = s.st ∧ t.pc = s.pc)

/-- LST and LWP (R366, R368): all of ST, or WP without its LSB, from the register; LWP reads it in the old
workspace; nothing is stored. -/
def Obligations.LoadStatusAndPointer : Prop :=
  ∀ (w : Reg) (s : State),
    let v := busReadWord s.plat s.bus (wrAddr s.wp w)
    (∃ t, exec (.lst w) s = .next t ∧ OnlyDrew s.bus t.bus ∧ t = { s with st := v, bus := t.bus }) ∧
    (∃ t, exec (.lwp w) s = .next t ∧ t.wp.toNat = v.toNat / 2 * 2 ∧ OnlyDrew s.bus t.bus ∧
      t = { s with wp := t.wp, bus := t.bus })

/-- RTWP (R370): ST, PC and WP from WR15, WR14 and WR13 of the current workspace, PC and WP without their LSB;
nothing is stored. -/
def Obligations.ReturnWorkspacePointer : Prop :=
  ∀ s : State,
    ∃ t, exec .rtwp s = .next t ∧ t.st = busReadWord s.plat s.bus (wrAddr s.wp 15) ∧
      t.pc = evenAddr (busReadWord s.plat s.tickDraws.bus (wrAddr s.wp 14)) ∧
      t.wp = evenAddr (busReadWord s.plat s.tickDraws.tickDraws.bus (wrAddr s.wp 13)) ∧ OnlyDrew s.bus t.bus ∧
      t = { s with pc := t.pc, wp := t.wp, st := t.st, bus := t.bus }

/-! ### External instructions and MID -/

/-- IDLE and RSET (R392, R393): the Idle state entered with code 010; the mask cleared, nothing else inside the
CPU, with code 011. -/
def Obligations.IdleAndReset : Prop :=
  ∀ s : State,
    exec .idle s = .next { s with idle := true, bus := { s.bus with events := .extInstr 0b010 :: s.bus.events } } ∧
    ∃ t, exec .rset s = .next t ∧ stMask t.st = 0 ∧ StatusKept 0x000F s.st t.st ∧
      t = { s with st := t.st, bus := { s.bus with events := .extInstr 0b011 :: s.bus.events } }

/-- R394 to R396: CKON, CKOF and LREX, of the opcodes >03A0, >03C0 and >03E0 exactly, put out their codes 101,
110 and 111 and have no effect inside the CPU. -/
def Obligations.UserDefinedExternals : Prop :=
  (∀ w : Word, decode w = .ckon ↔ w = 0x03A0) ∧ (∀ w : Word, decode w = .ckof ↔ w = 0x03C0) ∧
  (∀ w : Word, decode w = .lrex ↔ w = 0x03E0) ∧
  ∀ s : State,
    exec .ckon s = .next { s with bus := { s.bus with events := .extInstr 0b101 :: s.bus.events } } ∧
    exec .ckof s = .next { s with bus := { s.bus with events := .extInstr 0b110 :: s.bus.events } } ∧
    exec .lrex s = .next { s with bus := { s.bus with events := .extInstr 0b111 :: s.bus.events } }

/-- A MID opcode (R400, R430): the MID flag set, the MID interrupt requested and nothing else; the boundary that
follows takes the MID interrupt, whatever the mask and the inhibit. -/
def Obligations.MidOpcodeRequestsMid : Prop :=
  ∀ (w : Word) (s : State),
    ∃ t, exec (.mid w) s = .next t ∧
      t = { s with midPending := true, bus := { s.bus with midFlag := true } } ∧ t.grant = some .mid

/-! ### All instructions -/

/-- Every instruction writes only the status bits listed for it (R166, R168); an X writes those of its target,
and none where the target is again an X. -/
def Obligations.OnlyListedStatusBits : Prop :=
  ∀ (i : Instr) (s : State),
    ∃ t, exec i s = .next t ∧
      ((∀ sop, i ≠ .x sop) → StatusKept (affectedBits i) s.st t.st) ∧
      ∀ sop, i = .x sop → StatusKept (affectedBits (decode (s.sourceWord sop).1)) s.st t.st

/-- An instruction that does not load PC leaves it past its extension words (R101, R118): twice their number is
added to PC, which is already past the opcode word. -/
def Obligations.PcPassesTheExtensionWords : Prop :=
  ∀ (i : Instr) (s : State), loadsPc i = false →
    ∃ t, exec i s = .next t ∧ t.pc = s.pc + BitVec.ofNat 16 (2 * i.extWords)

/-- Every instruction completes, and none touches the request latches, the NMI arming, the pins, the reset and
hold state, the wait-state selection, the platform or the agenda (R427); WP changes only by LWPI, LWP, BLWP, XOP,
RTWP (R22), the inhibit only by BLWP and XOP (R36), the MID request only by a MID opcode (R37), the Idle state
only by IDLE (R39), each also as the target of an X. -/
def Obligations.InstructionsKeepTheRest : Prop :=
  ∀ (i : Instr) (s : State),
    ∃ t, exec i s = .next t ∧
      t = { s with pc := t.pc, wp := t.wp, st := t.st, bus := t.bus, inhibit := t.inhibit,
                   midPending := t.midPending, xPending := t.xPending, idle := t.idle } ∧
      ((∀ sop, i ≠ .x sop) →
        t.xPending = s.xPending ∧
        ((∀ r, i ≠ .lwp r) → (∀ o, i ≠ .blwp o) → (∀ o n, i ≠ .xop o n) → i ≠ .lwpi → i ≠ .rtwp → t.wp = s.wp) ∧
        ((∀ o, i ≠ .blwp o) → (∀ o n, i ≠ .xop o n) → t.inhibit = s.inhibit) ∧
        ((∀ w, i ≠ .mid w) → t.midPending = s.midPending) ∧ (i ≠ .idle → t.idle = s.idle))

/-! ### The machine -/

/-- The invariant holds after every step from a state where it holds. -/
def Obligations.EveryStepKeepsTheInvariant : Prop :=
  ∀ s t : State, s.Inv → step s = .next t → t.Inv

/-- The state after reset has the invariant. -/
def Obligations.ResetHasTheInvariant : Prop := State.reset.Inv

/-- No step faults or is refused: the machine has no fault, and every instruction has a meaning. -/
def Obligations.NoStepStops : Prop := ∀ s : State, ∃ t, step s = .next t

/-- At a boundary where no interrupt is taken and the machine is not idle, a step runs the instruction whose
word is at PC: PC moves past that word, its read cycles show IAQ (R73), the inhibit is used up, the instruction
acts, and the prefetch of the next opcode is noted (R101, R414, R490). That the
opcode's read stands here, not before the stores of the instruction before, is log 12. Where the instruction left
the next opcode word alone, nothing is prefetched. -/
def Obligations.StepRunsTheDecodedInstruction : Prop :=
  ∀ (s : State) (i : Instr), AtBoundary s → s.grant = none → s.idle = false → s.prefetch = none →
    decodeBytes [busReadByte s.plat s.bus (evenAddr s.pc), busReadByte s.plat s.bus (evenAddr s.pc + 1)] = .ok (i, []) →
    let u : State := { s with
      pc := s.pc + 2, inhibit := .none
      bus := { s.bus with draws := s.bus.draws + 1, events := loadCycles s.plat true s.pc ++ s.bus.events } }
    ∃ t, exec i u = .next t ∧ step s = .next (State.notePrefetch i u t) ∧
      (t.xPending = none → (∀ sop, i ≠ .x sop) → storedWord s.plat t.bus t.pc = storedWord s.plat s.bus t.pc →
        step s = .next { t with prefetch := none })

/-- An opcode word that the instruction before overwrote (R490): the old word is left as prefetched, for an X the
word before its target stored; but a B, also one that an X runs, discards what was prefetched; with a prefetched
word the next step runs either that word or the word now in memory. That an X's own auto-increment is seen by the
opcode fetch after it is the model's reading of 'discards' (D22, log 20). -/
def Obligations.OverwrittenOpcodeRunsOldOrNew : Prop :=
  (∀ (i : Instr) (u t : State), t.xPending = none → (∀ sop, i ≠ .b sop) → (∀ sop, i ≠ .x sop) →
    (State.notePrefetch i u t).prefetch =
      if storedWord u.plat u.bus t.pc = storedWord t.plat t.bus t.pc then none
      else some (storedWord u.plat u.bus t.pc)) ∧
  (∀ (sop : Operand) (u t : State), t.xPending = none → (State.notePrefetch (.b sop) u t).prefetch = none) ∧
  (∀ (sop : Operand) (u t : State), t.xPending = none →
    let v := u.sourceWord sop
    ((∃ o, decode v.1 = .b o) → (State.notePrefetch (.x sop) u t).prefetch = none) ∧
    ((∀ o, decode v.1 ≠ .b o) → (State.notePrefetch (.x sop) u t).prefetch =
      if storedWord u.plat v.2.bus t.pc = storedWord t.plat t.bus t.pc then none
      else some (storedWord u.plat v.2.bus t.pc))) ∧
  ∀ (s : State) (old : Word), AtBoundary s → s.grant = none → s.idle = false → s.prefetch = some old →
    ∃ w t u, (w = old ∨ w = busReadWord s.plat s.bus s.pc) ∧ OnlyDrew s.bus u.bus ∧
      u = { s with pc := s.pc + 2, inhibit := .none, prefetch := none, bus := u.bus } ∧
      exec (decode w) u = .next t ∧ step s = .next (State.notePrefetch (decode w) u t)

/-- Taking an interrupt (R414, R420 to R422, R427): WP and PC from the vector; the old WP, PC, ST in the new WR13
to WR15; ST7 to ST11 cleared, the mask as R421 says, ST0 to ST6 kept; the Idle state left; the request used up
and no other; one instruction of inhibit, which for MID lets NMI through. The order of reads and stores is D9
(log 28). -/
def Obligations.TakingAnInterrupt : Prop :=
  ∀ (s : State) (k : IntKind), AtBoundary s → s.grant = some k →
    let vec := intVector k
    let w := evenAddr (busReadWord s.plat s.bus vec)
    ∃ t, step s = .next t ∧ t.wp = w ∧ t.pc = evenAddr (busReadWord s.plat s.tickDraws.bus (vec + 2)) ∧
      ContextStored s.plat s.bus t.bus w s.wp s.pc s.st ∧
      (∀ i, i < 16 → t.st.getLsbD i =
        if i < 4 then (newMask k (stMask s.st)).getLsbD i else if i ≤ 8 then false else s.st.getLsbD i) ∧
      t.latch1 = (s.latch1 && decide (k ≠ .level1)) ∧ t.latch3 = (s.latch3 && decide (k ≠ .level3)) ∧
      t.latch4 = (s.latch4 && decide (k ≠ .level4)) ∧ t.nmiArmed = (s.nmiArmed && decide (k ≠ .nmi)) ∧
      t.midPending = (s.midPending && decide (k ≠ .mid)) ∧
      t = { s with pc := t.pc, wp := t.wp, st := t.st, bus := t.bus, latch1 := t.latch1, latch3 := t.latch3,
                   latch4 := t.latch4, nmiArmed := t.nmiArmed, midPending := t.midPending, idle := false,
                   prefetch := none, inhibit := if k = .mid then .maskable else .allButReset } ∧
      t.bus.flags = s.bus.flags ∧ t.bus.midFlag = s.bus.midFlag ∧
      BusKeptOutside s.plat s.bus t.bus fun x =>
        InWord (wrAddr w 13) x ∨ InWord (wrAddr w 14) x ∨ InWord (wrAddr w 15) x

/-- Which interrupt a boundary takes (R411, R413, R414): MID before all; NMI unless all are inhibited; levels 1
to 4, the lowest number first, where nothing is inhibited, no NMI is requested and the mask allows; and the
vectors. After the switch of a MID that the boundary takes an NMI goes through, after any other switch nothing does
(R422, R433). What makes a request
rests on decisions D11 to D14 (log 17, 31). -/
def Obligations.BoundaryTakesTheHighestRequest : Prop :=
  (∀ s : State,
    let mask := (stMask s.st).toNat
    let nmi := s.nmiArmed = true ∧ s.pins.nmi = false
    let level1 := (s.latch1 = true ∨ s.pins.int1 = false) ∧ 1 ≤ mask
    let level2 := s.plat.ovfFunctional = true ∧ s.st.getLsbD stOV = true ∧ s.st.getLsbD stOVEN = true ∧ 2 ≤ mask
    let level3 := s.latch3 = true ∧ 3 ≤ mask
    let level4 := (s.latch4 = true ∨ (s.bus.flags.getLsbD 0 = false ∧ s.pins.int4 = false)) ∧ 4 ≤ mask
    let quiet := s.midPending = false ∧ s.inhibit = .none ∧ ¬nmi
    (s.grant = some .mid ↔ s.midPending = true) ∧
    (s.grant = some .nmi ↔ s.midPending = false ∧ s.inhibit ≠ .allButReset ∧ nmi) ∧
    (s.grant = some .level1 ↔ quiet ∧ level1) ∧
    (s.grant = some .level2 ↔ quiet ∧ ¬level1 ∧ level2) ∧
    (s.grant = some .level3 ↔ quiet ∧ ¬level1 ∧ ¬level2 ∧ level3) ∧
    (s.grant = some .level4 ↔ quiet ∧ ¬level1 ∧ ¬level2 ∧ ¬level3 ∧ level4)) ∧
  (intVector .mid = 0x0008 ∧ intVector .nmi = 0xFFFC ∧ intVector .level1 = 0x0004 ∧ intVector .level2 = 0x0008 ∧
    intVector .level3 = 0x000C ∧ intVector .level4 = 0x0010) ∧
  (∀ (s : State) (k : IntKind), s.midPending = false → k ≠ .mid → (s.takeInterrupt k).grant = none) ∧
  ∀ s : State, s.grant = some .mid →
    (s.takeInterrupt .mid).grant = if s.nmiArmed = true ∧ s.pins.nmi = false then some .nmi else none

/-- R421: the mask after an interrupt: 0 after Reset and NMI; one less than the level after levels 1 to 4, which
are taken only where the mask is at least the level; after MID 1, but 0 where it was 0. That a MID taken with mask
0 leaves it 0 is the resolution of the manual's conflict C1 (log 39). -/
def Obligations.MaskAfterAnInterrupt : Prop :=
  (∀ s : State, stMask s.resetSequence.st = 0) ∧
  (∀ m, newMask .nmi m = 0) ∧
  (∀ m, newMask .level1 m = 0 ∧ newMask .level2 m = 1 ∧ newMask .level3 m = 2 ∧ newMask .level4 m = 3) ∧
  (∀ m, newMask .mid m = if m = 0 then 0 else 1) ∧
  (∀ s : State, (s.grant = some .level1 → 1 ≤ (stMask s.st).toNat) ∧ (s.grant = some .level2 → 2 ≤ (stMask s.st).toNat) ∧
    (s.grant = some .level3 → 3 ≤ (stMask s.st).toNat) ∧ (s.grant = some .level4 → 4 ≤ (stMask s.st).toNat)) ∧
  ∀ (s : State) (k : IntKind), stMask (s.takeInterrupt k).st = newMask k (stMask s.st)

/-- RTWP undoes a context switch (R460): after BLWP, XOP or an interrupt, if WR13 to WR15 of the new workspace
are writable memory, RTWP gives back WP, ST, and PC as it was saved. -/
def Obligations.ReturnUndoesTheContextSwitch : Prop :=
  ∀ s : State, s.pc.getLsbD 0 = false → s.wp.getLsbD 0 = false →
    (∀ sop : Operand,
      let q := s.ea sop .word
      let w := evenAddr (busReadWord s.plat q.2.bus q.1)
      RegWritable s.plat w 13 → RegWritable s.plat w 14 → RegWritable s.plat w 15 →
      ∃ t u, exec (.blwp sop) s = .next t ∧ exec .rtwp t = .next u ∧ u.wp = s.wp ∧ u.pc = q.2.pc ∧ u.st = s.st) ∧
    (∀ (sop : Operand) (n : BitVec 4),
      let q := s.ea sop .word
      let w := evenAddr (busReadWord s.plat q.2.bus (0x0040 + 4 * n.setWidth 16))
      RegWritable s.plat w 13 → RegWritable s.plat w 14 → RegWritable s.plat w 15 →
      ∃ t u, exec (.xop sop n) s = .next t ∧ exec .rtwp t = .next u ∧ u.wp = s.wp ∧ u.pc = q.2.pc ∧ u.st = s.st) ∧
    (∀ k : IntKind,
      let w := evenAddr (busReadWord s.plat s.bus (intVector k))
      RegWritable s.plat w 13 → RegWritable s.plat w 14 → RegWritable s.plat w 15 →
      ∃ u, exec .rtwp (s.takeInterrupt k) = .next u ∧ u.wp = s.wp ∧ u.pc = s.pc ∧ u.st = s.st)

/-- The reset sequence (R44, R480): WP and PC from >0000 and >0002, the old WP, PC, ST in the new WR13 to WR15,
ST, the latches, FLAG0, FLAG1 and the MID flag cleared, everything held back for one instruction; all other
memory, the decrementer and the other flags stay. The model's choices here: what stays is D28 (log 32); that WR13 to
WR15 get exactly the old words where no instruction was cut short, and nothing is said of them where one was or
where an X awaited its target, is R481's licence and D26 (log 15); the order of reads and stores is D9 (log 28). -/
def Obligations.ResetSequenceLeaves : Prop :=
  ∀ s : State, CpuTurn s → s.resetPending = true →
    let w := evenAddr (busReadWord s.plat s.bus 0x0000)
    ∃ t oldWp oldPc oldSt, step s = .next t ∧ t.wp = w ∧
      t.pc = evenAddr (busReadWord s.plat s.tickDraws.bus 0x0002) ∧
      (s.cutShort = false → s.xPending = none → oldWp = s.wp ∧ oldPc = s.pc ∧ oldSt = s.st) ∧
      ContextStored s.plat { s.bus with flags := t.bus.flags, midFlag := t.bus.midFlag } t.bus w oldWp oldPc oldSt ∧
      t.bus.flags.getLsbD 0 = false ∧ t.bus.flags.getLsbD 1 = false ∧
      (∀ k, 2 ≤ k → t.bus.flags.getLsbD k = s.bus.flags.getLsbD k) ∧ t.bus.midFlag = false ∧
      BusKeptOutside s.plat s.bus t.bus (fun x =>
        InWord (wrAddr w 13) x ∨ InWord (wrAddr w 14) x ∨ InWord (wrAddr w 15) x) ∧
      t = { s with pc := t.pc, wp := t.wp, st := 0, bus := t.bus, latch1 := false, latch3 := false, latch4 := false,
                   midPending := false, idle := false, inhibit := .allButReset, prefetch := none, xPending := none,
                   resetPending := false, cutShort := false }

/-- The Idle, Hold and Reset states, and whose turn it is (R86, R392, R414, R480, R506): idle with nothing granted,
a step puts out the Idle code and the machine stays idle; held or in reset, the CPU takes no step (log 36). A step
performs the head of the agenda: that agent's event, or the CPU's step; where the agenda is empty, the CPU's. That
plain data says who acts next is the model's way (log 13). -/
def Obligations.IdleHoldAndResetStates : Prop :=
  (∀ s : State, AtBoundary s → s.grant = none → s.idle = true →
    step s = .next { s with inhibit := .none, bus := { s.bus with events := .extInstr 0b010 :: s.bus.events } }) ∧
  (∀ s : State, s.agenda = [] → s.resetActive = true ∨ s.holdState = true → step s = .next s) ∧
  (∀ s : State, s.agenda = [] → step s = s.cpuStep) ∧
  (∀ (s : State) (rest : List EnvEvent), s.agenda = .cpu :: rest → step s = { s with agenda := rest }.cpuStep) ∧
  ∀ (s : State) (e : EnvEvent) (rest : List EnvEvent), s.agenda = e :: rest → e ≠ .cpu →
    (∀ k, e ≠ .resetWithin k) → step s = .next ({ s with agenda := rest }.envEvent e)

/-- The decrementer (R447, R448, R449): a tick does nothing unless FLAG1 is 1 and the start count is not 0; in
timer mode the clock ticks it and no edge of INT4/EC does, in event counter mode a falling edge does and neither a
rising edge nor the clock; started at N,
enabled and not 0, it is reloaded and LATCH3 set at the N-th tick and LATCH3 is not set before (D15 to D17,
log 33). -/
def Obligations.DecrementerTicks : Prop :=
  (∀ s : State, s.bus.flags.getLsbD 1 = false ∨ s.bus.decStart = 0 → s.decTick = s) ∧
  (∀ s : State, s.envEvent .timerClock = if s.bus.flags.getLsbD 0 = true then s else s.decTick) ∧
  (∀ s : State, s.bus.flags.getLsbD 0 = true → s.pins.int4 = true →
    s.envEvent (.int4 false) = { s with pins := { s.pins with int4 := false } }.decTick) ∧
  (∀ (s : State) (high : Bool), s.bus.flags.getLsbD 0 = false →
    let t := s.envEvent (.int4 high)
    t.bus = s.bus ∧ t.latch3 = s.latch3) ∧
  (∀ s : State, s.envEvent (.int4 true) = { s with pins := { s.pins with int4 := true } }) ∧
  ∀ s : State, s.bus.flags.getLsbD 1 = true → s.bus.decStart ≠ 0 → s.bus.decCount = s.bus.decStart →
    (∀ k, k < s.bus.decStart.toNat →
      State.decTick^[k] s = { s with bus := { s.bus with decCount := BitVec.ofNat 16 (s.bus.decStart.toNat - k) } }) ∧
    State.decTick^[s.bus.decStart.toNat] s = { s with latch3 := true }

/-- What the other agents do (R81, R86, R424 to R426, R480, R482, R483, R496): each pin takes its level; a
falling INT1, and nothing else of that pin, sets LATCH1; a falling INT4/EC in timer mode, and nothing else of that pin,
LATCH4; a high NMI arms it and a low one leaves it armed or not; the latches are never cleared by a pin; RESET falling enters the
Reset state, ends a Hold and leaves NMI armed only if its pin is high; its rise makes the reset sequence due, samples
READY, and grants Hold first if HOLD is low; a low HOLD is the Hold state, but not during RESET; a line of the CRU
takes the level it is driven at; a DMA write reaches external RAM in the Hold state and nothing else. The model's
choices here: Hold, and so DMA, between instructions only (log 14); FLAG0 alone gates INT4/EC, D14 (log 31); the
latches follow their pins while RESET is low, and NMI's arming restarts from the pin, D19 (log 41); lines are data
(log 11). -/
def Obligations.EnvironmentEvents : Prop :=
  (∀ (s : State) (high : Bool),
    s.envEvent (.nmi high) = { s with pins := { s.pins with nmi := high }, nmiArmed := s.nmiArmed || high } ∧
    s.envEvent (.int1 high) =
      { s with pins := { s.pins with int1 := high }, latch1 := s.latch1 || (s.pins.int1 && !high) } ∧
    (s.bus.flags.getLsbD 0 = false → s.envEvent (.int4 high) =
      { s with pins := { s.pins with int4 := high }, latch4 := s.latch4 || (s.pins.int4 && !high) }) ∧
    (s.pins.int4 = false ∨ high = true → s.envEvent (.int4 high) = { s with pins := { s.pins with int4 := high } })) ∧
  (∀ (s : State) (e : EnvEvent), (s.latch1 = true → (s.envEvent e).latch1 = true) ∧
    (s.latch3 = true → (s.envEvent e).latch3 = true) ∧ (s.latch4 = true → (s.envEvent e).latch4 = true)) ∧
  (∀ s : State,
    (s.resetActive = false → s.envEvent (.reset false) =
      { s with resetActive := true, resetPending := false, holdState := false, nmiArmed := s.pins.nmi }) ∧
    (s.resetActive = true → s.envEvent (.reset false) = s) ∧
    (s.resetActive = true → s.envEvent (.reset true) =
      { s with resetActive := false, resetPending := true, autoWait := s.pins.ready, holdState := !s.pins.hold }) ∧
    (s.resetActive = false → s.envEvent (.reset true) = s)) ∧
  (∀ (s : State) (high : Bool),
    s.envEvent (.hold high) =
      { s with pins := { s.pins with hold := high }, holdState := !high && !s.resetActive } ∧
    s.envEvent (.ready high) = { s with pins := { s.pins with ready := high } }) ∧
  (∀ (s : State) (a : CruAddr) (level : Option Bool),
    let t := s.envEvent (.cruLine a level)
    t = { s with cruLines := t.cruLines } ∧
    ((s.cruLines.map Prod.fst).Pairwise (· < ·) →
      ∀ x, cruLine t.cruLines x = if x = a.toNat then level else cruLine s.cruLines x)) ∧
  ∀ (s : State) (a : Word) (b : Byte),
    let t := s.envEvent (.dmaWrite a b)
    t = { s with bus := { s.bus with mem := t.bus.mem } } ∧
    ∀ x, storedByte s.plat t.bus x =
      if s.holdState = true ∧ placeOf s.plat a = .ext .ram ∧ x = a then b else storedByte s.plat s.bus x

/-- A reset in the middle of the CPU's step (R481): the machine is in the Reset state, with the first so many bus
cycles of that step performed and no other: every byte, every flag, the MID flag and both registers of the
decrementer are as the newest of those cycles left them (R64, R65, R79, R446, R457), and where all were performed
memory is as after the step. In the Reset or Hold state no step is under way and RESET
falls as usual. That the words saved are then free is in `ResetSequenceLeaves` (D26, log 15); the record of bus
cycles is the model's (log 12). -/
def Obligations.ResetWithinAnInstruction : Prop :=
  ∀ (s : State) (k : Nat) (rest : List EnvEvent), s.agenda = .resetWithin k :: rest →
    let s' : State := { s with agenda := rest }
    (s.resetActive = false → s.holdState = false →
      ∃ t u later done, s'.cpuStep = .next t ∧ step s = .next u ∧
        t.bus.events = later ++ done ++ s.bus.events ∧ done.length = min k (later.length + done.length) ∧
        u.bus.events = done ++ s.bus.events ∧
        (∀ x, storedByte s.plat u.bus x =
          (done.findSome? (cycleByte s.plat x)).getD (storedByte s.plat s.bus x)) ∧
        (∀ j, j < 16 → u.bus.flags.getLsbD j = (done.findSome? (cycleFlag j)).getD (s.bus.flags.getLsbD j)) ∧
        u.bus.midFlag = (done.findSome? cycleMid).getD s.bus.midFlag ∧
        u.bus.decStart = (done.findSome? (cycleDec s.plat)).getD s.bus.decStart ∧
        u.bus.decCount = (done.findSome? (cycleDec s.plat)).getD s.bus.decCount ∧
        (later = [] → u.bus.decStart = t.bus.decStart ∧ ∀ x, storedByte s.plat u.bus x = storedByte s.plat t.bus x) ∧
        u = { s with agenda := rest, bus := u.bus, cutShort := true, resetActive := true, resetPending := false,
                     nmiArmed := s.pins.nmi }) ∧
    (s.resetActive = true ∨ s.holdState = true → step s = .next (s'.envEvent (.reset false)))

end
end

