-- ==== Sys2Proof/Laws/Memory.lean ====
section
/-! SUPPORT. Memory: what a list of cells reads as after a store, its canonical form, and what each bus write
does to every byte. -/

namespace Sys2Proof.Machine

/-! ### The list of cells -/

theorem memGet_memInsert (m : Memory) (a : Nat) (b : Byte) (x : Nat) (h : ∀ c ∈ m, c.1 ≠ a) :
    memGet (memInsert a b m) x = if a = x then b else memGet m x := by
  induction m with
  | nil => simp [memInsert, memGet]
  | cons c m ih =>
    obtain ⟨k, c⟩ := c
    have hk : k ≠ a := h (k, c) (by simp)
    have hm := ih fun c hc => h c (List.mem_cons_of_mem _ hc)
    by_cases hlt : a < k
    · simp [memInsert, hlt, memGet]
    · simp only [memInsert, hlt, if_false, memGet, hm]
      by_cases hx : k = x
      · subst hx; simp [Ne.symm hk]
      · simp [hx]

theorem memGet_filter (m : Memory) (a x : Nat) :
    memGet (m.filter fun c => c.1 != a) x = if a = x then memFill else memGet m x := by
  induction m with
  | nil => simp [memGet]
  | cons c m ih =>
    obtain ⟨k, c⟩ := c
    by_cases hk : k = a
    · subst hk
      by_cases hx : k = x
      · subst hx; simpa using ih
      · simp [ih, hx, memGet]
    · by_cases hx : k = x
      · subst hx; simp [hk, memGet, Ne.symm hk]
      · simp [hk, memGet, hx, ih]

/-- Reading after a store: the stored byte at its address, every other byte as before. -/
theorem memGet_memSet (m : Memory) (a : Nat) (b : Byte) (x : Nat) :
    memGet (memSet m a b) x = if a = x then b else memGet m x := by
  unfold memSet
  by_cases hb : b = memFill
  · subst hb; simp [memGet_filter]
  · simp only [hb, if_false]
    rw [memGet_memInsert]
    · rw [memGet_filter]
      by_cases hx : a = x <;> simp [hx]
    · intro c hc; simpa using (List.mem_filter.mp hc).2

theorem mem_memInsert {m : Memory} {a : Nat} {b : Byte} {c : Host.Cell} :
    c ∈ memInsert a b m ↔ c = (a, b) ∨ c ∈ m := by
  induction m with
  | nil => simp [memInsert]
  | cons d m ih =>
    obtain ⟨k, d⟩ := d
    by_cases hlt : a < k
    · simp [memInsert, hlt]
    · simp only [memInsert, hlt, if_false, List.mem_cons, ih]
      tauto

/-- A cell after a store is the stored one or an old one. -/
theorem mem_memSet {m : Memory} {a : Nat} {b : Byte} {c : Host.Cell} (h : c ∈ memSet m a b) :
    c = (a, b) ∨ c ∈ m := by
  unfold memSet at h
  by_cases hb : b = memFill
  · simp only [hb, if_true] at h; exact .inr (List.mem_filter.mp h).1
  · simp only [hb, if_false] at h
    rcases mem_memInsert.mp h with h | h
    · exact .inl h
    · exact .inr (List.mem_filter.mp h).1

/-- The canonical form in words: addresses rising, no listed byte equal to the fill, every address in the space. -/
theorem wf_iff (m : Memory) :
    Memory.wf m = true ↔
      (m.map Prod.fst).Pairwise (· < ·) ∧ ∀ c ∈ m, c.2 ≠ memFill ∧ c.1 < 65536 := by
  simp [Memory.wf]

theorem rising_memInsert (m : Memory) (a : Nat) (b : Byte) (h : (m.map Prod.fst).Pairwise (· < ·))
    (hne : ∀ c ∈ m, c.1 ≠ a) : ((memInsert a b m).map Prod.fst).Pairwise (· < ·) := by
  induction m with
  | nil => simp [memInsert]
  | cons d m ih =>
    obtain ⟨k, d⟩ := d
    have hk : k ≠ a := hne (k, d) (by simp)
    simp only [List.map_cons, List.pairwise_cons] at h
    by_cases hlt : a < k
    · simp only [memInsert, hlt, if_true, List.map_cons, List.pairwise_cons, List.mem_cons]
      refine ⟨?_, h⟩
      rintro y (rfl | hy)
      · exact hlt
      · exact hlt.trans (h.1 y hy)
    · simp only [memInsert, hlt, if_false, List.map_cons, List.pairwise_cons]
      refine ⟨?_, ih h.2 fun c hc => hne c (List.mem_cons_of_mem _ hc)⟩
      intro y hy
      obtain ⟨c, hc, rfl⟩ := List.mem_map.mp hy
      rcases mem_memInsert.mp hc with rfl | hc
      · show k < a; omega
      · exact h.1 _ (List.mem_map_of_mem hc)

/-- A store keeps the canonical form. -/
theorem wf_memSet {m : Memory} {a : Nat} {b : Byte} (h : Memory.wf m = true) (ha : a < 65536) :
    Memory.wf (memSet m a b) = true := by
  rw [wf_iff] at h ⊢
  have hsub : ((m.filter fun c => c.1 != a).map Prod.fst).Pairwise (· < ·) :=
    h.1.sublist (List.filter_sublist.map _)
  refine ⟨?_, ?_⟩
  · unfold memSet
    by_cases hb : b = memFill
    · simpa [hb] using hsub
    · simp only [hb, if_false]
      exact rising_memInsert _ _ _ hsub fun c hc => by simpa using (List.mem_filter.mp hc).2
  · intro c hc
    by_cases hb : b = memFill
    · have : c ∈ m := by
        unfold memSet at hc; simp only [hb, if_true] at hc; exact (List.mem_filter.mp hc).1
      exact h.2 c this
    · rcases mem_memSet hc with rfl | hc
      · exact ⟨hb, ha⟩
      · exact h.2 c hc

/-! ### Addresses -/

@[simp] theorem evenAddr_evenAddr (a : Word) : evenAddr (evenAddr a) = evenAddr a := by
  simp [evenAddr, BitVec.and_assoc]

theorem evenAddr_getLsbD (a : Word) (i : Nat) : (evenAddr a).getLsbD i = (a.getLsbD i && decide (i ≠ 0)) := by
  unfold evenAddr
  by_cases hi : i < 16
  · interval_cases i <;> simp
  · simp [BitVec.getLsbD_of_ge _ _ (not_lt.mp hi)]

@[simp] theorem evenAddr_bit0 (a : Word) : (evenAddr a)[0] = false := by
  rw [← BitVec.getLsbD_eq_getElem, evenAddr_getLsbD]; simp

/-- An even address is its own word's address. -/
theorem evenAddr_of_even {a : Word} (h : a.getLsbD 0 = false) : evenAddr a = a := by
  apply BitVec.eq_of_getLsbD_eq
  intro i _
  rw [evenAddr_getLsbD]
  by_cases hi : i = 0
  · subst hi; rw [h]; simp
  · simp [hi]

theorem evenAddr_toNat (a : Word) : (evenAddr a).toNat = a.toNat / 2 * 2 := by
  have h : evenAddr a = (a >>> 1) <<< 1 := by
    apply BitVec.eq_of_getLsbD_eq
    intro i hi
    rw [evenAddr_getLsbD]
    by_cases h0 : i = 0
    · subst h0; simp
    · have h1 : 1 ≤ i := Nat.one_le_iff_ne_zero.mpr h0
      simp [hi, h0, h1]
  rw [h, BitVec.toNat_shiftLeft, BitVec.toNat_ushiftRight, Nat.shiftRight_eq_div_pow, Nat.shiftLeft_eq]
  have := a.isLt
  omega

theorem evenAddr_succ_toNat (a : Word) : (evenAddr a + 1).toNat = a.toNat / 2 * 2 + 1 := by
  rw [BitVec.toNat_add, evenAddr_toNat]
  have := a.isLt
  simp; omega

/-- The two bytes of a word have the same word address. -/
@[simp] theorem evenAddr_succ (a : Word) : evenAddr (evenAddr a + 1#16) = evenAddr a := by
  apply BitVec.eq_of_toNat_eq
  have h := evenAddr_succ_toNat a
  rw [evenAddr_toNat, show (evenAddr a + 1#16).toNat = _ from h, evenAddr_toNat]; omega

theorem succ_ne_evenAddr (a : Word) : evenAddr a + 1 ≠ evenAddr a := by
  intro h
  have := congrArg BitVec.toNat h
  rw [evenAddr_succ_toNat, evenAddr_toNat] at this
  omega

/-- The bytes of a word are the one at its even address and the one after it. -/
theorem inWord_iff (a x : Word) : evenAddr x = evenAddr a ↔ x = evenAddr a ∨ x = evenAddr a + 1 := by
  constructor
  · intro h
    have h := congrArg BitVec.toNat h
    rw [evenAddr_toNat, evenAddr_toNat] at h
    by_cases hx : x.toNat % 2 = 0
    · left; apply BitVec.eq_of_toNat_eq; rw [evenAddr_toNat]; omega
    · right; apply BitVec.eq_of_toNat_eq; rw [evenAddr_succ_toNat]; omega
  · rintro (rfl | rfl) <;> simp

/-- The on-chip places are whole words. -/
theorem onChip_even (p : Platform) (a : Word) :
    (inRamLo p (evenAddr a) || inRamHi (evenAddr a)) = (inRamLo p a || inRamHi a) := by
  have hlo : inRamLo p (evenAddr a) = inRamLo p a := by simp [inRamLo]
  have hhi : inRamHi (evenAddr a) = inRamHi a := by
    unfold inRamHi
    rw [evenAddr_toNat, decide_eq_decide]
    omega
  rw [hlo, hhi]

/-- The decrementer is a whole word. -/
theorem placeOf_decrementer_even (p : Platform) (a : Word) :
    placeOf p (evenAddr a) = .decrementer ↔ placeOf p a = .decrementer := by
  unfold placeOf
  rw [onChip_even, evenAddr_evenAddr]
  split
  · simp
  · split <;> simp

theorem placeOf_decrementer_of_inWord {p : Platform} {a x : Word} (h : evenAddr x = evenAddr a) :
    placeOf p x = .decrementer ↔ placeOf p a = .decrementer := by
  rw [← placeOf_decrementer_even p x, h, placeOf_decrementer_even]

/-- Where the decrementer is, it is at its word address. -/
theorem evenAddr_of_decrementer {p : Platform} {a : Word} (h : placeOf p a = .decrementer) :
    evenAddr a = evenAddr p.decAddr := by
  unfold placeOf at h
  split at h
  · simp at h
  · split at h
    · assumption
    · simp at h

/-! ### The byte a location holds -/

/-- The first of two joined bytes is the most significant. -/
@[simp] theorem highByte_append (h l : Byte) : highByte (h ++ l) = h := by
  unfold highByte
  ext i hi
  rw [BitVec.getElem_extractLsb', BitVec.getLsbD_append]
  simp [hi]

@[simp] theorem lowByte_append (h l : Byte) : lowByte (h ++ l) = l := by
  unfold lowByte
  ext i hi
  rw [BitVec.getElem_extractLsb', BitVec.getLsbD_append]
  simp [hi]

/-- A word is its two bytes. -/
theorem high_low (v : Word) : (highByte v ++ lowByte v : Word) = v := by
  apply BitVec.eq_of_getLsbD_eq
  intro i hi
  rw [BitVec.getLsbD_append]
  by_cases h : i < 8
  · simp [h, lowByte]
  · simp [h, highByte, show i - 8 < 8 by omega, show 8 + (i - 8) = i by omega]

theorem storedByte_of_ne {p : Platform} {b : Bus} {x : Word} (h : placeOf p x ≠ .decrementer) :
    storedByte p b x = memGet b.mem x.toNat := by
  unfold storedByte
  split
  · exact absurd ‹_› h
  · rfl

theorem storedByte_of_decrementer {p : Platform} {b : Bus} {x : Word} (h : placeOf p x = .decrementer) :
    storedByte p b x = if x.getLsbD 0 then lowByte b.decCount else highByte b.decCount := by
  unfold storedByte
  rw [h]; rfl

/-- Where the platform drives a value, a read gives the byte the location holds. -/
theorem busReadByte_eq_storedByte {p : Platform} {b : Bus} {a : Word}
    (h : placeOf p a ≠ .ext .device) (h' : placeOf p a ≠ .ext .absent) :
    busReadByte p b a = storedByte p b a := by
  unfold busReadByte storedByte
  split <;> simp_all

/-! ### Bytes put in memory -/

@[simp] theorem busPutByte_flags (p : Platform) (b : Bus) (a : Word) (v : Byte) :
    (busPutByte p b a v).flags = b.flags := by unfold busPutByte; split <;> rfl
@[simp] theorem busPutByte_midFlag (p : Platform) (b : Bus) (a : Word) (v : Byte) :
    (busPutByte p b a v).midFlag = b.midFlag := by unfold busPutByte; split <;> rfl
@[simp] theorem busPutByte_decStart (p : Platform) (b : Bus) (a : Word) (v : Byte) :
    (busPutByte p b a v).decStart = b.decStart := by unfold busPutByte; split <;> rfl
@[simp] theorem busPutByte_decCount (p : Platform) (b : Bus) (a : Word) (v : Byte) :
    (busPutByte p b a v).decCount = b.decCount := by unfold busPutByte; split <;> rfl
@[simp] theorem busPutByte_events (p : Platform) (b : Bus) (a : Word) (v : Byte) :
    (busPutByte p b a v).events = b.events := by unfold busPutByte; split <;> rfl
@[simp] theorem busPutByte_draws (p : Platform) (b : Bus) (a : Word) (v : Byte) :
    (busPutByte p b a v).draws = b.draws := by unfold busPutByte; split <;> rfl

/-- A byte put in memory changes that byte, where it is writable, and no other. -/
theorem storedByte_busPutByte (p : Platform) (b : Bus) (a : Word) (v : Byte) (x : Word) :
    storedByte p (busPutByte p b a v) x = if x = a ∧ isWritable p x = true then v else storedByte p b x := by
  have hne : ∀ y : Word, a.toNat = y.toNat ↔ y = a :=
    fun y => ⟨fun h => (BitVec.eq_of_toNat_eq h).symm, fun h => by rw [h]⟩
  by_cases hd : placeOf p x = .decrementer
  · rw [storedByte_of_decrementer hd, storedByte_of_decrementer hd, busPutByte_decCount]
    simp [isWritable, hd]
  · rw [storedByte_of_ne hd, storedByte_of_ne hd]
    by_cases hxa : x = a
    · subst hxa
      unfold busPutByte isWritable
      split <;> simp_all [memGet_memSet]
    · simp only [hxa, false_and, if_false]
      unfold busPutByte
      split <;> simp_all [memGet_memSet, eq_comm]

/-- A word put in memory changes its two bytes, where they are writable, and no other. -/
theorem storedByte_busPutWord (p : Platform) (b : Bus) (a v : Word) (x : Word) :
    storedByte p (busPutWord p b (evenAddr a) v) x =
      if x = evenAddr a ∧ isWritable p x = true then highByte v
      else if x = evenAddr a + 1 ∧ isWritable p x = true then lowByte v
      else storedByte p b x := by
  unfold busPutWord
  rw [storedByte_busPutByte, storedByte_busPutByte]
  by_cases hx : x = evenAddr a
  · subst hx
    simp only [(succ_ne_evenAddr a).symm, false_and, if_false, true_and]; rfl
  · simp only [hx, false_and, if_false]; rfl

/-! ### Cycles noted -/

/-- Cycles noted at once. -/
theorem CyclesNoted.of {b b' : Bus} {cs : List BusEvent} (h : b'.events = cs ++ b.events) : CyclesNoted b b' cs :=
  ⟨[], fun _ hc => (List.not_mem_nil hc).elim, h⟩

/-- Input cycles before others are left unsaid. -/
theorem CyclesNoted.after {b c d : Bus} {cs : List BusEvent} (h : CyclesNoted c d cs) (k : CyclesNoted b c []) :
    CyclesNoted b d cs := by
  obtain ⟨m, hm, h⟩ := h
  obtain ⟨n, hn, k⟩ := k
  refine ⟨m ++ n, fun e he => (List.mem_append.mp he).elim (hm e) (hn e), ?_⟩
  rw [h, k, List.nil_append, List.append_assoc]

theorem CyclesNoted.inputs {b b' : Bus} {cs : List BusEvent} (hc : ∀ c ∈ cs, isInput c = true)
    (h : b'.events = cs ++ b.events) : CyclesNoted b b' [] := ⟨cs, hc, h⟩

theorem OnlyDrew.refl (b : Bus) : OnlyDrew b b := ⟨rfl, .of rfl⟩

theorem OnlyDrew.trans {b c d : Bus} (h : OnlyDrew b c) (k : OnlyDrew c d) : OnlyDrew b d := by
  refine ⟨?_, k.2.after h.2⟩
  rw [k.1, h.1]

/-- Draws taken, and input cycles noted. -/
theorem OnlyDrew.of (b : Bus) (n : Nat) {cs : List BusEvent} (hc : ∀ c ∈ cs, isInput c = true) :
    OnlyDrew b (busNote { b with draws := n } cs) := ⟨rfl, .inputs hc rfl⟩

theorem OnlyDrew.storedByte {b b' : Bus} (h : OnlyDrew b b') (p : Platform) (x : Word) :
    storedByte p b' x = storedByte p b x := by
  rw [h.1]; rfl

/-- The read cycles of a word are input cycles. -/
theorem isInput_readCycles (p : Platform) (iaq : Bool) (a : Word) : ∀ c ∈ readCycles p iaq a, isInput c = true := by
  unfold readCycles
  split <;> simp [isInput]

/-- The model's read cycles of a word are those of R62. -/
theorem readCycles_eq (p : Platform) (iaq : Bool) (a : Word) :
    readCycles p iaq a = loadCycles p iaq a := by
  unfold readCycles loadCycles offChip
  cases placeOf p (evenAddr a) <;> rfl

/-- What lies on chip is the RAM and the decrementer (R66, R67). -/
theorem offChip_eq (p : Platform) (a : Word) :
    offChip p a = (!(inRamLo p a || inRamHi a) && decide (evenAddr a ≠ evenAddr p.decAddr)) := by
  unfold offChip placeOf
  by_cases h : (inRamLo p a || inRamHi a) = true
  · simp [h]
  · by_cases k : evenAddr a = evenAddr p.decAddr <;> simp [h, k]

/-- Both bytes of a word lie on chip, or off chip. -/
@[simp] theorem offChip_succ (p : Platform) (a : Word) : offChip p (evenAddr a + 1#16) = offChip p (evenAddr a) := by
  rw [offChip_eq, offChip_eq, ← onChip_even p (evenAddr a + 1#16), evenAddr_succ, evenAddr_evenAddr]

/-- The pins carry the data of a write off chip, and none of one on chip (R72). -/
theorem pinData_eq (p : Platform) (a : Word) (v : Byte) : pinData p a v = if offChip p a then some v else none := by
  unfold pinData offChip
  cases placeOf p a <;> rfl

/-! ### Word writes -/

/-- The model's write cycles of a word are those of R64. -/
theorem wordCycles_eq (p : Platform) (a v : Word) : wordCycles p (evenAddr a) v = storeCycles p a v := by
  unfold wordCycles storeCycles offChip
  cases placeOf p (evenAddr a) <;> rfl

/-- A word write to the decrementer loads both registers in one cycle (R446). -/
theorem busWriteWord_of_decrementer {p : Platform} {b : Bus} {a : Word} (v : Word)
    (h : placeOf p a = .decrementer) :
    busWriteWord p b a v =
      { b with decStart := v, decCount := v, events := .wordWrite (evenAddr a) v :: b.events } := by
  have h := (placeOf_decrementer_even p a).mpr h
  simp [busWriteWord, busStoreWord, busNote, wordCycles, decLoad, h]

/-- Away from the decrementer a word write is its bytes put in memory and its cycles. -/
theorem busWriteWord_of_ne {p : Platform} {b : Bus} {a : Word} (v : Word) (h : placeOf p a ≠ .decrementer) :
    busWriteWord p b a v = busNote (busPutWord p b (evenAddr a) v) (wordCycles p (evenAddr a) v) := by
  unfold busWriteWord busStoreWord
  rw [if_neg fun e => h ((placeOf_decrementer_even p a).mp e)]

/-- What a word write does, whatever is at the address (R64). -/
theorem busWriteWord_stored (p : Platform) (b : Bus) (a v : Word) :
    WordStored p b (busWriteWord p b a v) a v := by
  by_cases h : placeOf p a = .decrementer
  · have e := wordCycles_eq p a v
    rw [busWriteWord_of_decrementer v h]
    refine ⟨rfl, rfl, .of ?_, ?_⟩
    · rw [← e, wordCycles, (placeOf_decrementer_even p a).mpr h]; rfl
    · rw [if_pos ((placeOf_decrementer_even p a).mpr h)]
      refine ⟨rfl, rfl, fun x hx => ?_⟩
      have hd : placeOf p x ≠ .decrementer := fun e =>
        hx ((evenAddr_of_decrementer e).trans (evenAddr_of_decrementer h).symm)
      rw [storedByte_of_ne hd, storedByte_of_ne hd]
  · rw [busWriteWord_of_ne v h]
    have h := fun e => h ((placeOf_decrementer_even p a).mp e)
    unfold WordStored
    rw [if_neg h, ← wordCycles_eq]
    exact ⟨by simp [busNote, busPutWord], by simp [busNote, busPutWord], .of (by simp [busNote, busPutWord]),
      by simp [busNote, busPutWord], by simp [busNote, busPutWord], storedByte_busPutWord p b a v⟩

@[simp] theorem busWriteWord_flags (p : Platform) (b : Bus) (a v : Word) :
    (busWriteWord p b a v).flags = b.flags := (busWriteWord_stored p b a v).1
@[simp] theorem busWriteWord_midFlag (p : Platform) (b : Bus) (a v : Word) :
    (busWriteWord p b a v).midFlag = b.midFlag := (busWriteWord_stored p b a v).2.1

/-! ### Byte writes -/

/-- A byte write to the decrementer loads both registers in one cycle at the byte's address (R72, R451). -/
theorem busWriteByte_of_decrementer {p : Platform} {b : Bus} {a : Word} (v : Byte) (h : placeOf p a = .decrementer) :
    busWriteByte p b a v =
      { b with decStart := decWord b a v, decCount := decWord b a v, draws := b.draws + 1,
               events := .wordWrite a (decWord b a v) :: b.events } := if_pos h

/-- Away from the decrementer a byte write is the byte put in memory and its cycle. -/
theorem busWriteByte_of_ne {p : Platform} {b : Bus} {a : Word} (v : Byte) (h : placeOf p a ≠ .decrementer) :
    busWriteByte p b a v = busNote (busPutByte p b a v) [.byteWrite a v] := if_neg h

/-- What a byte write does, whatever is at the address (R65). -/
theorem busWriteByte_stored (p : Platform) (b : Bus) (a : Word) (v : Byte) :
    ByteStored p b (busWriteByte p b a v) a v := by
  unfold ByteStored
  by_cases h : placeOf p a = .decrementer
  · rw [if_pos h, busWriteByte_of_decrementer v h]
    refine ⟨rfl, rfl, rfl, ?_, .of rfl, fun x hx => ?_⟩
    · rw [storedByte_of_decrementer h]
      unfold decWord
      split <;> simp
    · have hd : placeOf p x ≠ .decrementer := fun e =>
        hx ((evenAddr_of_decrementer e).trans (evenAddr_of_decrementer h).symm)
      rw [storedByte_of_ne hd, storedByte_of_ne hd]
  · rw [if_neg h, busWriteByte_of_ne v h]
    exact ⟨busPutByte_flags .., busPutByte_midFlag .., busPutByte_decStart .., busPutByte_decCount ..,
      .of (congrArg _ (busPutByte_events ..)), storedByte_busPutByte p b a v⟩

@[simp] theorem busWriteByte_flags (p : Platform) (b : Bus) (a : Word) (v : Byte) :
    (busWriteByte p b a v).flags = b.flags := (busWriteByte_stored p b a v).1
@[simp] theorem busWriteByte_midFlag (p : Platform) (b : Bus) (a : Word) (v : Byte) :
    (busWriteByte p b a v).midFlag = b.midFlag := (busWriteByte_stored p b a v).2.1

/-! ### What is kept -/

theorem CycleIn.mono {u w : Word → Prop} (huw : ∀ x, u x → w x) {c : BusEvent} (h : CycleIn u c) : CycleIn w c := by
  cases c with
  | memRead a q => exact h
  | cruIn a => exact h
  | byteWrite a v => exact huw a h
  | wordWrite a v => exact ⟨huw _ h.1, huw _ h.2⟩
  | cruOut a v => exact h
  | extInstr c => exact h

theorem BusKeptOutside.refl (p : Platform) (b : Bus) (u : Word → Prop) : BusKeptOutside p b b u :=
  ⟨fun _ _ => rfl, fun _ => ⟨rfl, rfl⟩, [], rfl, fun _ hc => (List.not_mem_nil hc).elim⟩

/-- Two changes one after the other keep what both keep. -/
theorem BusKeptOutside.trans {p : Platform} {b c d : Bus} {u : Word → Prop}
    (h : BusKeptOutside p b c u) (k : BusKeptOutside p c d u) : BusKeptOutside p b d u := by
  obtain ⟨h1, h2, m, h3, h4⟩ := h
  obtain ⟨k1, k2, n, k3, k4⟩ := k
  refine ⟨fun x hx => (k1 x hx).trans (h1 x hx),
    fun hx => ⟨(k2 hx).1.trans (h2 hx).1, (k2 hx).2.trans (h2 hx).2⟩, n ++ m, ?_, ?_⟩
  · rw [k3, h3, List.append_assoc]
  · intro e he
    rcases List.mem_append.mp he with he | he
    · exact k4 e he
    · exact h4 e he

theorem BusKeptOutside.mono {p : Platform} {b c : Bus} {u w : Word → Prop} (h : BusKeptOutside p b c u)
    (huw : ∀ x, u x → w x) : BusKeptOutside p b c w := by
  obtain ⟨h1, h2, m, h3, h4⟩ := h
  exact ⟨fun x hx => h1 x fun e => hx (huw x e), fun k => h2 fun x hx e => k x hx (huw x e), m, h3,
    fun c hc => (h4 c hc).mono huw⟩

theorem CycleIn.of_isInput {u : Word → Prop} {c : BusEvent} (h : isInput c = true) : CycleIn u c := by
  cases c <;> trivial

/-- Cycles of a set after input cycles are cycles of the set. -/
theorem CyclesNoted.kept {b b' : Bus} {cs : List BusEvent} {u : Word → Prop} (h : CyclesNoted b b' cs)
    (hc : ∀ c ∈ cs, CycleIn u c) : ∃ new, b'.events = new ++ b.events ∧ ∀ c ∈ new, CycleIn u c := by
  obtain ⟨m, hm, h⟩ := h
  exact ⟨cs ++ m, by rw [h, List.append_assoc],
    fun e he => (List.mem_append.mp he).elim (hc e) fun k => .of_isInput (hm e k)⟩

/-- A word store keeps everything outside its word. -/
theorem WordStored.kept {p : Platform} {b b' : Bus} {a v : Word} (h : WordStored p b b' a v) :
    BusKeptOutside p b b' (InWord a) := by
  obtain ⟨-, -, he, h⟩ := h
  have cycles : ∀ c ∈ storeCycles p a v, CycleIn (InWord a) c := by
    unfold storeCycles
    split <;> simp [CycleIn, InWord]
  by_cases hd : placeOf p (evenAddr a) = .decrementer
  · rw [if_pos hd] at h
    exact ⟨h.2.2, fun k => absurd rfl (k a ((placeOf_decrementer_even p a).mp hd)), he.kept cycles⟩
  · rw [if_neg hd] at h
    obtain ⟨h1, h2, h4⟩ := h
    refine ⟨?_, fun _ => ⟨h1, h2⟩, he.kept cycles⟩
    intro x hx
    have hx := fun e => hx ((inWord_iff a x).mpr e)
    rw [h4, if_neg fun e => hx (.inl e.1), if_neg fun e => hx (.inr e.1)]

/-- A byte store keeps everything outside its byte, or outside the decrementer. -/
theorem ByteStored.kept {p : Platform} {b b' : Bus} {a : Word} {v : Byte} (h : ByteStored p b b' a v) :
    BusKeptOutside p b b' (InByte p a) := by
  obtain ⟨-, -, h⟩ := h
  by_cases hd : placeOf p a = .decrementer
  · rw [if_pos hd] at h
    refine ⟨fun x hx => h.2.2.2 x fun e => hx (.inr ⟨hd, e⟩), fun k => absurd (.inl rfl) (k a hd),
      h.2.2.1.kept ?_⟩
    simp [CycleIn, InByte, hd]
  · rw [if_neg hd] at h
    obtain ⟨h1, h2, h3, h4⟩ := h
    refine ⟨fun x hx => ?_, fun _ => ⟨h1, h2⟩, h3.kept ?_⟩
    · rw [h4, if_neg fun e => hx (.inl e.1)]
    · simp [CycleIn, InByte]

/-- Input cycles keep everything. -/
theorem OnlyDrew.kept {p : Platform} {b b' : Bus} {u : Word → Prop} (h : OnlyDrew b b') : BusKeptOutside p b b' u :=
  ⟨fun x _ => h.storedByte p x, fun _ => by rw [h.1]; exact ⟨rfl, rfl⟩,
    h.2.kept fun _ hc => (List.not_mem_nil hc).elim⟩

/-- A store after input cycles is a store. -/
theorem WordStored.after {p : Platform} {b c d : Bus} {a v : Word} (h : WordStored p c d a v) (k : OnlyDrew b c) :
    WordStored p b d a v := by
  obtain ⟨h1, h2, h3, h4⟩ := h
  have hk := k.storedByte p
  refine ⟨h1.trans (by rw [k.1]), h2.trans (by rw [k.1]), h3.after k.2, ?_⟩
  simp only [hk] at h4
  rw [k.1] at h4
  exact h4

theorem ByteStored.after {p : Platform} {b c d : Bus} {a : Word} {v : Byte} (h : ByteStored p c d a v)
    (k : OnlyDrew b c) : ByteStored p b d a v := by
  obtain ⟨h1, h2, h⟩ := h
  have hk := k.storedByte p
  refine ⟨h1.trans (by rw [k.1]), h2.trans (by rw [k.1]), ?_⟩
  split at h
  · rw [if_pos ‹_›]
    simp only [hk] at h
    exact ⟨h.1, h.2.1, h.2.2.1.after k.2, h.2.2.2⟩
  · rw [if_neg ‹_›]
    simp only [hk] at h
    exact ⟨h.1.trans (by rw [k.1]), h.2.1.trans (by rw [k.1]), h.2.2.1.after k.2, h.2.2.2⟩

end Sys2Proof.Machine
end

