-- ==== Sys2Proof/Laws/Flags.lean ====
section
/-! SUPPORT. The status register: single bits, masks of kept bits, and the flag computations in terms of
integers. -/

namespace Sys2Proof.Machine

/-! ### Single bits -/

theorem getLsbD_one_shiftLeft (n i : Nat) (hi : i < 16) : (1#16 <<< n).getLsbD i = decide (i = n) := by
  rw [BitVec.getLsbD_shiftLeft, BitVec.getLsbD_one, Bool.eq_iff_iff]
  simp only [Bool.and_eq_true, Bool.not_eq_true', decide_eq_true_eq, decide_eq_false_iff_not]
  omega

/-- A status bit after one bit is written. -/
theorem getLsbD_stPut (n i : Nat) (b : Bool) (st : Word) (hi : i < 16) :
    (stPut n b st).getLsbD i = if i = n then b else st.getLsbD i := by
  have h1 := getLsbD_one_shiftLeft n i hi
  unfold stPut
  cases b
  · rw [if_neg (by simp), BitVec.getLsbD_and, BitVec.getLsbD_not, h1, decide_eq_true hi]
    by_cases h : i = n <;> simp [h]
  · rw [if_pos rfl, BitVec.getLsbD_or, h1]
    by_cases h : i = n <;> simp [h]

/-! ### Kept bits -/

/-- A mask of written bits, read bit by bit. -/
theorem statusKept_iff (m st st' : Word) :
    StatusKept m st st' ↔ ∀ i, i < 16 → m.getLsbD i = false → st'.getLsbD i = st.getLsbD i := by
  unfold StatusKept
  constructor
  · intro h i hi hm
    have := congrArg (fun v => v.getLsbD i) h
    simpa only [BitVec.getLsbD_and, BitVec.getLsbD_not, hi, hm, decide_true, Bool.not_false, Bool.and_true] using this
  · intro h
    apply BitVec.eq_of_getLsbD_eq
    intro i hi
    simp only [BitVec.getLsbD_and, BitVec.getLsbD_not]
    cases hm : m.getLsbD i
    · rw [h i hi hm]
    · simp

theorem StatusKept.refl (m st : Word) : StatusKept m st st := rfl

theorem StatusKept.trans {m st st' st'' : Word} (h : StatusKept m st st') (k : StatusKept m st' st'') :
    StatusKept m st st'' := Eq.trans k h

/-- Writing a bit of the mask keeps the others. -/
theorem StatusKept.put {m st st' : Word} {n : Nat} {b : Bool} (hn : m.getLsbD n = true)
    (h : StatusKept m st st') : StatusKept m st (stPut n b st') := by
  rw [statusKept_iff] at h ⊢
  intro i hi hm
  rw [getLsbD_stPut _ _ _ _ hi, if_neg (by rintro rfl; simp [hn] at hm), h i hi hm]

/-! ### Comparisons -/

theorem ne_zero_iff {n : Nat} (r : BitVec n) : (r != 0) = decide (r.toNat ≠ 0) := by
  rw [Bool.eq_iff_iff]; simp [BitVec.toNat_eq]

theorem pos_iff {n : Nat} (r : BitVec n) : (!r.msb && r != 0) = decide (0 < r.toInt) := by
  rw [ne_zero_iff, BitVec.msb_eq_toInt, Bool.eq_iff_iff]
  simp only [Bool.and_eq_true, Bool.not_eq_true', decide_eq_false_iff_not, decide_eq_true_eq, not_lt]
  have : r.toNat = 0 ↔ r.toInt = 0 := by
    rw [← BitVec.toInt_zero (w := n), BitVec.toInt_inj, BitVec.toNat_eq]; simp
  omega

/-- ST0 to ST2 written together. -/
theorem getLsbD_put3 (l a e : Bool) (st : Word) :
    (stPut stL l (stPut stA a (stPut stEQ e st))).getLsbD stL = l ∧
    (stPut stL l (stPut stA a (stPut stEQ e st))).getLsbD stA = a ∧
    (stPut stL l (stPut stA a (stPut stEQ e st))).getLsbD stEQ = e := by
  refine ⟨?_, ?_, ?_⟩
  · rw [getLsbD_stPut _ _ _ _ (by decide), if_pos rfl]
  · rw [getLsbD_stPut _ _ _ _ (by decide), if_neg (by decide), getLsbD_stPut _ _ _ _ (by decide), if_pos rfl]
  · rw [getLsbD_stPut _ _ _ _ (by decide), if_neg (by decide), getLsbD_stPut _ _ _ _ (by decide),
      if_neg (by decide), getLsbD_stPut _ _ _ _ (by decide), if_pos rfl]

/-- Comparing a result with 0 (R160, R161). -/
theorem cmp0_compared {n : Nat} (r : BitVec n) (st : Word) : ComparedToZero r (cmp0 r st) := by
  obtain ⟨h1, h2, h3⟩ := getLsbD_put3 (r != 0) (!r.msb && r != 0) (r == 0) st
  refine ⟨h1.trans (ne_zero_iff r), h2.trans (pos_iff r), h3.trans ?_⟩
  rw [Bool.eq_iff_iff]; simp [BitVec.toNat_eq]

theorem cmp0_kept {n : Nat} {m st st' : Word} (r : BitVec n) (h15 : m.getLsbD 15 = true)
    (h14 : m.getLsbD 14 = true) (h13 : m.getLsbD 13 = true) (h : StatusKept m st st') :
    StatusKept m st (cmp0 r st') := ((h.put h13).put h14).put h15

/-- Comparing two operands (R162). -/
theorem cmpOperands_compared {n : Nat} (s d : BitVec n) (st : Word) :
    ComparedOperands s d (cmpOperands s d st) := by
  obtain ⟨h1, h2, h3⟩ := getLsbD_put3 (d.ult s) (d.slt s) (s == d) st
  refine ⟨h1, h2, h3.trans ?_⟩
  rw [Bool.eq_iff_iff]; simp

theorem cmpOperands_kept {n : Nat} {m st st' : Word} (s d : BitVec n) (h15 : m.getLsbD 15 = true)
    (h14 : m.getLsbD 14 = true) (h13 : m.getLsbD 13 = true) (h : StatusKept m st st') :
    StatusKept m st (cmpOperands s d st') := ((h.put h13).put h14).put h15

/-- A later write of another bit leaves the comparison. -/
theorem ComparedToZero.put {n : Nat} {r : BitVec n} {st : Word} {k : Nat} {b : Bool} (hk : k < 13)
    (h : ComparedToZero r st) : ComparedToZero r (stPut k b st) := by
  unfold ComparedToZero at *
  rw [getLsbD_stPut _ _ _ _ (by decide), getLsbD_stPut _ _ _ _ (by decide), getLsbD_stPut _ _ _ _ (by decide),
    if_neg (by unfold stL; omega), if_neg (by unfold stA; omega), if_neg (by unfold stEQ; omega)]
  exact h

theorem ComparedOperands.put {n : Nat} {s d : BitVec n} {st : Word} {k : Nat} {b : Bool} (hk : k < 13)
    (h : ComparedOperands s d st) : ComparedOperands s d (stPut k b st) := by
  unfold ComparedOperands at *
  rw [getLsbD_stPut _ _ _ _ (by decide), getLsbD_stPut _ _ _ _ (by decide), getLsbD_stPut _ _ _ _ (by decide),
    if_neg (by unfold stL; omega), if_neg (by unfold stA; omega), if_neg (by unfold stEQ; omega)]
  exact h

/-! ### Addition and subtraction -/

theorem setWidth_succ_toNat {n : Nat} (a : BitVec n) : (a.setWidth (n + 1)).toNat = a.toNat := by
  rw [BitVec.toNat_setWidth, Nat.mod_eq_of_lt]
  exact lt_trans a.isLt (Nat.pow_lt_pow_right (by decide) (Nat.lt_succ_self n))

/-- The top bit of an (n+1)-bit number. -/
theorem topBit {n : Nat} (t : BitVec (n + 1)) : t.getLsbD n = decide (2 ^ n ≤ t.toNat) := by
  have := BitVec.msb_eq_decide t
  rwa [BitVec.msb_eq_getLsbD_last] at this

@[simp] theorem addN_r {n : Nat} (a b : BitVec n) : (addN a b).r = a + b := by
  apply BitVec.eq_of_toNat_eq
  show (BitVec.setWidth n (a.setWidth (n + 1) + b.setWidth (n + 1))).toNat = _
  rw [BitVec.toNat_setWidth, BitVec.toNat_add, BitVec.toNat_add, setWidth_succ_toNat, setWidth_succ_toNat,
    Nat.mod_mod_of_dvd _ (Nat.pow_dvd_pow 2 (Nat.le_succ n))]

/-- The carry out of an addition is a sum of 2^n or more (R164). -/
theorem addN_c {n : Nat} (a b : BitVec n) : (addN a b).c = decide (2 ^ n ≤ a.toNat + b.toNat) := by
  simp only [addN, topBit, BitVec.toNat_add, setWidth_succ_toNat]
  rw [Nat.mod_eq_of_lt]
  have := a.isLt; have := b.isLt
  rw [Nat.pow_succ]; omega

/-- Signed overflow of an addition is a sum outside the signed range (R164). -/
theorem addN_ov {n : Nat} (a b : BitVec n) : (addN a b).ov = outOfRange n (a.toInt + b.toInt) := by
  have h : (addN a b).ov = a.saddOverflow b := by
    rw [BitVec.saddOverflow_eq, ← addN_r a b]
    show (a.msb == b.msb && (addN a b).r.msb != a.msb) = _
    cases a.msb <;> cases b.msb <;> cases (addN a b).r.msb <;> rfl
  rw [h]
  unfold BitVec.saddOverflow outOfRange
  rw [Bool.eq_iff_iff]; simp only [Bool.or_eq_true, decide_eq_true_eq]; tauto

@[simp] theorem subN_r {n : Nat} (d s : BitVec n) : (subN d s).r = d - s := by
  apply BitVec.eq_of_toNat_eq
  show (BitVec.setWidth n (d.setWidth (n + 1) + (~~~s).setWidth (n + 1) + 1)).toNat = _
  rw [BitVec.toNat_setWidth, BitVec.toNat_add, BitVec.toNat_add, setWidth_succ_toNat, setWidth_succ_toNat,
    BitVec.toNat_not, BitVec.toNat_sub]
  have hs := s.isLt
  have hp : 2 ^ (n + 1) = 2 * 2 ^ n := by rw [Nat.pow_succ, Nat.mul_comm]
  have h1 : (1 : BitVec (n + 1)).toNat = 1 := by
    rw [show (1 : BitVec (n + 1)) = BitVec.ofNat (n + 1) 1 from rfl, BitVec.toNat_ofNat, Nat.mod_eq_of_lt]
    exact Nat.one_lt_two_pow (Nat.succ_ne_zero n)
  rw [h1, Nat.mod_add_mod, Nat.mod_mod_of_dvd _ (Nat.pow_dvd_pow 2 (Nat.le_succ n))]
  congr 1; omega

/-- The carry of a subtraction is 1 exactly where there is no borrow (R165; log 23). -/
theorem subN_c {n : Nat} (d s : BitVec n) : (subN d s).c = decide (s.toNat ≤ d.toNat) := by
  have h1 : (1 : BitVec (n + 1)).toNat = 1 := by
    rw [show (1 : BitVec (n + 1)) = BitVec.ofNat (n + 1) 1 from rfl, BitVec.toNat_ofNat, Nat.mod_eq_of_lt]
    exact Nat.one_lt_two_pow (Nat.succ_ne_zero n)
  have hs := s.isLt
  have hd := d.isLt
  have hp : 2 ^ (n + 1) = 2 * 2 ^ n := by rw [Nat.pow_succ, Nat.mul_comm]
  simp only [subN, topBit, BitVec.toNat_add, setWidth_succ_toNat, BitVec.toNat_not, h1]
  rw [Nat.mod_add_mod, Nat.mod_eq_of_lt (by omega), decide_eq_decide]
  omega

/-- Signed overflow of a subtraction is a difference outside the signed range (R165). -/
theorem subN_ov {n : Nat} (d s : BitVec n) : (subN d s).ov = outOfRange n (d.toInt - s.toInt) := by
  have h : (subN d s).ov = d.ssubOverflow s := by
    rw [BitVec.ssubOverflow_eq, ← subN_r d s]
    show (s.msb != d.msb && (subN d s).r.msb != d.msb) = _
    cases d.msb <;> cases s.msb <;> cases (subN d s).r.msb <;> rfl
  rw [h]
  unfold BitVec.ssubOverflow outOfRange
  rw [Bool.eq_iff_iff]; simp only [Bool.or_eq_true, decide_eq_true_eq]; tauto

/-! ### Whole status updates -/

theorem getLsbD_stSum {n : Nat} (t : AluSum n) (st : Word) :
    (stSum t st).getLsbD stC = t.c ∧ (stSum t st).getLsbD stOV = t.ov := by
  unfold stSum
  constructor
  · rw [getLsbD_stPut _ _ _ _ (by decide), if_neg (by decide), getLsbD_stPut _ _ _ _ (by decide), if_pos rfl]
  · rw [getLsbD_stPut _ _ _ _ (by decide), if_pos rfl]

/-- ST0 to ST4 of a sum or a difference, and nothing else. -/
theorem stSum_compared {n : Nat} (t : AluSum n) (st : Word) : ComparedToZero t.r (stSum t st) :=
  ((cmp0_compared t.r st).put (by decide)).put (by decide)

theorem stSum_kept {n : Nat} {m st st' : Word} (t : AluSum n) (hm : m &&& 0xF800 = 0xF800)
    (h : StatusKept m st st') : StatusKept m st (stSum t st') := by
  have hb : ∀ i, i < 16 → (0xF800 : Word).getLsbD i = true → m.getLsbD i = true := by
    intro i hi hF
    have := congrArg (fun v => v.getLsbD i) hm
    simp only [BitVec.getLsbD_and, hF, Bool.and_true] at this
    exact this
  exact ((cmp0_kept t.r (hb 15 (by decide) (by decide)) (hb 14 (by decide) (by decide))
    (hb 13 (by decide) (by decide)) h).put (hb 12 (by decide) (by decide))).put (hb 11 (by decide) (by decide))

/-- The parity of a byte (R163). -/
theorem parity8_eq (b : Byte) : parity8 b = oddOnes b := by
  revert b; decide

/-- ST3 and ST4 after a sum, in terms of integers (R164). -/
theorem sumCarry_stSum {n : Nat} (a b : BitVec n) (st : Word) : SumCarry a b (stSum (addN a b) st) := by
  obtain ⟨h1, h2⟩ := getLsbD_stSum (addN a b) st
  exact ⟨h1.trans (addN_c a b), h2.trans (addN_ov a b)⟩

/-- ST3 and ST4 after a difference, in terms of integers (R165). -/
theorem differenceCarry_stSum {n : Nat} (d s : BitVec n) (st : Word) :
    DifferenceCarry d s (stSum (subN d s) st) := by
  obtain ⟨h1, h2⟩ := getLsbD_stSum (subN d s) st
  exact ⟨h1.trans (subN_c d s), h2.trans (subN_ov d s)⟩

/-- The sum of two naturals, cut to n bits, is the sum of the bit vectors. -/
theorem ofNat_add_toNat {n : Nat} (a b : BitVec n) : BitVec.ofNat n (a.toNat + b.toNat) = a + b := by
  apply BitVec.eq_of_toNat_eq; simp

/-- The difference of two integers, cut to n bits, is the difference of the bit vectors. -/
theorem ofInt_sub_toInt {n : Nat} (a b : BitVec n) : BitVec.ofInt n (a.toInt - b.toInt) = a - b := by
  apply BitVec.eq_of_toInt_eq; rw [BitVec.toInt_ofInt, BitVec.toInt_sub]

/-! ### Byte results (R161, R163) -/

theorem stByte_kept {m st st' : Word} (r : Byte) (hm : m &&& 0xE400 = 0xE400) (h : StatusKept m st st') :
    StatusKept m st (stByte r st') := by
  have hb : ∀ i, i < 16 → (0xE400 : Word).getLsbD i = true → m.getLsbD i = true := by
    intro i hi hF
    have := congrArg (fun v => v.getLsbD i) hm
    simp only [BitVec.getLsbD_and, hF, Bool.and_true] at this
    exact this
  exact (cmp0_kept r (hb 15 (by decide) (by decide)) (hb 14 (by decide) (by decide))
    (hb 13 (by decide) (by decide)) h).put (hb 10 (by decide) (by decide))

theorem stByte_compared (r : Byte) (st : Word) : ComparedToZero r (stByte r st) :=
  (cmp0_compared r st).put (by decide)

theorem stByte_parity (r : Byte) (st : Word) : (stByte r st).getLsbD stOP = oddOnes r := by
  unfold stByte; rw [getLsbD_stPut _ _ _ _ (by decide), if_pos rfl, parity8_eq]

theorem stSumByte_kept {st st' : Word} (t : AluSum 8) (h : StatusKept 0xFC00 st st') :
    StatusKept 0xFC00 st (stSumByte t st') := (stSum_kept t (by decide) h).put (by decide)

theorem stSumByte_compared (t : AluSum 8) (st : Word) : ComparedToZero t.r (stSumByte t st) :=
  (stSum_compared t st).put (by decide)

theorem stSumByte_parity (t : AluSum 8) (st : Word) : (stSumByte t st).getLsbD stOP = oddOnes t.r := by
  unfold stSumByte; rw [getLsbD_stPut _ _ _ _ (by decide), if_pos rfl, parity8_eq]

theorem getLsbD_stSumByte (t : AluSum 8) (st : Word) :
    (stSumByte t st).getLsbD stC = t.c ∧ (stSumByte t st).getLsbD stOV = t.ov := by
  unfold stSumByte
  rw [getLsbD_stPut _ _ _ _ (by decide), getLsbD_stPut _ _ _ _ (by decide), if_neg (by decide), if_neg (by decide)]
  exact getLsbD_stSum t st

/-! ### The mask field -/

theorem getLsbD_stPutMask (m : BitVec 4) (st : Word) (i : Nat) (hi : i < 16) :
    (stPutMask m st).getLsbD i = if i < 4 then m.getLsbD i else st.getLsbD i := by
  unfold stPutMask
  rw [BitVec.getLsbD_append]
  by_cases h : i < 4
  · simp [h]
  · simp [h, show i - 4 < 12 by omega, show 4 + (i - 4) = i by omega]

theorem stPutMask_kept (m : BitVec 4) (st : Word) : StatusKept 0x000F st (stPutMask m st) := by
  rw [statusKept_iff]
  intro i hi h
  rw [getLsbD_stPutMask _ _ _ hi, if_neg]
  intro h4
  interval_cases i <;> simp at h

@[simp] theorem stMask_stPutMask (m : BitVec 4) (st : Word) : stMask (stPutMask m st) = m := by
  apply BitVec.eq_of_getLsbD_eq
  intro i hi
  have h := getLsbD_stPutMask m st i (by omega)
  rw [if_pos hi] at h
  simp only [stMask, BitVec.getLsbD_extractLsb', hi, decide_true, Bool.true_and, Nat.zero_add, h]

end Sys2Proof.Machine
end

