-- ==== Sys2Proof/Laws/State.lean ====
section
/-! SUPPORT. One lemma per field per update of State, so that no later proof unfolds a record update. -/

namespace Sys2Proof.Machine

/-! ### Reads give what is there, note their cycles and take one draw -/

@[simp] theorem State.readWord_snd (s : State) (a : Word) : (s.readWord a).2 =
    s.inputCycles (readCycles s.plat false a) := rfl
@[simp] theorem State.readWord_fst (s : State) (a : Word) : (s.readWord a).1 = busReadWord s.plat s.bus a := rfl
@[simp] theorem State.readByte_snd (s : State) (a : Word) : (s.readByte a).2 =
    s.inputCycles [.memRead a false] := rfl
@[simp] theorem State.readByte_fst (s : State) (a : Word) : (s.readByte a).1 = busReadByte s.plat s.bus a := rfl
@[simp] theorem State.readReg_snd (s : State) (n : Reg) : (s.readReg n).2 =
    s.inputCycles (readCycles s.plat false (wrAddr s.wp n)) := rfl
@[simp] theorem State.readReg_fst (s : State) (n : Reg) :
    (s.readReg n).1 = busReadWord s.plat s.bus (wrAddr s.wp n) := rfl
@[simp] theorem State.fetch_eq (s : State) : s.fetch = s.fetchAs false := rfl
@[simp] theorem State.fetchAs_fst (iaq : Bool) (s : State) : (s.fetchAs iaq).1 = busReadWord s.plat s.bus s.pc := rfl
@[simp] theorem State.cruIn_snd (s : State) (a : CruAddr) : (s.cruIn a).2 = s.inputCycles [.cruIn a] := rfl
@[simp] theorem State.cruIn_fst (s : State) (a : CruAddr) : (s.cruIn a).1 = s.cruBit a := rfl

/-! ### One more draw taken. -/

@[simp] theorem State.tickDraws_pc (s : State) :
    s.tickDraws.pc = s.pc := rfl
@[simp] theorem State.tickDraws_wp (s : State) :
    s.tickDraws.wp = s.wp := rfl
@[simp] theorem State.tickDraws_st (s : State) :
    s.tickDraws.st = s.st := rfl
@[simp] theorem State.tickDraws_bus (s : State) :
    s.tickDraws.bus = { s.bus with draws := s.bus.draws + 1 } := rfl
@[simp] theorem State.tickDraws_latch1 (s : State) :
    s.tickDraws.latch1 = s.latch1 := rfl
@[simp] theorem State.tickDraws_latch3 (s : State) :
    s.tickDraws.latch3 = s.latch3 := rfl
@[simp] theorem State.tickDraws_latch4 (s : State) :
    s.tickDraws.latch4 = s.latch4 := rfl
@[simp] theorem State.tickDraws_nmiArmed (s : State) :
    s.tickDraws.nmiArmed = s.nmiArmed := rfl
@[simp] theorem State.tickDraws_inhibit (s : State) :
    s.tickDraws.inhibit = s.inhibit := rfl
@[simp] theorem State.tickDraws_midPending (s : State) :
    s.tickDraws.midPending = s.midPending := rfl
@[simp] theorem State.tickDraws_prefetch (s : State) :
    s.tickDraws.prefetch = s.prefetch := rfl
@[simp] theorem State.tickDraws_xPending (s : State) :
    s.tickDraws.xPending = s.xPending := rfl
@[simp] theorem State.tickDraws_idle (s : State) :
    s.tickDraws.idle = s.idle := rfl
@[simp] theorem State.tickDraws_holdState (s : State) :
    s.tickDraws.holdState = s.holdState := rfl
@[simp] theorem State.tickDraws_resetActive (s : State) :
    s.tickDraws.resetActive = s.resetActive := rfl
@[simp] theorem State.tickDraws_resetPending (s : State) :
    s.tickDraws.resetPending = s.resetPending := rfl
@[simp] theorem State.tickDraws_cutShort (s : State) :
    s.tickDraws.cutShort = s.cutShort := rfl
@[simp] theorem State.tickDraws_autoWait (s : State) :
    s.tickDraws.autoWait = s.autoWait := rfl
@[simp] theorem State.tickDraws_pins (s : State) :
    s.tickDraws.pins = s.pins := rfl
@[simp] theorem State.tickDraws_cruLines (s : State) :
    s.tickDraws.cruLines = s.cruLines := rfl
@[simp] theorem State.tickDraws_agenda (s : State) :
    s.tickDraws.agenda = s.agenda := rfl
@[simp] theorem State.tickDraws_plat (s : State) :
    s.tickDraws.plat = s.plat := rfl

/-! ### Input cycles performed. -/

@[simp] theorem State.inputCycles_pc (s : State) (c : List BusEvent) :
    (s.inputCycles c).pc = s.pc := rfl
@[simp] theorem State.inputCycles_wp (s : State) (c : List BusEvent) :
    (s.inputCycles c).wp = s.wp := rfl
@[simp] theorem State.inputCycles_st (s : State) (c : List BusEvent) :
    (s.inputCycles c).st = s.st := rfl
@[simp] theorem State.inputCycles_bus (s : State) (c : List BusEvent) :
    (s.inputCycles c).bus = busNote { s.bus with draws := s.bus.draws + 1 } c := rfl
@[simp] theorem State.inputCycles_latch1 (s : State) (c : List BusEvent) :
    (s.inputCycles c).latch1 = s.latch1 := rfl
@[simp] theorem State.inputCycles_latch3 (s : State) (c : List BusEvent) :
    (s.inputCycles c).latch3 = s.latch3 := rfl
@[simp] theorem State.inputCycles_latch4 (s : State) (c : List BusEvent) :
    (s.inputCycles c).latch4 = s.latch4 := rfl
@[simp] theorem State.inputCycles_nmiArmed (s : State) (c : List BusEvent) :
    (s.inputCycles c).nmiArmed = s.nmiArmed := rfl
@[simp] theorem State.inputCycles_inhibit (s : State) (c : List BusEvent) :
    (s.inputCycles c).inhibit = s.inhibit := rfl
@[simp] theorem State.inputCycles_midPending (s : State) (c : List BusEvent) :
    (s.inputCycles c).midPending = s.midPending := rfl
@[simp] theorem State.inputCycles_prefetch (s : State) (c : List BusEvent) :
    (s.inputCycles c).prefetch = s.prefetch := rfl
@[simp] theorem State.inputCycles_xPending (s : State) (c : List BusEvent) :
    (s.inputCycles c).xPending = s.xPending := rfl
@[simp] theorem State.inputCycles_idle (s : State) (c : List BusEvent) :
    (s.inputCycles c).idle = s.idle := rfl
@[simp] theorem State.inputCycles_holdState (s : State) (c : List BusEvent) :
    (s.inputCycles c).holdState = s.holdState := rfl
@[simp] theorem State.inputCycles_resetActive (s : State) (c : List BusEvent) :
    (s.inputCycles c).resetActive = s.resetActive := rfl
@[simp] theorem State.inputCycles_resetPending (s : State) (c : List BusEvent) :
    (s.inputCycles c).resetPending = s.resetPending := rfl
@[simp] theorem State.inputCycles_cutShort (s : State) (c : List BusEvent) :
    (s.inputCycles c).cutShort = s.cutShort := rfl
@[simp] theorem State.inputCycles_autoWait (s : State) (c : List BusEvent) :
    (s.inputCycles c).autoWait = s.autoWait := rfl
@[simp] theorem State.inputCycles_pins (s : State) (c : List BusEvent) :
    (s.inputCycles c).pins = s.pins := rfl
@[simp] theorem State.inputCycles_cruLines (s : State) (c : List BusEvent) :
    (s.inputCycles c).cruLines = s.cruLines := rfl
@[simp] theorem State.inputCycles_agenda (s : State) (c : List BusEvent) :
    (s.inputCycles c).agenda = s.agenda := rfl
@[simp] theorem State.inputCycles_plat (s : State) (c : List BusEvent) :
    (s.inputCycles c).plat = s.plat := rfl

/-! ### `MemWrite(a, 2, v)` (R64). -/

@[simp] theorem State.writeWord_pc (s : State) (a v : Word) :
    (s.writeWord a v).pc = s.pc := rfl
@[simp] theorem State.writeWord_wp (s : State) (a v : Word) :
    (s.writeWord a v).wp = s.wp := rfl
@[simp] theorem State.writeWord_st (s : State) (a v : Word) :
    (s.writeWord a v).st = s.st := rfl
@[simp] theorem State.writeWord_bus (s : State) (a v : Word) :
    (s.writeWord a v).bus = busWriteWord s.plat s.bus a v := rfl
@[simp] theorem State.writeWord_latch1 (s : State) (a v : Word) :
    (s.writeWord a v).latch1 = s.latch1 := rfl
@[simp] theorem State.writeWord_latch3 (s : State) (a v : Word) :
    (s.writeWord a v).latch3 = s.latch3 := rfl
@[simp] theorem State.writeWord_latch4 (s : State) (a v : Word) :
    (s.writeWord a v).latch4 = s.latch4 := rfl
@[simp] theorem State.writeWord_nmiArmed (s : State) (a v : Word) :
    (s.writeWord a v).nmiArmed = s.nmiArmed := rfl
@[simp] theorem State.writeWord_inhibit (s : State) (a v : Word) :
    (s.writeWord a v).inhibit = s.inhibit := rfl
@[simp] theorem State.writeWord_midPending (s : State) (a v : Word) :
    (s.writeWord a v).midPending = s.midPending := rfl
@[simp] theorem State.writeWord_prefetch (s : State) (a v : Word) :
    (s.writeWord a v).prefetch = s.prefetch := rfl
@[simp] theorem State.writeWord_xPending (s : State) (a v : Word) :
    (s.writeWord a v).xPending = s.xPending := rfl
@[simp] theorem State.writeWord_idle (s : State) (a v : Word) :
    (s.writeWord a v).idle = s.idle := rfl
@[simp] theorem State.writeWord_holdState (s : State) (a v : Word) :
    (s.writeWord a v).holdState = s.holdState := rfl
@[simp] theorem State.writeWord_resetActive (s : State) (a v : Word) :
    (s.writeWord a v).resetActive = s.resetActive := rfl
@[simp] theorem State.writeWord_resetPending (s : State) (a v : Word) :
    (s.writeWord a v).resetPending = s.resetPending := rfl
@[simp] theorem State.writeWord_cutShort (s : State) (a v : Word) :
    (s.writeWord a v).cutShort = s.cutShort := rfl
@[simp] theorem State.writeWord_autoWait (s : State) (a v : Word) :
    (s.writeWord a v).autoWait = s.autoWait := rfl
@[simp] theorem State.writeWord_pins (s : State) (a v : Word) :
    (s.writeWord a v).pins = s.pins := rfl
@[simp] theorem State.writeWord_cruLines (s : State) (a v : Word) :
    (s.writeWord a v).cruLines = s.cruLines := rfl
@[simp] theorem State.writeWord_agenda (s : State) (a v : Word) :
    (s.writeWord a v).agenda = s.agenda := rfl
@[simp] theorem State.writeWord_plat (s : State) (a v : Word) :
    (s.writeWord a v).plat = s.plat := rfl

/-! ### `MemWrite(a, 1, v)` (R65). -/

@[simp] theorem State.writeByte_pc (s : State) (a : Word) (v : Byte) :
    (s.writeByte a v).pc = s.pc := rfl
@[simp] theorem State.writeByte_wp (s : State) (a : Word) (v : Byte) :
    (s.writeByte a v).wp = s.wp := rfl
@[simp] theorem State.writeByte_st (s : State) (a : Word) (v : Byte) :
    (s.writeByte a v).st = s.st := rfl
@[simp] theorem State.writeByte_bus (s : State) (a : Word) (v : Byte) :
    (s.writeByte a v).bus = busWriteByte s.plat s.bus a v := rfl
@[simp] theorem State.writeByte_latch1 (s : State) (a : Word) (v : Byte) :
    (s.writeByte a v).latch1 = s.latch1 := rfl
@[simp] theorem State.writeByte_latch3 (s : State) (a : Word) (v : Byte) :
    (s.writeByte a v).latch3 = s.latch3 := rfl
@[simp] theorem State.writeByte_latch4 (s : State) (a : Word) (v : Byte) :
    (s.writeByte a v).latch4 = s.latch4 := rfl
@[simp] theorem State.writeByte_nmiArmed (s : State) (a : Word) (v : Byte) :
    (s.writeByte a v).nmiArmed = s.nmiArmed := rfl
@[simp] theorem State.writeByte_inhibit (s : State) (a : Word) (v : Byte) :
    (s.writeByte a v).inhibit = s.inhibit := rfl
@[simp] theorem State.writeByte_midPending (s : State) (a : Word) (v : Byte) :
    (s.writeByte a v).midPending = s.midPending := rfl
@[simp] theorem State.writeByte_prefetch (s : State) (a : Word) (v : Byte) :
    (s.writeByte a v).prefetch = s.prefetch := rfl
@[simp] theorem State.writeByte_xPending (s : State) (a : Word) (v : Byte) :
    (s.writeByte a v).xPending = s.xPending := rfl
@[simp] theorem State.writeByte_idle (s : State) (a : Word) (v : Byte) :
    (s.writeByte a v).idle = s.idle := rfl
@[simp] theorem State.writeByte_holdState (s : State) (a : Word) (v : Byte) :
    (s.writeByte a v).holdState = s.holdState := rfl
@[simp] theorem State.writeByte_resetActive (s : State) (a : Word) (v : Byte) :
    (s.writeByte a v).resetActive = s.resetActive := rfl
@[simp] theorem State.writeByte_resetPending (s : State) (a : Word) (v : Byte) :
    (s.writeByte a v).resetPending = s.resetPending := rfl
@[simp] theorem State.writeByte_cutShort (s : State) (a : Word) (v : Byte) :
    (s.writeByte a v).cutShort = s.cutShort := rfl
@[simp] theorem State.writeByte_autoWait (s : State) (a : Word) (v : Byte) :
    (s.writeByte a v).autoWait = s.autoWait := rfl
@[simp] theorem State.writeByte_pins (s : State) (a : Word) (v : Byte) :
    (s.writeByte a v).pins = s.pins := rfl
@[simp] theorem State.writeByte_cruLines (s : State) (a : Word) (v : Byte) :
    (s.writeByte a v).cruLines = s.cruLines := rfl
@[simp] theorem State.writeByte_agenda (s : State) (a : Word) (v : Byte) :
    (s.writeByte a v).agenda = s.agenda := rfl
@[simp] theorem State.writeByte_plat (s : State) (a : Word) (v : Byte) :
    (s.writeByte a v).plat = s.plat := rfl

/-! ### Writing a workspace register (R26). -/

@[simp] theorem State.writeReg_pc (s : State) (n : Reg) (v : Word) :
    (s.writeReg n v).pc = s.pc := rfl
@[simp] theorem State.writeReg_wp (s : State) (n : Reg) (v : Word) :
    (s.writeReg n v).wp = s.wp := rfl
@[simp] theorem State.writeReg_st (s : State) (n : Reg) (v : Word) :
    (s.writeReg n v).st = s.st := rfl
@[simp] theorem State.writeReg_bus (s : State) (n : Reg) (v : Word) :
    (s.writeReg n v).bus = busWriteWord s.plat s.bus (wrAddr s.wp n) v := rfl
@[simp] theorem State.writeReg_latch1 (s : State) (n : Reg) (v : Word) :
    (s.writeReg n v).latch1 = s.latch1 := rfl
@[simp] theorem State.writeReg_latch3 (s : State) (n : Reg) (v : Word) :
    (s.writeReg n v).latch3 = s.latch3 := rfl
@[simp] theorem State.writeReg_latch4 (s : State) (n : Reg) (v : Word) :
    (s.writeReg n v).latch4 = s.latch4 := rfl
@[simp] theorem State.writeReg_nmiArmed (s : State) (n : Reg) (v : Word) :
    (s.writeReg n v).nmiArmed = s.nmiArmed := rfl
@[simp] theorem State.writeReg_inhibit (s : State) (n : Reg) (v : Word) :
    (s.writeReg n v).inhibit = s.inhibit := rfl
@[simp] theorem State.writeReg_midPending (s : State) (n : Reg) (v : Word) :
    (s.writeReg n v).midPending = s.midPending := rfl
@[simp] theorem State.writeReg_prefetch (s : State) (n : Reg) (v : Word) :
    (s.writeReg n v).prefetch = s.prefetch := rfl
@[simp] theorem State.writeReg_xPending (s : State) (n : Reg) (v : Word) :
    (s.writeReg n v).xPending = s.xPending := rfl
@[simp] theorem State.writeReg_idle (s : State) (n : Reg) (v : Word) :
    (s.writeReg n v).idle = s.idle := rfl
@[simp] theorem State.writeReg_holdState (s : State) (n : Reg) (v : Word) :
    (s.writeReg n v).holdState = s.holdState := rfl
@[simp] theorem State.writeReg_resetActive (s : State) (n : Reg) (v : Word) :
    (s.writeReg n v).resetActive = s.resetActive := rfl
@[simp] theorem State.writeReg_resetPending (s : State) (n : Reg) (v : Word) :
    (s.writeReg n v).resetPending = s.resetPending := rfl
@[simp] theorem State.writeReg_cutShort (s : State) (n : Reg) (v : Word) :
    (s.writeReg n v).cutShort = s.cutShort := rfl
@[simp] theorem State.writeReg_autoWait (s : State) (n : Reg) (v : Word) :
    (s.writeReg n v).autoWait = s.autoWait := rfl
@[simp] theorem State.writeReg_pins (s : State) (n : Reg) (v : Word) :
    (s.writeReg n v).pins = s.pins := rfl
@[simp] theorem State.writeReg_cruLines (s : State) (n : Reg) (v : Word) :
    (s.writeReg n v).cruLines = s.cruLines := rfl
@[simp] theorem State.writeReg_agenda (s : State) (n : Reg) (v : Word) :
    (s.writeReg n v).agenda = s.agenda := rfl
@[simp] theorem State.writeReg_plat (s : State) (n : Reg) (v : Word) :
    (s.writeReg n v).plat = s.plat := rfl

/-! ### PC (R21). -/

@[simp] theorem State.setPc_pc (s : State) (v : Word) :
    (s.setPc v).pc = evenAddr v := rfl
@[simp] theorem State.setPc_wp (s : State) (v : Word) :
    (s.setPc v).wp = s.wp := rfl
@[simp] theorem State.setPc_st (s : State) (v : Word) :
    (s.setPc v).st = s.st := rfl
@[simp] theorem State.setPc_bus (s : State) (v : Word) :
    (s.setPc v).bus = s.bus := rfl
@[simp] theorem State.setPc_latch1 (s : State) (v : Word) :
    (s.setPc v).latch1 = s.latch1 := rfl
@[simp] theorem State.setPc_latch3 (s : State) (v : Word) :
    (s.setPc v).latch3 = s.latch3 := rfl
@[simp] theorem State.setPc_latch4 (s : State) (v : Word) :
    (s.setPc v).latch4 = s.latch4 := rfl
@[simp] theorem State.setPc_nmiArmed (s : State) (v : Word) :
    (s.setPc v).nmiArmed = s.nmiArmed := rfl
@[simp] theorem State.setPc_inhibit (s : State) (v : Word) :
    (s.setPc v).inhibit = s.inhibit := rfl
@[simp] theorem State.setPc_midPending (s : State) (v : Word) :
    (s.setPc v).midPending = s.midPending := rfl
@[simp] theorem State.setPc_prefetch (s : State) (v : Word) :
    (s.setPc v).prefetch = s.prefetch := rfl
@[simp] theorem State.setPc_xPending (s : State) (v : Word) :
    (s.setPc v).xPending = s.xPending := rfl
@[simp] theorem State.setPc_idle (s : State) (v : Word) :
    (s.setPc v).idle = s.idle := rfl
@[simp] theorem State.setPc_holdState (s : State) (v : Word) :
    (s.setPc v).holdState = s.holdState := rfl
@[simp] theorem State.setPc_resetActive (s : State) (v : Word) :
    (s.setPc v).resetActive = s.resetActive := rfl
@[simp] theorem State.setPc_resetPending (s : State) (v : Word) :
    (s.setPc v).resetPending = s.resetPending := rfl
@[simp] theorem State.setPc_cutShort (s : State) (v : Word) :
    (s.setPc v).cutShort = s.cutShort := rfl
@[simp] theorem State.setPc_autoWait (s : State) (v : Word) :
    (s.setPc v).autoWait = s.autoWait := rfl
@[simp] theorem State.setPc_pins (s : State) (v : Word) :
    (s.setPc v).pins = s.pins := rfl
@[simp] theorem State.setPc_cruLines (s : State) (v : Word) :
    (s.setPc v).cruLines = s.cruLines := rfl
@[simp] theorem State.setPc_agenda (s : State) (v : Word) :
    (s.setPc v).agenda = s.agenda := rfl
@[simp] theorem State.setPc_plat (s : State) (v : Word) :
    (s.setPc v).plat = s.plat := rfl

/-! ### WP (R22). -/

@[simp] theorem State.setWp_pc (s : State) (v : Word) :
    (s.setWp v).pc = s.pc := rfl
@[simp] theorem State.setWp_wp (s : State) (v : Word) :
    (s.setWp v).wp = evenAddr v := rfl
@[simp] theorem State.setWp_st (s : State) (v : Word) :
    (s.setWp v).st = s.st := rfl
@[simp] theorem State.setWp_bus (s : State) (v : Word) :
    (s.setWp v).bus = s.bus := rfl
@[simp] theorem State.setWp_latch1 (s : State) (v : Word) :
    (s.setWp v).latch1 = s.latch1 := rfl
@[simp] theorem State.setWp_latch3 (s : State) (v : Word) :
    (s.setWp v).latch3 = s.latch3 := rfl
@[simp] theorem State.setWp_latch4 (s : State) (v : Word) :
    (s.setWp v).latch4 = s.latch4 := rfl
@[simp] theorem State.setWp_nmiArmed (s : State) (v : Word) :
    (s.setWp v).nmiArmed = s.nmiArmed := rfl
@[simp] theorem State.setWp_inhibit (s : State) (v : Word) :
    (s.setWp v).inhibit = s.inhibit := rfl
@[simp] theorem State.setWp_midPending (s : State) (v : Word) :
    (s.setWp v).midPending = s.midPending := rfl
@[simp] theorem State.setWp_prefetch (s : State) (v : Word) :
    (s.setWp v).prefetch = s.prefetch := rfl
@[simp] theorem State.setWp_xPending (s : State) (v : Word) :
    (s.setWp v).xPending = s.xPending := rfl
@[simp] theorem State.setWp_idle (s : State) (v : Word) :
    (s.setWp v).idle = s.idle := rfl
@[simp] theorem State.setWp_holdState (s : State) (v : Word) :
    (s.setWp v).holdState = s.holdState := rfl
@[simp] theorem State.setWp_resetActive (s : State) (v : Word) :
    (s.setWp v).resetActive = s.resetActive := rfl
@[simp] theorem State.setWp_resetPending (s : State) (v : Word) :
    (s.setWp v).resetPending = s.resetPending := rfl
@[simp] theorem State.setWp_cutShort (s : State) (v : Word) :
    (s.setWp v).cutShort = s.cutShort := rfl
@[simp] theorem State.setWp_autoWait (s : State) (v : Word) :
    (s.setWp v).autoWait = s.autoWait := rfl
@[simp] theorem State.setWp_pins (s : State) (v : Word) :
    (s.setWp v).pins = s.pins := rfl
@[simp] theorem State.setWp_cruLines (s : State) (v : Word) :
    (s.setWp v).cruLines = s.cruLines := rfl
@[simp] theorem State.setWp_agenda (s : State) (v : Word) :
    (s.setWp v).agenda = s.agenda := rfl
@[simp] theorem State.setWp_plat (s : State) (v : Word) :
    (s.setWp v).plat = s.plat := rfl

/-! ### ST (R166). -/

@[simp] theorem State.mapSt_pc (s : State) (f : Word → Word) :
    (s.mapSt f).pc = s.pc := rfl
@[simp] theorem State.mapSt_wp (s : State) (f : Word → Word) :
    (s.mapSt f).wp = s.wp := rfl
@[simp] theorem State.mapSt_st (s : State) (f : Word → Word) :
    (s.mapSt f).st = f s.st := rfl
@[simp] theorem State.mapSt_bus (s : State) (f : Word → Word) :
    (s.mapSt f).bus = s.bus := rfl
@[simp] theorem State.mapSt_latch1 (s : State) (f : Word → Word) :
    (s.mapSt f).latch1 = s.latch1 := rfl
@[simp] theorem State.mapSt_latch3 (s : State) (f : Word → Word) :
    (s.mapSt f).latch3 = s.latch3 := rfl
@[simp] theorem State.mapSt_latch4 (s : State) (f : Word → Word) :
    (s.mapSt f).latch4 = s.latch4 := rfl
@[simp] theorem State.mapSt_nmiArmed (s : State) (f : Word → Word) :
    (s.mapSt f).nmiArmed = s.nmiArmed := rfl
@[simp] theorem State.mapSt_inhibit (s : State) (f : Word → Word) :
    (s.mapSt f).inhibit = s.inhibit := rfl
@[simp] theorem State.mapSt_midPending (s : State) (f : Word → Word) :
    (s.mapSt f).midPending = s.midPending := rfl
@[simp] theorem State.mapSt_prefetch (s : State) (f : Word → Word) :
    (s.mapSt f).prefetch = s.prefetch := rfl
@[simp] theorem State.mapSt_xPending (s : State) (f : Word → Word) :
    (s.mapSt f).xPending = s.xPending := rfl
@[simp] theorem State.mapSt_idle (s : State) (f : Word → Word) :
    (s.mapSt f).idle = s.idle := rfl
@[simp] theorem State.mapSt_holdState (s : State) (f : Word → Word) :
    (s.mapSt f).holdState = s.holdState := rfl
@[simp] theorem State.mapSt_resetActive (s : State) (f : Word → Word) :
    (s.mapSt f).resetActive = s.resetActive := rfl
@[simp] theorem State.mapSt_resetPending (s : State) (f : Word → Word) :
    (s.mapSt f).resetPending = s.resetPending := rfl
@[simp] theorem State.mapSt_cutShort (s : State) (f : Word → Word) :
    (s.mapSt f).cutShort = s.cutShort := rfl
@[simp] theorem State.mapSt_autoWait (s : State) (f : Word → Word) :
    (s.mapSt f).autoWait = s.autoWait := rfl
@[simp] theorem State.mapSt_pins (s : State) (f : Word → Word) :
    (s.mapSt f).pins = s.pins := rfl
@[simp] theorem State.mapSt_cruLines (s : State) (f : Word → Word) :
    (s.mapSt f).cruLines = s.cruLines := rfl
@[simp] theorem State.mapSt_agenda (s : State) (f : Word → Word) :
    (s.mapSt f).agenda = s.agenda := rfl
@[simp] theorem State.mapSt_plat (s : State) (f : Word → Word) :
    (s.mapSt f).plat = s.plat := rfl

/-! ### `CruOut` (R79). -/

@[simp] theorem State.cruOut_pc (s : State) (a : CruAddr) (v : Bool) :
    (s.cruOut a v).pc = s.pc := rfl
@[simp] theorem State.cruOut_wp (s : State) (a : CruAddr) (v : Bool) :
    (s.cruOut a v).wp = s.wp := rfl
@[simp] theorem State.cruOut_st (s : State) (a : CruAddr) (v : Bool) :
    (s.cruOut a v).st = s.st := rfl
@[simp] theorem State.cruOut_bus (s : State) (a : CruAddr) (v : Bool) :
    (s.cruOut a v).bus = busCruOut s.bus a v := rfl
@[simp] theorem State.cruOut_latch1 (s : State) (a : CruAddr) (v : Bool) :
    (s.cruOut a v).latch1 = s.latch1 := rfl
@[simp] theorem State.cruOut_latch3 (s : State) (a : CruAddr) (v : Bool) :
    (s.cruOut a v).latch3 = s.latch3 := rfl
@[simp] theorem State.cruOut_latch4 (s : State) (a : CruAddr) (v : Bool) :
    (s.cruOut a v).latch4 = s.latch4 := rfl
@[simp] theorem State.cruOut_nmiArmed (s : State) (a : CruAddr) (v : Bool) :
    (s.cruOut a v).nmiArmed = s.nmiArmed := rfl
@[simp] theorem State.cruOut_inhibit (s : State) (a : CruAddr) (v : Bool) :
    (s.cruOut a v).inhibit = s.inhibit := rfl
@[simp] theorem State.cruOut_midPending (s : State) (a : CruAddr) (v : Bool) :
    (s.cruOut a v).midPending = s.midPending := rfl
@[simp] theorem State.cruOut_prefetch (s : State) (a : CruAddr) (v : Bool) :
    (s.cruOut a v).prefetch = s.prefetch := rfl
@[simp] theorem State.cruOut_xPending (s : State) (a : CruAddr) (v : Bool) :
    (s.cruOut a v).xPending = s.xPending := rfl
@[simp] theorem State.cruOut_idle (s : State) (a : CruAddr) (v : Bool) :
    (s.cruOut a v).idle = s.idle := rfl
@[simp] theorem State.cruOut_holdState (s : State) (a : CruAddr) (v : Bool) :
    (s.cruOut a v).holdState = s.holdState := rfl
@[simp] theorem State.cruOut_resetActive (s : State) (a : CruAddr) (v : Bool) :
    (s.cruOut a v).resetActive = s.resetActive := rfl
@[simp] theorem State.cruOut_resetPending (s : State) (a : CruAddr) (v : Bool) :
    (s.cruOut a v).resetPending = s.resetPending := rfl
@[simp] theorem State.cruOut_cutShort (s : State) (a : CruAddr) (v : Bool) :
    (s.cruOut a v).cutShort = s.cutShort := rfl
@[simp] theorem State.cruOut_autoWait (s : State) (a : CruAddr) (v : Bool) :
    (s.cruOut a v).autoWait = s.autoWait := rfl
@[simp] theorem State.cruOut_pins (s : State) (a : CruAddr) (v : Bool) :
    (s.cruOut a v).pins = s.pins := rfl
@[simp] theorem State.cruOut_cruLines (s : State) (a : CruAddr) (v : Bool) :
    (s.cruOut a v).cruLines = s.cruLines := rfl
@[simp] theorem State.cruOut_agenda (s : State) (a : CruAddr) (v : Bool) :
    (s.cruOut a v).agenda = s.agenda := rfl
@[simp] theorem State.cruOut_plat (s : State) (a : CruAddr) (v : Bool) :
    (s.cruOut a v).plat = s.plat := rfl

/-! ### `ExtInstr` (R391). -/

@[simp] theorem State.extInstr_pc (s : State) (code : BitVec 3) :
    (s.extInstr code).pc = s.pc := rfl
@[simp] theorem State.extInstr_wp (s : State) (code : BitVec 3) :
    (s.extInstr code).wp = s.wp := rfl
@[simp] theorem State.extInstr_st (s : State) (code : BitVec 3) :
    (s.extInstr code).st = s.st := rfl
@[simp] theorem State.extInstr_bus (s : State) (code : BitVec 3) :
    (s.extInstr code).bus = busNote s.bus [.extInstr code] := rfl
@[simp] theorem State.extInstr_latch1 (s : State) (code : BitVec 3) :
    (s.extInstr code).latch1 = s.latch1 := rfl
@[simp] theorem State.extInstr_latch3 (s : State) (code : BitVec 3) :
    (s.extInstr code).latch3 = s.latch3 := rfl
@[simp] theorem State.extInstr_latch4 (s : State) (code : BitVec 3) :
    (s.extInstr code).latch4 = s.latch4 := rfl
@[simp] theorem State.extInstr_nmiArmed (s : State) (code : BitVec 3) :
    (s.extInstr code).nmiArmed = s.nmiArmed := rfl
@[simp] theorem State.extInstr_inhibit (s : State) (code : BitVec 3) :
    (s.extInstr code).inhibit = s.inhibit := rfl
@[simp] theorem State.extInstr_midPending (s : State) (code : BitVec 3) :
    (s.extInstr code).midPending = s.midPending := rfl
@[simp] theorem State.extInstr_prefetch (s : State) (code : BitVec 3) :
    (s.extInstr code).prefetch = s.prefetch := rfl
@[simp] theorem State.extInstr_xPending (s : State) (code : BitVec 3) :
    (s.extInstr code).xPending = s.xPending := rfl
@[simp] theorem State.extInstr_idle (s : State) (code : BitVec 3) :
    (s.extInstr code).idle = s.idle := rfl
@[simp] theorem State.extInstr_holdState (s : State) (code : BitVec 3) :
    (s.extInstr code).holdState = s.holdState := rfl
@[simp] theorem State.extInstr_resetActive (s : State) (code : BitVec 3) :
    (s.extInstr code).resetActive = s.resetActive := rfl
@[simp] theorem State.extInstr_resetPending (s : State) (code : BitVec 3) :
    (s.extInstr code).resetPending = s.resetPending := rfl
@[simp] theorem State.extInstr_cutShort (s : State) (code : BitVec 3) :
    (s.extInstr code).cutShort = s.cutShort := rfl
@[simp] theorem State.extInstr_autoWait (s : State) (code : BitVec 3) :
    (s.extInstr code).autoWait = s.autoWait := rfl
@[simp] theorem State.extInstr_pins (s : State) (code : BitVec 3) :
    (s.extInstr code).pins = s.pins := rfl
@[simp] theorem State.extInstr_cruLines (s : State) (code : BitVec 3) :
    (s.extInstr code).cruLines = s.cruLines := rfl
@[simp] theorem State.extInstr_agenda (s : State) (code : BitVec 3) :
    (s.extInstr code).agenda = s.agenda := rfl
@[simp] theorem State.extInstr_plat (s : State) (code : BitVec 3) :
    (s.extInstr code).plat = s.plat := rfl

/-! ### "raise MID" (R400). -/

@[simp] theorem State.raiseMid_pc (s : State) :
    s.raiseMid.pc = s.pc := rfl
@[simp] theorem State.raiseMid_wp (s : State) :
    s.raiseMid.wp = s.wp := rfl
@[simp] theorem State.raiseMid_st (s : State) :
    s.raiseMid.st = s.st := rfl
@[simp] theorem State.raiseMid_bus (s : State) :
    s.raiseMid.bus = { s.bus with midFlag := true } := rfl
@[simp] theorem State.raiseMid_latch1 (s : State) :
    s.raiseMid.latch1 = s.latch1 := rfl
@[simp] theorem State.raiseMid_latch3 (s : State) :
    s.raiseMid.latch3 = s.latch3 := rfl
@[simp] theorem State.raiseMid_latch4 (s : State) :
    s.raiseMid.latch4 = s.latch4 := rfl
@[simp] theorem State.raiseMid_nmiArmed (s : State) :
    s.raiseMid.nmiArmed = s.nmiArmed := rfl
@[simp] theorem State.raiseMid_inhibit (s : State) :
    s.raiseMid.inhibit = s.inhibit := rfl
@[simp] theorem State.raiseMid_midPending (s : State) :
    s.raiseMid.midPending = true := rfl
@[simp] theorem State.raiseMid_prefetch (s : State) :
    s.raiseMid.prefetch = s.prefetch := rfl
@[simp] theorem State.raiseMid_xPending (s : State) :
    s.raiseMid.xPending = s.xPending := rfl
@[simp] theorem State.raiseMid_idle (s : State) :
    s.raiseMid.idle = s.idle := rfl
@[simp] theorem State.raiseMid_holdState (s : State) :
    s.raiseMid.holdState = s.holdState := rfl
@[simp] theorem State.raiseMid_resetActive (s : State) :
    s.raiseMid.resetActive = s.resetActive := rfl
@[simp] theorem State.raiseMid_resetPending (s : State) :
    s.raiseMid.resetPending = s.resetPending := rfl
@[simp] theorem State.raiseMid_cutShort (s : State) :
    s.raiseMid.cutShort = s.cutShort := rfl
@[simp] theorem State.raiseMid_autoWait (s : State) :
    s.raiseMid.autoWait = s.autoWait := rfl
@[simp] theorem State.raiseMid_pins (s : State) :
    s.raiseMid.pins = s.pins := rfl
@[simp] theorem State.raiseMid_cruLines (s : State) :
    s.raiseMid.cruLines = s.cruLines := rfl
@[simp] theorem State.raiseMid_agenda (s : State) :
    s.raiseMid.agenda = s.agenda := rfl
@[simp] theorem State.raiseMid_plat (s : State) :
    s.raiseMid.plat = s.plat := rfl

/-! ### `Fetch()` (R101). -/

@[simp] theorem State.fetchAs_pc (iaq : Bool) (s : State) :
    (s.fetchAs iaq).2.pc = s.pc + 2 := rfl
@[simp] theorem State.fetchAs_wp (iaq : Bool) (s : State) :
    (s.fetchAs iaq).2.wp = s.wp := rfl
@[simp] theorem State.fetchAs_st (iaq : Bool) (s : State) :
    (s.fetchAs iaq).2.st = s.st := rfl
@[simp] theorem State.fetchAs_bus (iaq : Bool) (s : State) :
    (s.fetchAs iaq).2.bus =
      busNote { s.bus with draws := s.bus.draws + 1 } (readCycles s.plat iaq s.pc) := rfl
@[simp] theorem State.fetchAs_latch1 (iaq : Bool) (s : State) :
    (s.fetchAs iaq).2.latch1 = s.latch1 := rfl
@[simp] theorem State.fetchAs_latch3 (iaq : Bool) (s : State) :
    (s.fetchAs iaq).2.latch3 = s.latch3 := rfl
@[simp] theorem State.fetchAs_latch4 (iaq : Bool) (s : State) :
    (s.fetchAs iaq).2.latch4 = s.latch4 := rfl
@[simp] theorem State.fetchAs_nmiArmed (iaq : Bool) (s : State) :
    (s.fetchAs iaq).2.nmiArmed = s.nmiArmed := rfl
@[simp] theorem State.fetchAs_inhibit (iaq : Bool) (s : State) :
    (s.fetchAs iaq).2.inhibit = s.inhibit := rfl
@[simp] theorem State.fetchAs_midPending (iaq : Bool) (s : State) :
    (s.fetchAs iaq).2.midPending = s.midPending := rfl
@[simp] theorem State.fetchAs_prefetch (iaq : Bool) (s : State) :
    (s.fetchAs iaq).2.prefetch = s.prefetch := rfl
@[simp] theorem State.fetchAs_xPending (iaq : Bool) (s : State) :
    (s.fetchAs iaq).2.xPending = s.xPending := rfl
@[simp] theorem State.fetchAs_idle (iaq : Bool) (s : State) :
    (s.fetchAs iaq).2.idle = s.idle := rfl
@[simp] theorem State.fetchAs_holdState (iaq : Bool) (s : State) :
    (s.fetchAs iaq).2.holdState = s.holdState := rfl
@[simp] theorem State.fetchAs_resetActive (iaq : Bool) (s : State) :
    (s.fetchAs iaq).2.resetActive = s.resetActive := rfl
@[simp] theorem State.fetchAs_resetPending (iaq : Bool) (s : State) :
    (s.fetchAs iaq).2.resetPending = s.resetPending := rfl
@[simp] theorem State.fetchAs_cutShort (iaq : Bool) (s : State) :
    (s.fetchAs iaq).2.cutShort = s.cutShort := rfl
@[simp] theorem State.fetchAs_autoWait (iaq : Bool) (s : State) :
    (s.fetchAs iaq).2.autoWait = s.autoWait := rfl
@[simp] theorem State.fetchAs_pins (iaq : Bool) (s : State) :
    (s.fetchAs iaq).2.pins = s.pins := rfl
@[simp] theorem State.fetchAs_cruLines (iaq : Bool) (s : State) :
    (s.fetchAs iaq).2.cruLines = s.cruLines := rfl
@[simp] theorem State.fetchAs_agenda (iaq : Bool) (s : State) :
    (s.fetchAs iaq).2.agenda = s.agenda := rfl
@[simp] theorem State.fetchAs_plat (iaq : Bool) (s : State) :
    (s.fetchAs iaq).2.plat = s.plat := rfl

/-! ### The fields of the bus -/

@[simp] theorem decLoad_mem (b : Bus) (v : Word) :
    (decLoad b v).mem = b.mem := rfl
@[simp] theorem decLoad_decStart (b : Bus) (v : Word) :
    (decLoad b v).decStart = v := rfl
@[simp] theorem decLoad_decCount (b : Bus) (v : Word) :
    (decLoad b v).decCount = v := rfl
@[simp] theorem decLoad_flags (b : Bus) (v : Word) :
    (decLoad b v).flags = b.flags := rfl
@[simp] theorem decLoad_midFlag (b : Bus) (v : Word) :
    (decLoad b v).midFlag = b.midFlag := rfl
@[simp] theorem decLoad_events (b : Bus) (v : Word) :
    (decLoad b v).events = b.events := rfl
@[simp] theorem decLoad_draws (b : Bus) (v : Word) :
    (decLoad b v).draws = b.draws := rfl
@[simp] theorem busNote_mem (b : Bus) (c : List BusEvent) :
    (busNote b c).mem = b.mem := rfl
@[simp] theorem busNote_decStart (b : Bus) (c : List BusEvent) :
    (busNote b c).decStart = b.decStart := rfl
@[simp] theorem busNote_decCount (b : Bus) (c : List BusEvent) :
    (busNote b c).decCount = b.decCount := rfl
@[simp] theorem busNote_flags (b : Bus) (c : List BusEvent) :
    (busNote b c).flags = b.flags := rfl
@[simp] theorem busNote_midFlag (b : Bus) (c : List BusEvent) :
    (busNote b c).midFlag = b.midFlag := rfl
@[simp] theorem busNote_draws (b : Bus) (c : List BusEvent) :
    (busNote b c).draws = b.draws := rfl
@[simp] theorem busNote_events (b : Bus) (c : List BusEvent) :
    (busNote b c).events = c ++ b.events := rfl
@[simp] theorem busCruOut_mem (b : Bus) (a : CruAddr) (v : Bool) :
    (busCruOut b a v).mem = b.mem := rfl
@[simp] theorem busCruOut_decStart (b : Bus) (a : CruAddr) (v : Bool) :
    (busCruOut b a v).decStart = b.decStart := rfl
@[simp] theorem busCruOut_decCount (b : Bus) (a : CruAddr) (v : Bool) :
    (busCruOut b a v).decCount = b.decCount := rfl
@[simp] theorem busCruOut_midFlag (b : Bus) (a : CruAddr) (v : Bool) :
    (busCruOut b a v).midFlag = if a.toNat = 0x0FED then v else b.midFlag := rfl
@[simp] theorem busCruOut_events (b : Bus) (a : CruAddr) (v : Bool) :
    (busCruOut b a v).events = .cruOut a v :: b.events := rfl
@[simp] theorem busCruOut_draws (b : Bus) (a : CruAddr) (v : Bool) :
    (busCruOut b a v).draws = b.draws := rfl

/-! ### What is read does not depend on the cycles noted -/

@[simp] theorem busReadByte_busNote (p : Platform) (b : Bus) (c : List BusEvent) (a : Word) :
    busReadByte p (busNote b c) a = busReadByte p b a := rfl
@[simp] theorem busReadWord_busNote (p : Platform) (b : Bus) (c : List BusEvent) (a : Word) :
    busReadWord p (busNote b c) a = busReadWord p b a := rfl
/-- What is read after input cycles is what would be read after their draw alone. -/
theorem busReadWord_inputCycles (p : Platform) (s : State) (c : List BusEvent) (a : Word) :
    busReadWord p (s.inputCycles c).bus a = busReadWord p s.tickDraws.bus a := busReadWord_busNote ..
/-- A draw after input cycles is a draw before them. -/
theorem State.tickDraws_inputCycles (s : State) (c : List BusEvent) :
    (s.inputCycles c).tickDraws = s.tickDraws.inputCycles c := rfl
@[simp] theorem storedByte_busNote (p : Platform) (b : Bus) (c : List BusEvent) (a : Word) :
    storedByte p (busNote b c) a = storedByte p b a := rfl
@[simp] theorem storedWord_busNote (p : Platform) (b : Bus) (c : List BusEvent) (a : Word) :
    storedWord p (busNote b c) a = storedWord p b a := rfl
@[simp] theorem cruBit_inputCycles (s : State) (c : List BusEvent) (a : CruAddr) :
    (s.inputCycles c).cruBit a = s.tickDraws.cruBit a := rfl

end Sys2Proof.Machine
end

