-- ==== Sys2Proof/Laws/Ops.lean ====
section
/-! SUPPORT. The shared operations: what each can change and what it keeps, said once. -/

namespace Sys2Proof.Machine

/-! ### The frame, step by step -/

theorem KeptOutside.refl (s : State) (u : Word → Prop) : KeptOutside s s u :=
  ⟨rfl, rfl, rfl, BusKeptOutside.refl _ _ _⟩

theorem KeptOutside.plat {s t : State} {u : Word → Prop} (h : KeptOutside s t u) : t.plat = s.plat := by
  rw [h.1]

theorem KeptOutside.wp {s t : State} {u : Word → Prop} (h : KeptOutside s t u) : t.wp = s.wp := by
  rw [h.1]

theorem KeptOutside.mono {s t : State} {u w : Word → Prop} (h : KeptOutside s t u) (huw : ∀ x, u x → w x) :
    KeptOutside s t w := ⟨h.1, h.2.1, h.2.2.1, h.2.2.2.mono huw⟩

theorem KeptOutside.trans {s t r : State} {u : Word → Prop} (h : KeptOutside s t u) (k : KeptOutside t r u) :
    KeptOutside s r u := by
  have hp := h.plat
  obtain ⟨h1, h2, h3, h4⟩ := h
  obtain ⟨k1, k2, k3, k4⟩ := k
  rw [hp] at k4
  refine ⟨?_, k2.trans h2, k3.trans h3, h4.trans k4⟩
  rw [k1, h1]

/-- A change of PC, ST and the bus alone is a frame where the bus keeps what it must. -/
theorem KeptOutside.of {s : State} {u : Word → Prop} (pc st : Word) {b : Bus} (hf : b.flags = s.bus.flags)
    (hm : b.midFlag = s.bus.midFlag) (hb : BusKeptOutside s.plat s.bus b u) :
    KeptOutside s { s with pc := pc, st := st, bus := b } u := ⟨rfl, hf, hm, hb⟩

theorem KeptOutside.tick {s t : State} {u : Word → Prop} (h : KeptOutside s t u) : KeptOutside s t.tickDraws u :=
  h.trans (.of t.pc t.st rfl rfl (OnlyDrew.of t.bus _ (cs := []) fun _ hc => (List.not_mem_nil hc).elim).kept)

/-- Input cycles keep all. -/
theorem KeptOutside.input {s t : State} {u : Word → Prop} {c : List BusEvent} (h : KeptOutside s t u)
    (hc : ∀ e ∈ c, isInput e = true) : KeptOutside s (t.inputCycles c) u :=
  h.trans (.of t.pc t.st rfl rfl (OnlyDrew.of t.bus _ hc).kept)

theorem KeptOutside.read {s t : State} {u : Word → Prop} {a : Word} (h : KeptOutside s t u) :
    KeptOutside s (t.readWord a).2 u := h.input (isInput_readCycles _ _ _)

theorem KeptOutside.readByte {s t : State} {u : Word → Prop} {a : Word} (h : KeptOutside s t u) :
    KeptOutside s (t.readByte a).2 u := h.input (by simp [isInput])

theorem KeptOutside.store {s t : State} {u : Word → Prop} {a v : Word} (h : KeptOutside s t u)
    (ha : ∀ x, InWord a x → u x) : KeptOutside s (t.writeWord a v) u :=
  h.trans (.of t.pc t.st (busWriteWord_flags ..) (busWriteWord_midFlag ..)
    ((busWriteWord_stored ..).kept.mono ha))

theorem KeptOutside.storeByte {s t : State} {u : Word → Prop} {a : Word} {v : Byte} (h : KeptOutside s t u)
    (ha : ∀ x, InByte t.plat a x → u x) : KeptOutside s (t.writeByte a v) u :=
  h.trans (.of t.pc t.st (busWriteByte_flags ..) (busWriteByte_midFlag ..)
    ((busWriteByte_stored ..).kept.mono ha))

theorem KeptOutside.status {s t : State} {u : Word → Prop} (f : Word → Word) (h : KeptOutside s t u) :
    KeptOutside s (t.mapSt f) u :=
  h.trans (.of t.pc _ rfl rfl (.refl _ _ _))

theorem KeptOutside.jumpTo {s t : State} {u : Word → Prop} (pc : Word) (h : KeptOutside s t u) :
    KeptOutside s { t with pc := pc } u :=
  h.trans (.of pc t.st rfl rfl (.refl _ _ _))

theorem KeptOutside.fetched {s t : State} {u : Word → Prop} (h : KeptOutside s t u) :
    KeptOutside s t.fetch.2 u := h.read.jumpTo _

/-! ### Effective addresses (R140) -/

/-- Deriving an address keeps all but PC, the draws and the register it increments. -/
theorem KeptOutside.derived {s t : State} {u : Word → Prop} {op : Operand} {size : Size} (h : KeptOutside s t u)
    (ho : ∀ x, Bumps op t.wp x → u x) : KeptOutside s (t.ea op size).2 u := by
  cases op with
  | reg r => exact h
  | ind r => exact h.read
  | sym => exact h.fetched
  | idx r => exact h.fetched.read
  | autoInc r => exact h.read.store ho

@[simp] theorem ea_wp (s : State) (op : Operand) (size : Size) : (s.ea op size).2.wp = s.wp := by
  cases op <;> rfl
@[simp] theorem ea_st (s : State) (op : Operand) (size : Size) : (s.ea op size).2.st = s.st := by
  cases op <;> rfl
@[simp] theorem ea_plat (s : State) (op : Operand) (size : Size) : (s.ea op size).2.plat = s.plat := by
  cases op <;> rfl

/-- Deriving an address leaves every part of the state but PC and the bus. -/
theorem ea_core (s : State) (op : Operand) (size : Size) :
    (s.ea op size).2 = { s with pc := (s.ea op size).2.pc, bus := (s.ea op size).2.bus } := by
  cases op <;> rfl

/-- The common part of the DUAL instructions keeps all but PC, the draws and the incremented registers (R180). -/
theorem dualWord_kept (s : State) (sop dop : Operand) :
    KeptOutside s (s.dualWord sop dop).s fun x => Bumps sop s.wp x ∨ Bumps dop s.wp x := by
  refine KeptOutside.derived (KeptOutside.read (KeptOutside.derived (.refl _ _) fun x hx => .inl hx)) fun x hx => ?_
  simp only [State.readWord_snd, State.inputCycles_wp, ea_wp] at hx
  exact .inr hx

theorem dualByte_kept (s : State) (sop dop : Operand) :
    KeptOutside s (s.dualByte sop dop).s fun x => Bumps sop s.wp x ∨ Bumps dop s.wp x := by
  refine KeptOutside.derived (KeptOutside.readByte (KeptOutside.derived (.refl _ _) fun x hx => .inl hx)) fun x hx => ?_
  simp only [State.readByte_snd, State.inputCycles_wp, ea_wp] at hx
  exact .inr hx

@[simp] theorem dualWord_st (s : State) (sop dop : Operand) : (s.dualWord sop dop).s.st = s.st := by
  simp [State.dualWord]
@[simp] theorem dualByte_st (s : State) (sop dop : Operand) : (s.dualByte sop dop).s.st = s.st := by
  simp [State.dualByte]
@[simp] theorem dualWord_plat (s : State) (sop dop : Operand) : (s.dualWord sop dop).s.plat = s.plat :=
  (dualWord_kept s sop dop).plat
@[simp] theorem dualByte_plat (s : State) (sop dop : Operand) : (s.dualByte sop dop).s.plat = s.plat :=
  (dualByte_kept s sop dop).plat

theorem sourceWord_kept (s : State) (sop : Operand) : KeptOutside s (s.sourceWord sop).2 (Bumps sop s.wp) :=
  KeptOutside.read (KeptOutside.derived (.refl _ _) fun _ hx => hx)

@[simp] theorem sourceWord_st (s : State) (sop : Operand) : (s.sourceWord sop).2.st = s.st := by
  simp [State.sourceWord]
@[simp] theorem sourceWord_plat (s : State) (sop : Operand) : (s.sourceWord sop).2.plat = s.plat :=
  (sourceWord_kept s sop).plat
@[simp] theorem sourceWord_wp (s : State) (sop : Operand) : (s.sourceWord sop).2.wp = s.wp :=
  (sourceWord_kept s sop).wp

/-! ### Input cycles, and stores after them -/

theorem onlyDrew_readWordAs (iaq : Bool) (s : State) (a : Word) : OnlyDrew s.bus (s.readWordAs iaq a).2.bus :=
  .of _ _ (isInput_readCycles _ _ _)

theorem onlyDrew_readWord (s : State) (a : Word) : OnlyDrew s.bus (s.readWord a).2.bus := onlyDrew_readWordAs ..

theorem onlyDrew_readByte (s : State) (a : Word) : OnlyDrew s.bus (s.readByte a).2.bus := .of _ _ (by simp [isInput])

theorem onlyDrew_readReg (s : State) (n : Reg) : OnlyDrew s.bus (s.readReg n).2.bus := onlyDrew_readWord ..

theorem onlyDrew_fetch (s : State) : OnlyDrew s.bus s.fetch.2.bus := onlyDrew_readWord ..

theorem onlyDrew_cruIn (s : State) (a : CruAddr) : OnlyDrew s.bus (s.cruIn a).2.bus := .of _ _ (by simp [isInput])

/-- A read-modify-write of a word: what is stored, the status, and the frame (R180, R240). -/
theorem modifyWord_spec (p : Pair 16) (f : Word → Word → Word) (g : Word → Word → Word → Word) :
    let old := busReadWord p.s.plat p.s.bus p.da
    let t := modifyWord p f g
    WordStored p.s.plat p.s.bus t.bus p.da (f p.src old) ∧ t.st = g p.src old p.s.st ∧ t.pc = p.s.pc ∧
      KeptOutside p.s t (InWord p.da) :=
  ⟨(busWriteWord_stored ..).after (onlyDrew_readWord ..), rfl, rfl,
    KeptOutside.status _ (KeptOutside.store (.read (.refl _ _)) fun _ hx => hx)⟩

theorem modifyByte_spec (p : Pair 8) (f : Byte → Byte → Byte) (g : Byte → Byte → Word → Word) :
    let old := busReadByte p.s.plat p.s.bus p.da
    let t := modifyByte p f g
    ByteStored p.s.plat p.s.bus t.bus p.da (f p.src old) ∧ t.st = g p.src old p.s.st ∧ t.pc = p.s.pc ∧
      KeptOutside p.s t (InByte p.s.plat p.da) :=
  ⟨(busWriteByte_stored ..).after (onlyDrew_readByte ..), rfl, rfl,
    KeptOutside.status _ (KeptOutside.storeByte (.readByte (.refl _ _)) fun _ hx => hx)⟩

theorem compareWord_spec (p : Pair 16) (g : Word → Word → Word → Word) :
    let t := compareWord p g
    t.st = g p.src (busReadWord p.s.plat p.s.bus p.da) p.s.st ∧ t.pc = p.s.pc ∧ OnlyDrew p.s.bus t.bus ∧
      KeptOutside p.s t fun _ => False :=
  ⟨rfl, rfl, onlyDrew_readWord .., KeptOutside.status _ (.read (.refl _ _))⟩

theorem compareByte_spec (p : Pair 8) (g : Byte → Byte → Word → Word) :
    let t := compareByte p g
    t.st = g p.src (busReadByte p.s.plat p.s.bus p.da) p.s.st ∧ t.pc = p.s.pc ∧ OnlyDrew p.s.bus t.bus ∧
      KeptOutside p.s t fun _ => False :=
  ⟨rfl, rfl, onlyDrew_readByte .., KeptOutside.status _ (.readByte (.refl _ _))⟩

/-- A SINGLE read-modify-write (R240). -/
theorem modifySingle_spec (s : State) (sop : Operand) (f : Word → Word) (g : Word → Word → Word) :
    let q := s.ea sop .word
    let old := busReadWord s.plat q.2.bus q.1
    let t := s.modifySingle sop f g
    WordStored s.plat q.2.bus t.bus q.1 (f old) ∧ t.st = g old s.st ∧ t.pc = q.2.pc ∧
      KeptOutside s t fun x => Bumps sop s.wp x ∨ InWord q.1 x := by
  intro q old t
  have hp : q.2.plat = s.plat := ea_plat ..
  refine ⟨?_, ?_, rfl, ?_⟩
  · have h : WordStored q.2.plat q.2.bus t.bus q.1 (f (busReadWord q.2.plat q.2.bus q.1)) :=
      (busWriteWord_stored ..).after (onlyDrew_readWord ..)
    rwa [hp] at h
  · show g (busReadWord q.2.plat q.2.bus q.1) q.2.st = _
    rw [hp, show q.2.st = s.st from ea_st ..]
  · exact KeptOutside.status _ (KeptOutside.store (.read (.derived (.refl _ _) fun _ hx => .inl hx)) fun _ hx => .inr hx)

/-- A SINGLE instruction that only writes (R151). -/
theorem writeSingle_spec (s : State) (sop : Operand) (v : Word) :
    let q := s.ea sop .word
    let t := s.writeSingle sop v
    WordStored s.plat q.2.bus t.bus q.1 v ∧ t.st = s.st ∧ t.pc = q.2.pc ∧
      KeptOutside s t fun x => Bumps sop s.wp x ∨ InWord q.1 x := by
  intro q t
  have hp : q.2.plat = s.plat := ea_plat ..
  refine ⟨?_, ea_st .., rfl, ?_⟩
  · have h := busWriteWord_stored q.2.plat q.2.bus q.1 v
    rw [hp] at h
    exact (show t.bus = busWriteWord s.plat q.2.bus q.1 v by
      show busWriteWord q.2.plat _ _ _ = _
      rw [hp]) ▸ h
  · exact KeptOutside.store (.derived (.refl _ _) fun _ hx => .inl hx) fun _ hx => .inr hx

/-- An IMMW instruction that writes its register (R350). -/
theorem immediateWrite_spec (s : State) (w : Reg) (f : Word → Word → Word) (g : Word → Word → Word → Word) :
    let iop := busReadWord s.plat s.bus s.pc
    let old := busReadWord s.plat s.fetch.2.bus (wrAddr s.wp w)
    let t := s.immediateWrite w f g
    WordStored s.plat s.bus t.bus (wrAddr s.wp w) (f old iop) ∧ t.st = g old iop s.st ∧ t.pc = s.pc + 2 ∧
      KeptOutside s t (InWord (wrAddr s.wp w)) :=
  ⟨(busWriteWord_stored ..).after ((onlyDrew_fetch s).trans (onlyDrew_readReg ..)), rfl, rfl,
    KeptOutside.status _ (KeptOutside.store (.read (.fetched (.refl _ _))) fun _ hx => hx)⟩

/-! ### Jumps and shifts -/

/-- A jump changes PC or nothing (R310). -/
theorem jump_spec (s : State) (d : BitVec 8) (c : Bool) :
    s.jump d c = { s with pc := if c then s.pc + 2 * d.signExtend 16 else s.pc } := by
  cases c <;> rfl

/-- The shift count is 1 to 16: C, or the low bits of WR0, 0 there meaning 16 (R330). -/
theorem shiftCount_fst (s : State) (c : BitVec 4) :
    (s.shiftCount c).1 =
      if c ≠ 0 then c.toNat
      else if (busReadWord s.plat s.bus (wrAddr s.wp 0)).toNat % 16 = 0 then 16
      else (busReadWord s.plat s.bus (wrAddr s.wp 0)).toNat % 16 := by
  have hn : ∀ v : Word, (v.extractLsb' 0 4).toNat = v.toNat % 16 := by
    intro v; simp [BitVec.extractLsb'_toNat]
  have hz : ∀ v : Word, v.extractLsb' 0 4 = 0 ↔ v.toNat % 16 = 0 := by
    intro v; rw [← hn, BitVec.toNat_eq]; simp
  unfold State.shiftCount
  by_cases hc : c = 0
  · simp only [hc, if_true, ne_eq, not_true_eq_false, if_false, State.readReg_fst, hn]
    by_cases h : (busReadWord s.plat s.bus (wrAddr s.wp 0)).toNat % 16 = 0
    · rw [if_pos h, if_pos ((hz _).mpr h)]
    · rw [if_neg h, if_neg fun e => h ((hz _).mp e)]
  · rw [if_neg hc, if_pos hc]

theorem shiftCount_range (s : State) (c : BitVec 4) : 1 ≤ (s.shiftCount c).1 ∧ (s.shiftCount c).1 ≤ 16 := by
  rw [shiftCount_fst]
  have := c.isLt
  by_cases hc : c = 0
  · simp only [hc, ne_eq, not_true_eq_false, if_false]
    split <;> omega
  · have h0 : c.toNat ≠ 0 := fun h => hc (BitVec.eq_of_toNat_eq (by simpa using h))
    simp only [ne_eq, hc, not_false_eq_true, if_true]; omega

theorem shiftCount_kept (s : State) (c : BitVec 4) : KeptOutside s (s.shiftCount c).2 fun _ => False := by
  unfold State.shiftCount
  split
  · exact .read (.refl _ _)
  · exact .refl _ _

theorem onlyDrew_shiftCount (s : State) (c : BitVec 4) : OnlyDrew s.bus (s.shiftCount c).2.bus := by
  unfold State.shiftCount
  split
  · exact onlyDrew_readReg ..
  · exact .refl _

theorem shiftCount_st (s : State) (c : BitVec 4) : (s.shiftCount c).2.st = s.st := by
  unfold State.shiftCount; split <;> rfl

theorem shiftCount_pc (s : State) (c : BitVec 4) : (s.shiftCount c).2.pc = s.pc := by
  unfold State.shiftCount; split <;> rfl

/-- A shift stores its result in its register and sets the status of value and count (R330). -/
theorem shift_spec (s : State) (w : Reg) (c : BitVec 4) (f : Word → Nat → Shifted) (g : Word → Nat → Word → Word) :
    let q := s.shiftCount c
    let v := busReadWord s.plat q.2.bus (wrAddr s.wp w)
    let t := s.shift w c f g
    WordStored s.plat s.bus t.bus (wrAddr s.wp w) (f v q.1).r ∧ t.st = g v q.1 s.st ∧ t.pc = s.pc ∧
      KeptOutside s t (InWord (wrAddr s.wp w)) := by
  intro q v t
  have hq := shiftCount_kept s c
  have hp : q.2.plat = s.plat := hq.plat
  have hw : q.2.wp = s.wp := hq.wp
  refine ⟨?_, ?_, shiftCount_pc s c, ?_⟩
  · have h : WordStored q.2.plat s.bus t.bus (wrAddr q.2.wp w)
        (f (busReadWord q.2.plat q.2.bus (wrAddr q.2.wp w)) q.1).r :=
      (busWriteWord_stored ..).after ((onlyDrew_shiftCount s c).trans (onlyDrew_readReg ..))
    rwa [hp, hw] at h
  · show g (busReadWord q.2.plat q.2.bus (wrAddr q.2.wp w)) q.1 q.2.st = _
    rw [hp, hw, show q.2.st = s.st from shiftCount_st s c]
  · refine KeptOutside.status _ (KeptOutside.store (.read (hq.mono fun _ h => h.elim)) fun x hx => ?_)
    simp only [State.readReg_snd, State.inputCycles_wp] at hx
    rwa [hw] at hx

/-! ### The CRU (R78, R79, R281, R282) -/

/-- A bit of the flag register after a write (R456). -/
theorem getLsbD_flagWrite (f : BitVec 16) (i j : Nat) (b : Bool) (hj : j < 16) :
    (flagWrite f i b).getLsbD j = if j = i ∧ ¬(i = 2 ∨ i = 3 ∨ i = 4) then b else f.getLsbD j := by
  unfold flagWrite
  by_cases h : i = 2 ∨ i = 3 ∨ i = 4
  · simp [h]
  · rw [if_neg h]
    have := getLsbD_stPut i j b f hj
    unfold stPut at this
    unfold flagPut
    rw [this]
    simp [h]

/-- LDCR's cycles: one event a bit, the lowest first, and each bit's effect on chip. -/
theorem cruOutBits_succ (base : CruAddr) (v : Word) (i k : Nat) (s : State) :
    cruOutBits base v i (k + 1) s =
      cruOutBits base v (i + 1) k (s.cruOut (cruFieldAddr base i) (v.getLsbD i)) := rfl

theorem cruOutBits_core (base : CruAddr) (v : Word) (i k : Nat) (s : State) :
    cruOutBits base v i k s = { s with bus := (cruOutBits base v i k s).bus } := by
  induction k generalizing i s with
  | zero => rfl
  | succ k ih => rw [cruOutBits_succ, ih]; rfl

theorem cruOutBits_mem (base : CruAddr) (v : Word) (i k : Nat) (s : State) :
    (cruOutBits base v i k s).bus.mem = s.bus.mem ∧ (cruOutBits base v i k s).bus.decStart = s.bus.decStart ∧
      (cruOutBits base v i k s).bus.decCount = s.bus.decCount ∧
      (cruOutBits base v i k s).bus.draws = s.bus.draws := by
  induction k generalizing i s with
  | zero => exact ⟨rfl, rfl, rfl, rfl⟩
  | succ k ih => exact ih (i + 1) _

/-- STCR's cycles: one input cycle a bit, the lowest first, and nothing but one draw each (R81, R282). -/
theorem cruInBits_snd (base : CruAddr) (i k : Nat) (s : State) :
    (cruInBits base i k s).2 =
      { s with
        bus := busNote { s.bus with draws := s.bus.draws + k }
          ((List.range k).map fun j => BusEvent.cruIn (cruFieldAddr base (i + j))).reverse } := by
  induction k generalizing i s with
  | zero => rfl
  | succ k ih =>
    show (cruInBits base (i + 1) k (s.cruIn (cruFieldAddr base i)).2).2 = _
    rw [ih, List.range_succ_eq_map]
    simp [State.cruIn, State.inputCycles, busNote, Nat.add_assoc, Nat.add_comm 1, Function.comp_def]

theorem onlyDrew_cruInBits (base : CruAddr) (i k : Nat) (s : State) :
    OnlyDrew s.bus (cruInBits base i k s).2.bus := by
  rw [cruInBits_snd]
  refine .of s.bus _ fun c hc => ?_
  obtain ⟨j, -, rfl⟩ := List.mem_map.mp (List.mem_reverse.mp hc)
  rfl

/-- The bit address of bit `i` (R286). -/
theorem cruFieldAddr_toNat (base : CruAddr) (i : Nat) : (cruFieldAddr base i).toNat = (base.toNat + i) % 32768 := by
  unfold cruFieldAddr; rw [BitVec.toNat_add, BitVec.toNat_ofNat]; simp

/-- CruBase is WR12 without its LSB, as a bit address (R80). -/
theorem cruBase_toNat (v : Word) : (cruBase v).toNat = v.toNat / 2 := by
  unfold cruBase; rw [BitVec.extractLsb'_toNat, Nat.shiftRight_eq_div_pow]; have := v.isLt; omega

/-- A bit of the flag register after an output cycle (R79). -/
theorem getLsbD_busCruOut (b : Bus) (a : CruAddr) (v : Bool) (k : Nat) (hk : k < 16) :
    (busCruOut b a v).flags.getLsbD k =
      if a.toNat = 0x0F70 + k ∧ ¬(k = 2 ∨ k = 3 ∨ k = 4) then v else b.flags.getLsbD k := by
  unfold busCruOut
  simp only
  by_cases h : 0x0F70 ≤ a.toNat ∧ a.toNat ≤ 0x0F7F
  · rw [if_pos h, getLsbD_flagWrite _ _ _ _ hk]
    have : (k = a.toNat - 0x0F70 ∧ ¬(a.toNat - 0x0F70 = 2 ∨ a.toNat - 0x0F70 = 3 ∨ a.toNat - 0x0F70 = 4)) ↔
        (a.toNat = 0x0F70 + k ∧ ¬(k = 2 ∨ k = 3 ∨ k = 4)) := by omega
    simp only [this]
  · rw [if_neg h, if_neg (by omega)]

/-- All that the output cycles of LDCR do (R79, R281). -/
theorem cruOutBits_written (base : CruAddr) (v : Word) (k i : Nat) (s : State) (hk : k ≤ 16) :
    CruFieldWritten s.bus (cruOutBits base v i k s).bus (base.toNat + i) k fun j => v.getLsbD (i + j) := by
  induction k generalizing i s with
  | zero =>
    exact ⟨rfl, rfl, rfl, rfl, fun _ _ => ⟨fun j hj => absurd hj (Nat.not_lt_zero j), fun _ => rfl⟩,
      fun j hj => absurd hj (Nat.not_lt_zero j), fun _ => rfl⟩
  | succ k ih =>
    have next : ∀ j, base.toNat + (i + 1) + j = base.toNat + i + (j + 1) := by intro j; omega
    have bitNext : ∀ j, v.getLsbD (i + 1 + j) = v.getLsbD (i + (j + 1)) := by intro j; congr 1; omega
    obtain ⟨a1, a2, a3, a4, a5, a6, a7⟩ := ih (i + 1) (s.cruOut (cruFieldAddr base i) (v.getLsbD i)) (by omega)
    simp only [next, bitNext] at a4 a5 a6 a7
    rw [cruOutBits_succ]
    refine ⟨a1, a2, a3, ?_, ?_, ?_, ?_⟩
    · have e : BitVec.ofNat 15 (base.toNat + i + 0) = cruFieldAddr base i := by
        apply BitVec.eq_of_toNat_eq; rw [cruFieldAddr_toNat, BitVec.toNat_ofNat]; simp
      rw [a4, List.range_succ_eq_map]
      simp only [List.map_cons, List.map_map, List.reverse_cons, List.append_assoc, List.singleton_append]
      rw [Nat.add_zero i, e]
      rfl
    · intro f hf
      obtain ⟨b1, b2⟩ := a5 f hf
      have one := getLsbD_busCruOut s.bus (cruFieldAddr base i) (v.getLsbD i) f hf
      rw [cruFieldAddr_toNat] at one
      constructor
      · intro j hj hjf hn
        rcases j with _ | j
        · rw [b2 (.inl fun j' hj' => by omega)]
          exact one.trans (if_pos ⟨hjf, hn⟩)
        · exact b1 j (by omega) hjf hn
      · intro h
        rw [b2 (h.imp_left fun h j hj => h (j + 1) (by omega))]
        refine one.trans (if_neg fun ⟨x, y⟩ => ?_)
        rcases h with h | h
        · exact h 0 (by omega) x
        · exact y h
    · intro j hj hjf
      rcases j with _ | j
      · rw [a7 fun j' hj' => by omega]
        show (if (cruFieldAddr base i).toNat = 0x0FED then _ else _) = _
        rw [cruFieldAddr_toNat]
        exact if_pos hjf
      · exact a6 j (by omega) hjf
    · intro h
      rw [a7 fun j hj => h (j + 1) (by omega)]
      show (if (cruFieldAddr base i).toNat = 0x0FED then _ else _) = _
      rw [cruFieldAddr_toNat]
      exact if_neg (h 0 (by omega))

/-- A bit of what STCR reads: the input bit at its address, and 0 beyond the count (R282). -/
theorem getLsbD_cruInBits (base : CruAddr) (k i : Nat) (s : State) (j : Nat) (hj : j < 16) :
    (cruInBits base i k s).1.getLsbD j =
      (decide (i ≤ j ∧ j < i + k) &&
        { s with bus := { s.bus with draws := s.bus.draws + (j - i) } }.cruBit (BitVec.ofNat 15 (base.toNat + j))) := by
  induction k generalizing i s with
  | zero =>
    rw [show decide (i ≤ j ∧ j < i + 0) = false by simp]
    simp [cruInBits]
  | succ k ih =>
    show ((if s.cruBit (cruFieldAddr base i) then 1#16 <<< i else 0) |||
      (cruInBits base (i + 1) k (s.cruIn (cruFieldAddr base i)).2).1).getLsbD j = _
    rw [BitVec.getLsbD_or, ih (i + 1) (s.cruIn (cruFieldAddr base i)).2]
    by_cases h : j = i
    · subst h
      have e : cruFieldAddr base j = BitVec.ofNat 15 (base.toNat + j) := by
        apply BitVec.eq_of_toNat_eq; rw [cruFieldAddr_toNat, BitVec.toNat_ofNat]
      rw [e, show decide (j + 1 ≤ j ∧ j < j + 1 + k) = false by simp,
        show decide (j ≤ j ∧ j < j + (k + 1)) = true by simp, Nat.sub_self, Bool.false_and, Bool.or_false,
        Bool.true_and]
      show _ = s.cruBit _
      cases s.cruBit (BitVec.ofNat 15 (base.toNat + j))
      · simp
      · simp [getLsbD_one_shiftLeft _ _ hj]
    · have other : (if s.cruBit (cruFieldAddr base i) = true then 1#16 <<< i else 0).getLsbD j = false := by
        split
        · rw [getLsbD_one_shiftLeft _ _ hj]; simp [h]
        · simp
      rw [other, Bool.false_or]
      by_cases hle : i + 1 ≤ j
      · have draws : (s.cruIn (cruFieldAddr base i)).2.bus.draws + (j - (i + 1)) = s.bus.draws + (j - i) := by
          show s.bus.draws + 1 + (j - (i + 1)) = _; omega
        rw [draws]
        refine congr_arg₂ (· && ·) ?_ rfl
        rw [decide_eq_decide]; omega
      · rw [show decide (i + 1 ≤ j ∧ j < i + 1 + k) = false by simp; omega,
          show decide (i ≤ j ∧ j < i + (k + 1)) = false by simp; omega]
        simp

/-! ### Context switches (R420, R370) -/

/-- The three stores of a context switch, in order. -/
theorem enter_stored (s : State) (w pc : Word) :
    ContextStored s.plat s.bus (s.enter w pc).bus (evenAddr w) s.wp s.pc s.st :=
  ⟨_, _, busWriteWord_stored .., busWriteWord_stored .., busWriteWord_stored ..⟩

theorem ContextStored.after {p : Platform} {b c d : Bus} {w wp pc st : Word} (h : ContextStored p c d w wp pc st)
    (k : OnlyDrew b c) : ContextStored p b d w wp pc st := by
  obtain ⟨b1, b2, h1, h⟩ := h
  exact ⟨b1, b2, h1.after k, h⟩

/-- A context switch changes WP, PC and the bus, and nothing else. -/
theorem enter_core (s : State) (w pc : Word) :
    s.enter w pc = { s with wp := evenAddr w, pc := evenAddr pc, bus := (s.enter w pc).bus } := rfl

theorem contextSwitch_eq (s : State) (vec : Word) :
    s.contextSwitch vec = ((s.readWord vec).2.readWord (vec + 2)).2.enter (busReadWord s.plat s.bus vec)
      (busReadWord s.plat s.tickDraws.bus (vec + 2)) := by
  unfold State.contextSwitch
  simp only [State.readWord_fst, State.readWord_snd, State.inputCycles_plat, busReadWord_inputCycles]

theorem contextSwitch_core (s : State) (vec : Word) :
    s.contextSwitch vec =
      { s with
        wp := evenAddr (busReadWord s.plat s.bus vec)
        pc := evenAddr (busReadWord s.plat s.tickDraws.bus (vec + 2))
        bus := (s.contextSwitch vec).bus } := by
  rw [contextSwitch_eq]
  exact enter_core _ _ _

theorem contextSwitch_stored (s : State) (vec : Word) :
    ContextStored s.plat s.bus (s.contextSwitch vec).bus (evenAddr (busReadWord s.plat s.bus vec)) s.wp s.pc s.st := by
  have h := enter_stored ((s.readWord vec).2.readWord (vec + 2)).2 (busReadWord s.plat s.bus vec)
    (busReadWord s.plat s.tickDraws.bus (vec + 2))
  rw [← contextSwitch_eq] at h
  exact h.after ((onlyDrew_readWord s vec).trans (onlyDrew_readWord ..))

/-- What an interrupt's switch leaves (R420, R421). -/
theorem interruptSwitch_core (s : State) (k : IntKind) :
    s.interruptSwitch k =
      { s.contextSwitch (intVector k) with st := intStatus k s.st, idle := false } := by
  have h : (s.contextSwitch (intVector k)).st = s.st := by rw [contextSwitch_core]
  unfold State.interruptSwitch State.mapSt
  rw [h]

/-- What taking an interrupt leaves (R414, R420 to R422): the switch, its own request used up, the inhibit. -/
theorem takeInterrupt_core (s : State) (k : IntKind) :
    s.takeInterrupt k =
      { s with
        wp := evenAddr (busReadWord s.plat s.bus (intVector k))
        pc := evenAddr (busReadWord s.plat s.tickDraws.bus (intVector k + 2))
        bus := (s.contextSwitch (intVector k)).bus
        st := intStatus k s.st, idle := false
        latch1 := s.latch1 && decide (k ≠ .level1)
        latch3 := s.latch3 && decide (k ≠ .level3)
        latch4 := s.latch4 && decide (k ≠ .level4)
        nmiArmed := s.nmiArmed && decide (k ≠ .nmi)
        midPending := s.midPending && decide (k ≠ .mid)
        inhibit := inhibitAfter k, prefetch := none } := by
  unfold State.takeInterrupt
  rw [interruptSwitch_core, contextSwitch_core]
  cases k <;> simp [State.consume]

/-- What a return restores (R370). -/
theorem returnSwitch_core (s : State) :
    s.returnSwitch =
      { s with
        st := busReadWord s.plat s.bus (wrAddr s.wp 15)
        pc := evenAddr (busReadWord s.plat s.tickDraws.bus (wrAddr s.wp 14))
        wp := evenAddr (busReadWord s.plat s.tickDraws.tickDraws.bus (wrAddr s.wp 13))
        bus := s.returnSwitch.bus } := by
  unfold State.returnSwitch
  simp only [State.readReg_fst, State.readReg_snd, State.inputCycles_plat, State.inputCycles_wp,
    busReadWord_inputCycles, State.tickDraws_inputCycles]
  rfl

/-- A return stores nothing (R370). -/
theorem onlyDrew_returnSwitch (s : State) : OnlyDrew s.bus s.returnSwitch.bus :=
  (onlyDrew_readReg s 15).trans ((onlyDrew_readReg _ 14).trans (onlyDrew_readReg _ 13))

/-- Noting the prefetch changes nothing else (R490). -/
theorem notePrefetch_core (i : Instr) (u t : State) :
    State.notePrefetch i u t = { t with prefetch := (State.notePrefetch i u t).prefetch } := by
  unfold State.notePrefetch
  split
  · rfl
  · split <;> rfl

/-- An instruction that runs is followed by its prefetch noted. -/
theorem run_of_exec {u t : State} {i : Instr} (h : exec i u = .next t) : u.run i = .next (State.notePrefetch i u t) := by
  unfold State.run
  rw [h]

/-- Losing the context changes WP, PC and ST only (R481). -/
theorem loseContext_core (s : State) :
    s.loseContext = { s with wp := s.loseContext.wp, pc := s.loseContext.pc, st := s.loseContext.st } := rfl

/-- What a step abandoned within its bus cycles leaves (R481). -/
theorem abandon_core (s t : State) (k : Nat) :
    s.abandon t k = { s with bus := (s.abandon t k).bus, cutShort := true } := rfl

/-! ### The boundary and X -/

/-- At a boundary the CPU's step is the interrupt granted, or else it proceeds (R414). -/
theorem step_boundary {s : State} (h : AtBoundary s) :
    step s = match s.grant with
      | some k => .next (s.takeInterrupt k)
      | none => s.proceed := by
  obtain ⟨⟨ha, hr, hh⟩, hp, hx⟩ := h
  unfold step State.machineStep
  rw [ha]
  show s.cpuStep = _
  unfold State.cpuStep
  rw [if_neg (by rw [hr, hh]; decide), if_neg (by rw [hp]; decide), hx]
  all_goals rfl

/-- A step that takes no interrupt runs the instruction whose opcode is fetched (R414, R506). -/
theorem step_runs {s : State} (h : AtBoundary s) (hg : s.grant = none) (hi : s.idle = false) :
    step s = { s with inhibit := .none }.runInstruction := by
  rw [step_boundary h, hg]
  show s.proceed = _
  unfold State.proceed
  exact if_neg (by show ¬s.idle = true; rw [hi]; decide)

/-- What the boundary takes (R414). -/
theorem grant_eq_some {s : State} {k : IntKind} (h : s.grant = some k) :
    (k = .mid ∧ s.midPending = true) ∨
      (s.midPending = false ∧ k = .nmi ∧ s.reqNmi = true ∧ s.inhibit ≠ .allButReset) ∨
      (s.midPending = false ∧ s.inhibit = .none ∧ s.reqNmi = false ∧ s.acceptedLevel = some k) := by
  unfold State.grant at h
  cases hm : s.midPending <;> cases hi : s.inhibit <;> cases hn : s.reqNmi <;> simp_all

/-- Every instruction but X does as a target what it does on its own (R254). -/
theorem execTarget_eq {t : Word} (h : isX t = false) (s : State) : execTarget t s = exec (decode t) s := by
  unfold execTarget
  cases e : decode t <;> first | rfl | simp [isX, e, Instr.mnemonic] at h

/-- A target that is again an X is left for the next step (log 21). -/
theorem execTarget_x {t : Word} (h : isX t = true) (s : State) :
    execTarget t s = .next { s with xPending := some t } := by
  unfold execTarget
  cases e : decode t <;> first | rfl | simp [isX, e, Instr.mnemonic] at h

end Sys2Proof.Machine
end

