-- ==== Sys2Proof/Laws/Cycles.lean ====
section
/-! SUPPORT. Bus cycles performed again (70_reset_and_hazards.md R481): what one cycle does to every byte and
flag, and that the cycles a bus operation notes, performed in order, do all that it does. -/

namespace Sys2Proof.Machine

/-! ### One cycle -/

@[simp] theorem busCycle_events (p : Platform) (b : Bus) (c : BusEvent) :
    (busCycle p b c).events = c :: b.events := by
  cases c with
  | memRead a q => rfl
  | cruIn a => rfl
  | byteWrite a v => simp [busCycle]
  | wordWrite a v => simp only [busCycle, busNote, busStoreWord]; split <;> simp [busPutWord]
  | cruOut a v => rfl
  | extInstr c => rfl

/-- A cycle leaves its byte where it stores one, and every other byte alone. -/
theorem storedByte_busCycle (p : Platform) (b : Bus) (c : BusEvent) (x : Word) :
    storedByte p (busCycle p b c) x = (cycleByte p x c).getD (storedByte p b x) := by
  cases c with
  | memRead a q => rfl
  | cruIn a => rfl
  | byteWrite a v =>
    show storedByte p (busPutByte p b a v) x = _
    rw [storedByte_busPutByte]
    simp only [cycleByte]
    by_cases h : x = a ∧ isWritable p x = true
    · rw [if_pos h, if_pos h]; rfl
    · rw [if_neg h, if_neg h]; rfl
  | wordWrite a v =>
    show storedByte p (busStoreWord p b (evenAddr a) v) x = _
    have h := busWriteWord_stored p b a v
    have e : storedByte p (busStoreWord p b (evenAddr a) v) x = storedByte p (busWriteWord p b a v) x := rfl
    rw [e]
    obtain ⟨-, -, -, h⟩ := h
    simp only [cycleByte]
    by_cases hd : placeOf p (evenAddr a) = .decrementer
    · rw [if_pos hd] at h
      by_cases hx : evenAddr x = evenAddr a
      · have hp : placeOf p x = .decrementer :=
          (placeOf_decrementer_of_inWord hx).mpr ((placeOf_decrementer_even p a).mp hd)
        rw [if_pos ⟨hx, .inr hp⟩, storedByte_of_decrementer hp, h.2.1]
        rfl
      · rw [if_neg fun k => hx k.1]
        exact h.2.2 x hx
    · rw [if_neg hd] at h
      have hp : evenAddr x = evenAddr a → placeOf p x ≠ .decrementer := fun k e =>
        hd ((placeOf_decrementer_even p a).mpr ((placeOf_decrementer_of_inWord k).mp e))
      rw [h.2.2]
      by_cases hx : evenAddr x = evenAddr a ∧ isWritable p x = true
      · simp only [hx.1, hx.2, true_or, and_self, and_true, if_true, Option.getD_some]
        rcases (inWord_iff a x).mp hx.1 with e | e
        · rw [if_pos e, show x.getLsbD 0 = false by rw [e]; simp]; rfl
        · have odd : x.getLsbD 0 = true := by
            have t := congrArg BitVec.toNat e
            rw [evenAddr_succ_toNat] at t
            simp only [BitVec.getLsbD, Nat.testBit_zero, decide_eq_true_eq]
            omega
          rw [if_neg fun k => succ_ne_evenAddr a (e.symm.trans k), if_pos e, odd]; rfl
      · rw [if_neg fun k => hx ⟨by rw [k.1]; simp, k.2⟩, if_neg fun k => hx ⟨by rw [k.1]; simp, k.2⟩,
          if_neg fun k => hx ⟨k.1, k.2.resolve_right (hp k.1)⟩]
        rfl
  | cruOut a v => rfl
  | extInstr c => rfl

/-- A cycle gives a flag its value where it reaches one, and leaves the others alone. -/
theorem flags_busCycle (p : Platform) (b : Bus) (c : BusEvent) (k : Nat) (hk : k < 16) :
    (busCycle p b c).flags.getLsbD k = (cycleFlag k c).getD (b.flags.getLsbD k) := by
  cases c with
  | memRead a q => rfl
  | cruIn a => rfl
  | byteWrite a v => simp [busCycle, cycleFlag]
  | wordWrite a v =>
    simp only [busCycle, cycleFlag, busNote, busStoreWord]
    split <;> simp [busPutWord]
  | cruOut a v =>
    show (busCruOut b a v).flags.getLsbD k = _
    rw [getLsbD_busCruOut b a v k hk]
    simp only [cycleFlag]
    by_cases h : a.toNat = 0x0F70 + k ∧ ¬(k = 2 ∨ k = 3 ∨ k = 4)
    · rw [if_pos h, if_pos h]; rfl
    · rw [if_neg h, if_neg h]; rfl
  | extInstr c => rfl

/-- A cycle gives the MID flag its value where it reaches it, and leaves it alone elsewhere. -/
theorem midFlag_busCycle (p : Platform) (b : Bus) (c : BusEvent) :
    (busCycle p b c).midFlag = (cycleMid c).getD b.midFlag := by
  cases c with
  | memRead a q => rfl
  | cruIn a => rfl
  | byteWrite a v => simp [busCycle, cycleMid]
  | wordWrite a v =>
    simp only [busCycle, cycleMid, busNote, busStoreWord]
    split <;> simp [busPutWord]
  | cruOut a v =>
    simp only [busCycle, cycleMid, busCruOut_midFlag]
    by_cases h : a.toNat = 0x0FED
    · rw [if_pos h, if_pos h]; rfl
    · rw [if_neg h, if_neg h]; rfl
  | extInstr c => rfl

/-- A cycle loads both registers of the decrementer where it reaches them, and leaves them alone elsewhere. -/
theorem decrementer_busCycle (p : Platform) (b : Bus) (c : BusEvent) :
    (busCycle p b c).decStart = (cycleDec p c).getD b.decStart ∧
      (busCycle p b c).decCount = (cycleDec p c).getD b.decCount := by
  cases c with
  | memRead a q => exact ⟨rfl, rfl⟩
  | cruIn a => exact ⟨rfl, rfl⟩
  | byteWrite a v => simp [busCycle, cycleDec]
  | wordWrite a v =>
    simp only [busCycle, cycleDec, busNote, busStoreWord]
    by_cases h : placeOf p a = .decrementer
    · rw [if_pos ((placeOf_decrementer_even p a).mpr h), if_pos h]
      exact ⟨rfl, rfl⟩
    · rw [if_neg fun e => h ((placeOf_decrementer_even p a).mp e), if_neg h]
      simp [busPutWord]
  | cruOut a v => exact ⟨rfl, rfl⟩
  | extInstr c => exact ⟨rfl, rfl⟩

/-! ### A list of cycles -/

theorem foldl_busCycle_events (p : Platform) (cs : List BusEvent) (b : Bus) :
    (cs.foldl (busCycle p) b).events = cs.reverse ++ b.events := by
  induction cs generalizing b with
  | nil => rfl
  | cons c cs ih => simp [ih]

/-- What each cycle gives a part of the bus, or leaves, a list of cycles gives by the newest that gives it. -/
theorem foldl_busCycle_newest {α : Type} (p : Platform) (f : Bus → α) (g : BusEvent → Option α)
    (one : ∀ b c, f (busCycle p b c) = (g c).getD (f b)) (cs : List BusEvent) (b : Bus) :
    f (cs.foldl (busCycle p) b) = (cs.reverse.findSome? g).getD (f b) := by
  induction cs generalizing b with
  | nil => rfl
  | cons c cs ih =>
    rw [List.foldl_cons, ih, one, List.reverse_cons, List.findSome?_append]
    cases cs.reverse.findSome? g <;> cases k : g c <;> simp [k]

/-- After a list of cycles every byte is what the newest of them left there. -/
theorem storedByte_foldl_busCycle (p : Platform) (cs : List BusEvent) (b : Bus) (x : Word) :
    storedByte p (cs.foldl (busCycle p) b) x = (cs.reverse.findSome? (cycleByte p x)).getD (storedByte p b x) :=
  foldl_busCycle_newest p (storedByte p · x) _ (fun b c => storedByte_busCycle p b c x) cs b

/-- After a list of cycles every flag is what the newest of them left there. -/
theorem flags_foldl_busCycle (p : Platform) (cs : List BusEvent) (b : Bus) (k : Nat) (hk : k < 16) :
    (cs.foldl (busCycle p) b).flags.getLsbD k = (cs.reverse.findSome? (cycleFlag k)).getD (b.flags.getLsbD k) :=
  foldl_busCycle_newest p (·.flags.getLsbD k) _ (fun b c => flags_busCycle p b c k hk) cs b

/-- After a list of cycles the MID flag is what the newest of them left there. -/
theorem midFlag_foldl_busCycle (p : Platform) (cs : List BusEvent) (b : Bus) :
    (cs.foldl (busCycle p) b).midFlag = (cs.reverse.findSome? cycleMid).getD b.midFlag :=
  foldl_busCycle_newest p (·.midFlag) _ (midFlag_busCycle p) cs b

/-- After a list of cycles both registers of the decrementer are what the newest of them loaded. -/
theorem decrementer_foldl_busCycle (p : Platform) (cs : List BusEvent) (b : Bus) :
    (cs.foldl (busCycle p) b).decStart = (cs.reverse.findSome? (cycleDec p)).getD b.decStart ∧
      (cs.foldl (busCycle p) b).decCount = (cs.reverse.findSome? (cycleDec p)).getD b.decCount :=
  ⟨foldl_busCycle_newest p (·.decStart) _ (fun b c => (decrementer_busCycle p b c).1) cs b,
   foldl_busCycle_newest p (·.decCount) _ (fun b c => (decrementer_busCycle p b c).2) cs b⟩

/-! ### The cycles of a change do all of it -/

/-- A bus that the cycles noted since another, performed in order, lead to, draws and the MID flag apart. -/
def Replayed (p : Platform) (b b' : Bus) : Prop :=
  ∃ cs : List BusEvent, b'.events = cs.reverse ++ b.events ∧
    { cs.foldl (busCycle p) b with draws := b'.draws, midFlag := b'.midFlag } = b'

theorem Replayed.of {p : Platform} {b b' : Bus} (cs : List BusEvent) (d : Nat) (m : Bool)
    (h : { cs.foldl (busCycle p) b with draws := d, midFlag := m } = b') : Replayed p b b' := by
  subst h
  exact ⟨cs, foldl_busCycle_events p cs b, rfl⟩

theorem Replayed.refl (p : Platform) (b : Bus) : Replayed p b b := .of [] b.draws b.midFlag rfl

/-- A cycle does not look at the draws or the MID flag. -/
theorem busCycle_apart (p : Platform) (b : Bus) (c : BusEvent) (d : Nat) (m : Bool) :
    ∃ m', busCycle p { b with draws := d, midFlag := m } c = { busCycle p b c with draws := d, midFlag := m' } := by
  have put : ∀ (b : Bus) a v, busPutByte p { b with draws := d, midFlag := m } a v =
      { busPutByte p b a v with draws := d, midFlag := m } := by
    intro b a v; unfold busPutByte; split <;> rfl
  cases c with
  | memRead a q => exact ⟨m, rfl⟩
  | cruIn a => exact ⟨m, rfl⟩
  | byteWrite a v => exact ⟨m, by simp only [busCycle, put]; rfl⟩
  | wordWrite a v =>
    refine ⟨m, ?_⟩
    simp only [busCycle, busStoreWord, busPutWord]
    split
    · rfl
    · rw [put, put]; rfl
  | cruOut a v => exact ⟨_, rfl⟩
  | extInstr c => exact ⟨m, rfl⟩

theorem foldl_busCycle_apart (p : Platform) (cs : List BusEvent) (b : Bus) (d : Nat) (m : Bool) :
    ∃ m', cs.foldl (busCycle p) { b with draws := d, midFlag := m } =
      { cs.foldl (busCycle p) b with draws := d, midFlag := m' } := by
  induction cs generalizing b m with
  | nil => exact ⟨m, rfl⟩
  | cons c cs ih =>
    obtain ⟨m1, h1⟩ := busCycle_apart p b c d m
    rw [List.foldl_cons, h1]
    exact ih _ m1

theorem Replayed.trans {p : Platform} {b c e : Bus} (h : Replayed p b c) (k : Replayed p c e) : Replayed p b e := by
  obtain ⟨cs, -, hc⟩ := h
  obtain ⟨ds, -, hd⟩ := k
  obtain ⟨m, hm⟩ := foldl_busCycle_apart p ds (cs.foldl (busCycle p) b) c.draws c.midFlag
  refine .of (cs ++ ds) e.draws e.midFlag ?_
  rw [List.foldl_append]
  rw [hc] at hm
  rw [hm] at hd
  exact hd

theorem Replayed.tick {p : Platform} {b c : Bus} (h : Replayed p b c) (d : Nat) : Replayed p b { c with draws := d } :=
  h.trans (.of [] d c.midFlag rfl)

theorem Replayed.mid {p : Platform} {b c : Bus} (h : Replayed p b c) (m : Bool) :
    Replayed p b { c with midFlag := m } :=
  h.trans (.of [] c.draws m rfl)

/-- Input cycles do nothing but be noted (R85). -/
theorem Replayed.inputs (p : Platform) (b : Bus) (n : Nat) {cs : List BusEvent} (hc : ∀ c ∈ cs, isInput c = true) :
    Replayed p b (busNote { b with draws := n } cs) := by
  have all : ∀ (l : List BusEvent) (b : Bus), (∀ c ∈ l, isInput c = true) →
      l.foldl (busCycle p) b = busNote b l.reverse := by
    intro l
    induction l with
    | nil => intro b _; rfl
    | cons c l ih =>
      intro b h
      rw [List.foldl_cons, ih _ fun e he => h e (List.mem_cons_of_mem _ he)]
      have note : busCycle p b c = busNote b [c] := by
        have hi := h c List.mem_cons_self
        cases c <;> first | rfl | simp [isInput] at hi
      rw [note]
      simp [busNote]
  refine .of cs.reverse n b.midFlag ?_
  rw [all _ _ fun c hc' => hc c (List.mem_reverse.mp hc'), List.reverse_reverse]
  rfl

/-- A word write is its cycles (R64). -/
theorem replayed_busWriteWord (p : Platform) (b : Bus) (a v : Word) : Replayed p b (busWriteWord p b a v) := by
  have note : ∀ (b : Bus) (cs : List BusEvent) a v, busPutByte p (busNote b cs) a v = busNote (busPutByte p b a v) cs := by
    intro b cs a v; unfold busPutByte; split <;> rfl
  refine .of (wordCycles p (evenAddr a) v).reverse b.draws (busWriteWord p b a v).midFlag ?_
  have draws : (busStoreWord p b (evenAddr a) v).draws = b.draws := by
    unfold busStoreWord; split <;> simp [busPutWord]
  have all : (wordCycles p (evenAddr a) v).reverse.foldl (busCycle p) b = busWriteWord p b a v := by
    unfold busWriteWord wordCycles
    cases h : placeOf p (evenAddr a) with
    | onChip => simp [busCycle]
    | decrementer => simp [busCycle]
    | ext k =>
      simp only [List.reverse_cons, List.reverse_nil, List.nil_append, List.cons_append, List.foldl_cons,
        List.foldl_nil, busCycle, note]
      unfold busStoreWord
      rw [if_neg (by rw [h]; simp)]
      rfl
  rw [all]
  show { busWriteWord p b a v with draws := b.draws } = _
  rw [← draws]; rfl

/-- A byte write is its cycle (R65). -/
theorem replayed_busWriteByte (p : Platform) (b : Bus) (a : Word) (v : Byte) : Replayed p b (busWriteByte p b a v) := by
  unfold busWriteByte
  split
  · refine .of [.wordWrite a (decWord b a v)] (b.draws + 1) b.midFlag ?_
    simp only [List.foldl_cons, List.foldl_nil, busCycle, busStoreWord, (placeOf_decrementer_even p a).mpr ‹_›, if_true]
    rfl
  · refine .of [.byteWrite a v] b.draws b.midFlag ?_
    simp only [List.foldl_cons, List.foldl_nil, busCycle, busPutByte]
    split <;> rfl

/-- A CRU output is its cycle (R79). -/
theorem replayed_busCruOut (p : Platform) (b : Bus) (a : CruAddr) (v : Bool) : Replayed p b (busCruOut b a v) :=
  .of [.cruOut a v] b.draws _ rfl

/-- An external instruction is its cycle (R391). -/
theorem replayed_extInstr (p : Platform) (b : Bus) (c : BitVec 3) : Replayed p b (busNote b [.extInstr c]) :=
  .of [.extInstr c] b.draws b.midFlag rfl

/-! ### A step abandoned (R481) -/

/-- The cycles between two buses are those noted between them. -/
theorem cyclesBetween_eq {b b' : Bus} {cs : List BusEvent} (h : b'.events = cs.reverse ++ b.events) :
    cyclesBetween b b' = cs := by
  unfold cyclesBetween
  rw [h]
  simp

end Sys2Proof.Machine
end

