-- ==== Sys2Proof/Laws/PerInstr.lean ====
section
/-! SUPPORT. A statement about every instruction as syntax, one lemma per constructor: its opcode word has
the fixed bits of its own row of the opcode table (30_encoding.md R121), or is a MID opcode (R122). -/

namespace Sys2Proof.Laws.TableRow

/-- The opcode word of an instruction matches the row of its mnemonic; a well-formed MID term's word lies in
a MID range. -/
def Statement (i : Instr) : Prop :=
  (∃ r ∈ opcodeTable, r.mnemonic = i.mnemonic ∧ encode i &&& r.mask = r.value) ∨
    (i.mnemonic = "MID" ∧ (i.wellFormed = true → isMidOpcode (encode i) = true))

/-! ### The fixed bits of each format -/

/-- A word of leading fixed bits and `k` operand bits keeps the fixed bits under their mask. -/
theorem fixedBits {n k : Nat} (h : n + k = 16) (op : BitVec n) (rest : BitVec k) :
    ((op ++ rest).cast h &&& (BitVec.allOnes n ++ 0#k).cast h) = (op ++ 0#k).cast h := by
  apply BitVec.eq_of_getLsbD_eq
  intro i hi
  simp only [BitVec.getLsbD_and, BitVec.getLsbD_cast, BitVec.getLsbD_append]
  by_cases hk : i < k
  · simp [hk]
  · have : i - k < n := by omega
    simp [hk, this]

theorem dual_fixed (op : BitVec 4) (sop dop : Operand) : encDual op sop dop &&& 0xF000 = op ++ 0#12 := by
  have e : encDual op sop dop = op ++ (dop.tBits ++ (dop.rBits ++ (sop.tBits ++ sop.rBits))) :=
    ((BitVec.append_assoc (x₁ := op ++ dop.tBits ++ dop.rBits)).trans
      (BitVec.append_assoc (x₁ := op ++ dop.tBits))).trans (BitVec.append_assoc (x₁ := op))
  rw [e]
  exact fixedBits rfl op _

theorem dualW_fixed (op : BitVec 6) (sop : Operand) (d : BitVec 4) :
    encDualW op sop d &&& 0xFC00 = op ++ 0#10 := by
  have e : encDualW op sop d = op ++ (d ++ (sop.tBits ++ sop.rBits)) :=
    (BitVec.append_assoc (x₁ := op ++ d)).trans (BitVec.append_assoc (x₁ := op))
  rw [e]
  exact fixedBits rfl op _

theorem single_fixed (op : BitVec 10) (sop : Operand) : encSingle op sop &&& 0xFFC0 = op ++ 0#6 := by
  have e : encSingle op sop = op ++ (sop.tBits ++ sop.rBits) := BitVec.append_assoc (x₁ := op)
  rw [e]
  exact fixedBits rfl op _

theorem disp_fixed (op d : BitVec 8) : encDisp op d &&& 0xFF00 = op ++ 0#8 := fixedBits rfl op d

theorem shift_fixed (op : BitVec 8) (c : BitVec 4) (w : Reg) : encShift op c w &&& 0xFF00 = op ++ 0#8 := by
  have e : encShift op c w = op ++ (c ++ w) := BitVec.append_assoc (x₁ := op)
  rw [e]
  exact fixedBits rfl op _

theorem reg_fixed (op : BitVec 12) (w : Reg) : encReg op w &&& 0xFFF0 = op ++ 0#4 := fixedBits rfl op w

/-- A row of the table with the fixed bits an encoding has. -/
theorem ofRow {i : Instr} (r : OpcodeRow) (hr : r ∈ opcodeTable) (hm : r.mnemonic = i.mnemonic)
    (he : encode i &&& r.mask = r.value) : Statement i := .inl ⟨r, hr, hm, he⟩

/-! ### One lemma per instruction -/

theorem szc (sop dop : Operand) : Statement (.szc sop dop) :=
  ofRow ⟨"SZC", 0x4000, 0xF000⟩ (by decide) rfl (dual_fixed 0b0100 sop dop)
theorem szcb (sop dop : Operand) : Statement (.szcb sop dop) :=
  ofRow ⟨"SZCB", 0x5000, 0xF000⟩ (by decide) rfl (dual_fixed 0b0101 sop dop)
theorem s (sop dop : Operand) : Statement (.s sop dop) :=
  ofRow ⟨"S", 0x6000, 0xF000⟩ (by decide) rfl (dual_fixed 0b0110 sop dop)
theorem sb (sop dop : Operand) : Statement (.sb sop dop) :=
  ofRow ⟨"SB", 0x7000, 0xF000⟩ (by decide) rfl (dual_fixed 0b0111 sop dop)
theorem c (sop dop : Operand) : Statement (.c sop dop) :=
  ofRow ⟨"C", 0x8000, 0xF000⟩ (by decide) rfl (dual_fixed 0b1000 sop dop)
theorem cb (sop dop : Operand) : Statement (.cb sop dop) :=
  ofRow ⟨"CB", 0x9000, 0xF000⟩ (by decide) rfl (dual_fixed 0b1001 sop dop)
theorem a (sop dop : Operand) : Statement (.a sop dop) :=
  ofRow ⟨"A", 0xA000, 0xF000⟩ (by decide) rfl (dual_fixed 0b1010 sop dop)
theorem ab (sop dop : Operand) : Statement (.ab sop dop) :=
  ofRow ⟨"AB", 0xB000, 0xF000⟩ (by decide) rfl (dual_fixed 0b1011 sop dop)
theorem mov (sop dop : Operand) : Statement (.mov sop dop) :=
  ofRow ⟨"MOV", 0xC000, 0xF000⟩ (by decide) rfl (dual_fixed 0b1100 sop dop)
theorem movb (sop dop : Operand) : Statement (.movb sop dop) :=
  ofRow ⟨"MOVB", 0xD000, 0xF000⟩ (by decide) rfl (dual_fixed 0b1101 sop dop)
theorem soc (sop dop : Operand) : Statement (.soc sop dop) :=
  ofRow ⟨"SOC", 0xE000, 0xF000⟩ (by decide) rfl (dual_fixed 0b1110 sop dop)
theorem socb (sop dop : Operand) : Statement (.socb sop dop) :=
  ofRow ⟨"SOCB", 0xF000, 0xF000⟩ (by decide) rfl (dual_fixed 0b1111 sop dop)
theorem coc (sop : Operand) (d : Reg) : Statement (.coc sop d) :=
  ofRow ⟨"COC", 0x2000, 0xFC00⟩ (by decide) rfl (dualW_fixed 0b001000 sop d)
theorem czc (sop : Operand) (d : Reg) : Statement (.czc sop d) :=
  ofRow ⟨"CZC", 0x2400, 0xFC00⟩ (by decide) rfl (dualW_fixed 0b001001 sop d)
theorem xor (sop : Operand) (d : Reg) : Statement (.xor sop d) :=
  ofRow ⟨"XOR", 0x2800, 0xFC00⟩ (by decide) rfl (dualW_fixed 0b001010 sop d)
theorem mpy (sop : Operand) (d : Reg) : Statement (.mpy sop d) :=
  ofRow ⟨"MPY", 0x3800, 0xFC00⟩ (by decide) rfl (dualW_fixed 0b001110 sop d)
theorem div (sop : Operand) (d : Reg) : Statement (.div sop d) :=
  ofRow ⟨"DIV", 0x3C00, 0xFC00⟩ (by decide) rfl (dualW_fixed 0b001111 sop d)
theorem mpys (sop : Operand) : Statement (.mpys sop) :=
  ofRow ⟨"MPYS", 0x01C0, 0xFFC0⟩ (by decide) rfl (single_fixed 0b0000000111 sop)
theorem divs (sop : Operand) : Statement (.divs sop) :=
  ofRow ⟨"DIVS", 0x0180, 0xFFC0⟩ (by decide) rfl (single_fixed 0b0000000110 sop)
theorem xop (sop : Operand) (n : BitVec 4) : Statement (.xop sop n) :=
  ofRow ⟨"XOP", 0x2C00, 0xFC00⟩ (by decide) rfl (dualW_fixed 0b001011 sop n)
theorem b (sop : Operand) : Statement (.b sop) :=
  ofRow ⟨"B", 0x0440, 0xFFC0⟩ (by decide) rfl (single_fixed 0b0000010001 sop)
theorem bl (sop : Operand) : Statement (.bl sop) :=
  ofRow ⟨"BL", 0x0680, 0xFFC0⟩ (by decide) rfl (single_fixed 0b0000011010 sop)
theorem blwp (sop : Operand) : Statement (.blwp sop) :=
  ofRow ⟨"BLWP", 0x0400, 0xFFC0⟩ (by decide) rfl (single_fixed 0b0000010000 sop)
theorem clr (sop : Operand) : Statement (.clr sop) :=
  ofRow ⟨"CLR", 0x04C0, 0xFFC0⟩ (by decide) rfl (single_fixed 0b0000010011 sop)
theorem seto (sop : Operand) : Statement (.seto sop) :=
  ofRow ⟨"SETO", 0x0700, 0xFFC0⟩ (by decide) rfl (single_fixed 0b0000011100 sop)
theorem inv (sop : Operand) : Statement (.inv sop) :=
  ofRow ⟨"INV", 0x0540, 0xFFC0⟩ (by decide) rfl (single_fixed 0b0000010101 sop)
theorem neg (sop : Operand) : Statement (.neg sop) :=
  ofRow ⟨"NEG", 0x0500, 0xFFC0⟩ (by decide) rfl (single_fixed 0b0000010100 sop)
theorem abs (sop : Operand) : Statement (.abs sop) :=
  ofRow ⟨"ABS", 0x0740, 0xFFC0⟩ (by decide) rfl (single_fixed 0b0000011101 sop)
theorem swpb (sop : Operand) : Statement (.swpb sop) :=
  ofRow ⟨"SWPB", 0x06C0, 0xFFC0⟩ (by decide) rfl (single_fixed 0b0000011011 sop)
theorem inc (sop : Operand) : Statement (.inc sop) :=
  ofRow ⟨"INC", 0x0580, 0xFFC0⟩ (by decide) rfl (single_fixed 0b0000010110 sop)
theorem inct (sop : Operand) : Statement (.inct sop) :=
  ofRow ⟨"INCT", 0x05C0, 0xFFC0⟩ (by decide) rfl (single_fixed 0b0000010111 sop)
theorem dec (sop : Operand) : Statement (.dec sop) :=
  ofRow ⟨"DEC", 0x0600, 0xFFC0⟩ (by decide) rfl (single_fixed 0b0000011000 sop)
theorem dect (sop : Operand) : Statement (.dect sop) :=
  ofRow ⟨"DECT", 0x0640, 0xFFC0⟩ (by decide) rfl (single_fixed 0b0000011001 sop)
theorem x (sop : Operand) : Statement (.x sop) :=
  ofRow ⟨"X", 0x0480, 0xFFC0⟩ (by decide) rfl (single_fixed 0b0000010010 sop)
theorem ldcr (sop : Operand) (count : BitVec 4) : Statement (.ldcr sop count) :=
  ofRow ⟨"LDCR", 0x3000, 0xFC00⟩ (by decide) rfl (dualW_fixed 0b001100 sop count)
theorem stcr (dop : Operand) (count : BitVec 4) : Statement (.stcr dop count) :=
  ofRow ⟨"STCR", 0x3400, 0xFC00⟩ (by decide) rfl (dualW_fixed 0b001101 dop count)
theorem sbo (disp : BitVec 8) : Statement (.sbo disp) :=
  ofRow ⟨"SBO", 0x1D00, 0xFF00⟩ (by decide) rfl (disp_fixed 0b00011101 disp)
theorem sbz (disp : BitVec 8) : Statement (.sbz disp) :=
  ofRow ⟨"SBZ", 0x1E00, 0xFF00⟩ (by decide) rfl (disp_fixed 0b00011110 disp)
theorem tb (disp : BitVec 8) : Statement (.tb disp) :=
  ofRow ⟨"TB", 0x1F00, 0xFF00⟩ (by decide) rfl (disp_fixed 0b00011111 disp)
theorem jmp (disp : BitVec 8) : Statement (.jmp disp) :=
  ofRow ⟨"JMP", 0x1000, 0xFF00⟩ (by decide) rfl (disp_fixed 0b00010000 disp)
theorem jlt (disp : BitVec 8) : Statement (.jlt disp) :=
  ofRow ⟨"JLT", 0x1100, 0xFF00⟩ (by decide) rfl (disp_fixed 0b00010001 disp)
theorem jle (disp : BitVec 8) : Statement (.jle disp) :=
  ofRow ⟨"JLE", 0x1200, 0xFF00⟩ (by decide) rfl (disp_fixed 0b00010010 disp)
theorem jeq (disp : BitVec 8) : Statement (.jeq disp) :=
  ofRow ⟨"JEQ", 0x1300, 0xFF00⟩ (by decide) rfl (disp_fixed 0b00010011 disp)
theorem jhe (disp : BitVec 8) : Statement (.jhe disp) :=
  ofRow ⟨"JHE", 0x1400, 0xFF00⟩ (by decide) rfl (disp_fixed 0b00010100 disp)
theorem jgt (disp : BitVec 8) : Statement (.jgt disp) :=
  ofRow ⟨"JGT", 0x1500, 0xFF00⟩ (by decide) rfl (disp_fixed 0b00010101 disp)
theorem jne (disp : BitVec 8) : Statement (.jne disp) :=
  ofRow ⟨"JNE", 0x1600, 0xFF00⟩ (by decide) rfl (disp_fixed 0b00010110 disp)
theorem jnc (disp : BitVec 8) : Statement (.jnc disp) :=
  ofRow ⟨"JNC", 0x1700, 0xFF00⟩ (by decide) rfl (disp_fixed 0b00010111 disp)
theorem joc (disp : BitVec 8) : Statement (.joc disp) :=
  ofRow ⟨"JOC", 0x1800, 0xFF00⟩ (by decide) rfl (disp_fixed 0b00011000 disp)
theorem jno (disp : BitVec 8) : Statement (.jno disp) :=
  ofRow ⟨"JNO", 0x1900, 0xFF00⟩ (by decide) rfl (disp_fixed 0b00011001 disp)
theorem jl (disp : BitVec 8) : Statement (.jl disp) :=
  ofRow ⟨"JL", 0x1A00, 0xFF00⟩ (by decide) rfl (disp_fixed 0b00011010 disp)
theorem jh (disp : BitVec 8) : Statement (.jh disp) :=
  ofRow ⟨"JH", 0x1B00, 0xFF00⟩ (by decide) rfl (disp_fixed 0b00011011 disp)
theorem jop (disp : BitVec 8) : Statement (.jop disp) :=
  ofRow ⟨"JOP", 0x1C00, 0xFF00⟩ (by decide) rfl (disp_fixed 0b00011100 disp)
theorem sla (w : Reg) (count : BitVec 4) : Statement (.sla w count) :=
  ofRow ⟨"SLA", 0x0A00, 0xFF00⟩ (by decide) rfl (shift_fixed 0b00001010 count w)
theorem sra (w : Reg) (count : BitVec 4) : Statement (.sra w count) :=
  ofRow ⟨"SRA", 0x0800, 0xFF00⟩ (by decide) rfl (shift_fixed 0b00001000 count w)
theorem srl (w : Reg) (count : BitVec 4) : Statement (.srl w count) :=
  ofRow ⟨"SRL", 0x0900, 0xFF00⟩ (by decide) rfl (shift_fixed 0b00001001 count w)
theorem src (w : Reg) (count : BitVec 4) : Statement (.src w count) :=
  ofRow ⟨"SRC", 0x0B00, 0xFF00⟩ (by decide) rfl (shift_fixed 0b00001011 count w)
theorem li (w : Reg) : Statement (.li w) :=
  ofRow ⟨"LI", 0x0200, 0xFFF0⟩ (by decide) rfl (reg_fixed 0b000000100000 w)
theorem ai (w : Reg) : Statement (.ai w) :=
  ofRow ⟨"AI", 0x0220, 0xFFF0⟩ (by decide) rfl (reg_fixed 0b000000100010 w)
theorem andi (w : Reg) : Statement (.andi w) :=
  ofRow ⟨"ANDI", 0x0240, 0xFFF0⟩ (by decide) rfl (reg_fixed 0b000000100100 w)
theorem ori (w : Reg) : Statement (.ori w) :=
  ofRow ⟨"ORI", 0x0260, 0xFFF0⟩ (by decide) rfl (reg_fixed 0b000000100110 w)
theorem ci (w : Reg) : Statement (.ci w) :=
  ofRow ⟨"CI", 0x0280, 0xFFF0⟩ (by decide) rfl (reg_fixed 0b000000101000 w)
theorem lwpi : Statement .lwpi :=
  ofRow ⟨"LWPI", 0x02E0, 0xFFFF⟩ (by decide) rfl rfl
theorem limi : Statement .limi :=
  ofRow ⟨"LIMI", 0x0300, 0xFFFF⟩ (by decide) rfl rfl
theorem stst (w : Reg) : Statement (.stst w) :=
  ofRow ⟨"STST", 0x02C0, 0xFFF0⟩ (by decide) rfl (reg_fixed 0b000000101100 w)
theorem lst (w : Reg) : Statement (.lst w) :=
  ofRow ⟨"LST", 0x0080, 0xFFF0⟩ (by decide) rfl (reg_fixed 0b000000001000 w)
theorem stwp (w : Reg) : Statement (.stwp w) :=
  ofRow ⟨"STWP", 0x02A0, 0xFFF0⟩ (by decide) rfl (reg_fixed 0b000000101010 w)
theorem lwp (w : Reg) : Statement (.lwp w) :=
  ofRow ⟨"LWP", 0x0090, 0xFFF0⟩ (by decide) rfl (reg_fixed 0b000000001001 w)
theorem rtwp : Statement .rtwp :=
  ofRow ⟨"RTWP", 0x0380, 0xFFFF⟩ (by decide) rfl rfl
theorem idle : Statement .idle :=
  ofRow ⟨"IDLE", 0x0340, 0xFFFF⟩ (by decide) rfl rfl
theorem rset : Statement .rset :=
  ofRow ⟨"RSET", 0x0360, 0xFFFF⟩ (by decide) rfl rfl
theorem ckon : Statement .ckon :=
  ofRow ⟨"CKON", 0x03A0, 0xFFFF⟩ (by decide) rfl rfl
theorem ckof : Statement .ckof :=
  ofRow ⟨"CKOF", 0x03C0, 0xFFFF⟩ (by decide) rfl rfl
theorem lrex : Statement .lrex :=
  ofRow ⟨"LREX", 0x03E0, 0xFFFF⟩ (by decide) rfl rfl
theorem mid (w : Word) : Statement (.mid w) := .inr ⟨rfl, fun h => h⟩

end Sys2Proof.Laws.TableRow
end

