-- ==== Sys2Proof/Tests/Slice0.lean ====
section
/-! SUPPORT. Tests of one step or one word each, and a witness for every statement with hypotheses. The words
are written out from the encodings of 30_encoding.md (R103 to R122); the expected results are those of
95_test_vectors.md, whose row a test's name carries, or a hand calculation from the rule it names. -/

namespace Sys2Proof.Tests

open Sys2Proof.Machine

/-! ### Small machines (95_test_vectors.md, "Common start state") -/

/-- Memory with the given words, most significant byte first. -/
def cells (l : List (Nat × Word)) : Memory :=
  l.foldl (fun m c => memSet (memSet m c.1 (highByte c.2)) (c.1 + 1) (lowByte c.2)) []

/-- The common start state with a status and some words of memory. -/
def machine (st : Word) (l : List (Nat × Word)) : State :=
  { State.reset with
    inhibit := .none, wp := 0xF000, pc := 0x0100, st := st, bus := { Bus.reset with mem := cells l } }

/-- The CRU input lines from >0080 on driven at the given levels. -/
def driven (s : State) (levels : List Bool) : State :=
  { s with cruLines := levels.zipIdx.map fun p => (0x0080 + p.2, p.1) }

/-- The state a step leads to. -/
def next (o : Host.Outcome State Fault Refusal) : Option State :=
  match o with
  | .next t => some t
  | _ => none

/-- After one step: a word of memory, PC, WP and ST. -/
def after (s : State) (a : Nat) : Option (Word × Word × Word × Word) :=
  (next (step s)).map fun t => (memGet t.bus.mem a ++ memGet t.bus.mem (a + 1), t.pc, t.wp, t.st)

/-- The output cycles of one step, the first one first: the events of 95_test_vectors.md, and memory writes. -/
def emitted (s : State) : List BusEvent :=
  ((next (step s)).map fun t => (t.bus.events.filter fun c => !isInput c).reverse).getD []

/-! ### Well-formedness: each check refuses an ill-formed term -/

theorem test_wf_source_index_zero : (Instr.mov (.idx 0) (.reg 1)).wellFormed = false := by decide
theorem test_wf_destination_index_zero : (Instr.mov (.reg 1) (.idx 0)).wellFormed = false := by decide
theorem test_wf_single_index_zero : (Instr.clr (.idx 0)).wellFormed = false := by decide
theorem test_wf_multiply_index_zero : (Instr.mpy (.idx 0) 2).wellFormed = false := by decide
theorem test_wf_signed_index_zero : (Instr.divs (.idx 0)).wellFormed = false := by decide
theorem test_wf_cru_index_zero :
    (Instr.ldcr (.idx 0) 8).wellFormed = false ∧ (Instr.stcr (.idx 0) 8).wellFormed = false := by decide
theorem test_wf_mid_of_a_table_word : (Instr.mid 0xC081).wellFormed = false := by decide

/-! ### Decoding: every constructor, from a word written out bit by bit -/

theorem test_decode_dual :
    decode 0b0100001011100110 = .szc (.idx 6) (.reg 11) ∧
    decode 0b0101001010100111 = .szcb (.idx 7) (.reg 10) ∧
    decode 0b0110011010011110 = .s (.ind 14) (.ind 10) ∧
    decode 0b0111010100010011 = .sb (.ind 3) (.ind 4) ∧
    decode 0b1000011010100011 = .c (.idx 3) (.ind 10) ∧
    decode 0b1001110001011100 = .cb (.ind 12) (.autoInc 1) ∧
    decode 0b1010000010000001 = .a (.reg 1) (.reg 2) ∧
    decode 0b1011001000111111 = .ab (.autoInc 15) (.reg 8) ∧
    decode 0b1100100100101111 = .mov (.idx 15) (.idx 4) ∧
    decode 0b1101100000011000 = .movb (.ind 8) .sym ∧
    decode 0b1110110110011101 = .soc (.ind 13) (.autoInc 6) ∧
    decode 0b1111010100110001 = .socb (.autoInc 1) (.ind 4) := by decide
theorem test_decode_dualw :
    decode 0b0010001011011001 = .coc (.ind 9) 11 ∧
    decode 0b0010010011100010 = .czc (.idx 2) 3 ∧
    decode 0b0010100111100111 = .xor (.idx 7) 7 ∧
    decode 0b0011101011110110 = .mpy (.autoInc 6) 11 ∧
    decode 0b0011110110011001 = .div (.ind 9) 6 := by decide
theorem test_decode_xop :
    decode 0b0010111000000000 = .xop (.reg 0) 8 := by decide
theorem test_decode_crum :
    decode 0b0011001100000011 = .ldcr (.reg 3) 12 ∧
    decode 0b0011011100001101 = .stcr (.reg 13) 12 := by decide
theorem test_decode_smd :
    decode 0b0000000110100010 = .divs (.idx 2) ∧
    decode 0b0000000111011100 = .mpys (.ind 12) := by decide
theorem test_decode_single :
    decode 0b0000010000111000 = .blwp (.autoInc 8) ∧
    decode 0b0000010001010001 = .b (.ind 1) ∧
    decode 0b0000010010101101 = .x (.idx 13) ∧
    decode 0b0000010011100001 = .clr (.idx 1) ∧
    decode 0b0000010100101100 = .neg (.idx 12) ∧
    decode 0b0000010101000001 = .inv (.reg 1) ∧
    decode 0b0000010110110001 = .inc (.autoInc 1) ∧
    decode 0b0000010111001100 = .inct (.reg 12) ∧
    decode 0b0000011000100110 = .dec (.idx 6) ∧
    decode 0b0000011001110000 = .dect (.autoInc 0) ∧
    decode 0b0000011010011111 = .bl (.ind 15) ∧
    decode 0b0000011011111111 = .swpb (.autoInc 15) ∧
    decode 0b0000011100011101 = .seto (.ind 13) ∧
    decode 0b0000011101010110 = .abs (.ind 6) := by decide
theorem test_decode_shift :
    decode 0b0000100010111101 = .sra 13 11 ∧
    decode 0b0000100111100110 = .srl 6 14 ∧
    decode 0b0000101010001100 = .sla 12 8 ∧
    decode 0b0000101110110001 = .src 1 11 := by decide
theorem test_decode_jump :
    decode 0b0001000011101011 = .jmp 0xEB ∧
    decode 0b0001000110011000 = .jlt 0x98 ∧
    decode 0b0001001011101100 = .jle 0xEC ∧
    decode 0b0001001110000001 = .jeq 0x81 ∧
    decode 0b0001010011000100 = .jhe 0xC4 ∧
    decode 0b0001010100010111 = .jgt 0x17 ∧
    decode 0b0001011000100011 = .jne 0x23 ∧
    decode 0b0001011101001100 = .jnc 0x4C ∧
    decode 0b0001100011101101 = .joc 0xED ∧
    decode 0b0001100101101010 = .jno 0x6A ∧
    decode 0b0001101000100111 = .jl 0x27 ∧
    decode 0b0001101100100111 = .jh 0x27 ∧
    decode 0b0001110011111000 = .jop 0xF8 := by decide
theorem test_decode_crus :
    decode 0b0001110101101101 = .sbo 0x6D ∧
    decode 0b0001111011101101 = .sbz 0xED ∧
    decode 0b0001111110010111 = .tb 0x97 := by decide
theorem test_decode_immw :
    decode 0b0000001000000100 = .li 4 ∧
    decode 0b0000001000100001 = .ai 1 ∧
    decode 0b0000001001000011 = .andi 3 ∧
    decode 0b0000001001101010 = .ori 10 ∧
    decode 0b0000001010001111 = .ci 15 := by decide
theorem test_decode_regw :
    decode 0b0000001010101000 = .stwp 8 ∧
    decode 0b0000001011000101 = .stst 5 ∧
    decode 0b0000000010000001 = .lst 1 ∧
    decode 0b0000000010011000 = .lwp 8 := by decide
theorem test_decode_imm :
    decode 0b0000001011100000 = .lwpi ∧
    decode 0b0000001100000000 = .limi := by decide
theorem test_decode_rtwp :
    decode 0b0000001110000000 = .rtwp := by decide
theorem test_decode_ext :
    decode 0b0000001101000000 = .idle ∧
    decode 0b0000001101100000 = .rset ∧
    decode 0b0000001110100000 = .ckon ∧
    decode 0b0000001111000000 = .ckof ∧
    decode 0b0000001111100000 = .lrex := by decide
theorem test_decode_mid :
    decode 0b0000000000000000 = .mid 0x0000 ∧
    decode 0b0000000001111111 = .mid 0x007F ∧
    decode 0b0000001011100001 = .mid 0x02E1 ∧
    decode 0b0000001101000001 = .mid 0x0341 ∧
    decode 0b0000011110000000 = .mid 0x0780 ∧
    decode 0b0000111111111111 = .mid 0x0FFF := by decide
theorem test_decode_bytes_needs_a_word : decodeBytes [0xC0] = .error .truncated := rfl
theorem test_decode_bytes_leaves_the_rest : decodeBytes [0xC0, 0xA0, 0x20, 0x00] = .ok (.mov .sym (.reg 2), [0x20, 0x00]) := rfl
theorem test_table_word : decodeTableWord 16 0xC081 = some (.mov (.reg 1) (.reg 2)) := by decide
theorem test_fetch_word_runs_next :
    (next (step (State.reset.withFetchWord 16 0x0705))).map (fun t => (t.pc, memGet t.bus.mem 10)) =
      some (0x0002, 0xFF) := by decide

/-! ### One step (the row of 95_test_vectors.md is in the name) -/

theorem test_LG5_szc :
    after (machine 0 [(0x0100, 0x4081), (0xF002, 0xFF00), (0xF004, 0x1234)]) 0xF004 =
      some (0x0034, 0x0102, 0xF000, 0xC000) := by decide
theorem test_LG6_szc :
    after (machine 0 [(0x0100, 0x4081), (0xF002, 0xFFFF), (0xF004, 0x1234)]) 0xF004 =
      some (0, 0x0102, 0xF000, 0x2000) := by decide
theorem test_LG7_szcb :
    after (machine 0 [(0x0100, 0x5081), (0xF002, 0x0F00), (0xF004, 0xFFAA)]) 0xF004 =
      some (0xF0AA, 0x0102, 0xF000, 0x8000) := by decide
theorem test_LG8_szcb :
    after (machine 0 [(0x0100, 0x5081), (0xF002, 0x7F00), (0xF004, 0xFFAA)]) 0xF004 =
      some (0x80AA, 0x0102, 0xF000, 0x8400) := by decide
theorem test_AR12_s :
    after (machine 0 [(0x0100, 0x6081), (0xF002, 0x0001)]) 0xF004 =
      some (0xFFFF, 0x0102, 0xF000, 0x8000) := by decide
theorem test_AR13_s :
    after (machine 0 [(0x0100, 0x6081), (0xF002, 0x0005), (0xF004, 0x0005)]) 0xF004 =
      some (0, 0x0102, 0xF000, 0x3000) := by decide
theorem test_AR18_sb :
    after (machine 0 [(0x0100, 0x7081), (0xF002, 0x0100), (0xF004, 0x8000)]) 0xF004 =
      some (0x7F00, 0x0102, 0xF000, 0xDC00) := by decide
theorem test_AR19_sb :
    after (machine 0 [(0x0100, 0x7081), (0xF002, 0x0100)]) 0xF004 =
      some (0xFF00, 0x0102, 0xF000, 0x8000) := by decide
theorem test_AR21_c :
    after (machine 0x1C00 [(0x0100, 0x8081), (0xF002, 0x8000), (0xF004, 0x0001)]) 0xF002 =
      some (0x8000, 0x0102, 0xF000, 0x9C00) := by decide
theorem test_AR22_c :
    after (machine 0x1C00 [(0x0100, 0x8081), (0xF002, 0x0001), (0xF004, 0x8000)]) 0xF002 =
      some (0x0001, 0x0102, 0xF000, 0x5C00) := by decide
theorem test_AR27_cb :
    after (machine 0 [(0x0100, 0x9081), (0xF002, 0x7F00), (0xF004, 0x8000)]) 0xF002 =
      some (0x7F00, 0x0102, 0xF000, 0x4400) := by decide
theorem test_AR28_cb :
    after (machine 0 [(0x0100, 0x9081), (0xF002, 0x8012), (0xF004, 0x7F34)]) 0xF002 =
      some (0x8012, 0x0102, 0xF000, 0x8400) := by decide
theorem test_AM13_a :
    after (machine 0 [(0x0100, 0xAC71), (0x2000, 0x0003), (0x2002, 0x0004), (0xF002, 0x2000)]) 0x2002 =
      some (0x0007, 0x0102, 0xF000, 0xC000) := by decide
theorem test_AR1_a :
    after (machine 0 [(0x0100, 0xA081), (0xF002, 0x7FFF), (0xF004, 0x0001)]) 0xF004 =
      some (0x8000, 0x0102, 0xF000, 0x8800) := by decide
theorem test_AR7_ab :
    after (machine 0 [(0x0100, 0xB081), (0xF002, 0x7F00), (0xF004, 0x0100)]) 0xF004 =
      some (0x8000, 0x0102, 0xF000, 0x8C00) := by decide
theorem test_AR8_ab :
    after (machine 0 [(0x0100, 0xB081), (0xF002, 0xFF12), (0xF004, 0x0134)]) 0xF004 =
      some (0x0034, 0x0102, 0xF000, 0x3000) := by decide
theorem test_AM1_mov :
    after (machine 0 [(0x0100, 0xC081), (0xF002, 0x1234)]) 0xF004 =
      some (0x1234, 0x0102, 0xF000, 0xC000) := by decide
theorem test_AM2_mov :
    after (machine 0 [(0x0100, 0xC091), (0x2000, 0xBEEF), (0xF002, 0x2000)]) 0xF004 =
      some (0xBEEF, 0x0102, 0xF000, 0x8000) := by decide
theorem test_AM4_movb :
    after (machine 0 [(0x0100, 0xD0B1), (0x2000, 0x12AB), (0xF002, 0x2001), (0xF004, 0x5566)]) 0xF002 =
      some (0x2002, 0x0102, 0xF000, 0x8400) := by decide
theorem test_AM17_movb :
    after (machine 0 [(0x0100, 0xD801), (0x0102, 0x2001), (0x2000, 0x1122), (0xF002, 0x9A00)]) 0x2000 =
      some (0x119A, 0x0104, 0xF000, 0x8000) := by decide
theorem test_LG1_soc :
    after (machine 0x1C00 [(0x0100, 0xE081), (0xF002, 0x00F0), (0xF004, 0x0F00)]) 0xF004 =
      some (0x0FF0, 0x0102, 0xF000, 0xDC00) := by decide
theorem test_LG2_soc :
    after (machine 0 [(0x0100, 0xE081)]) 0xF002 =
      some (0, 0x0102, 0xF000, 0x2000) := by decide
theorem test_LG3_socb :
    after (machine 0 [(0x0100, 0xF081), (0xF002, 0x8100), (0xF004, 0x0155)]) 0xF004 =
      some (0x8155, 0x0102, 0xF000, 0x8000) := by decide
theorem test_LG4_socb :
    after (machine 0 [(0x0100, 0xF081), (0xF002, 0x0100), (0xF004, 0x0255)]) 0xF004 =
      some (0x0355, 0x0102, 0xF000, 0xC000) := by decide
theorem test_LG13_coc :
    after (machine 0xC000 [(0x0100, 0x2081), (0xF002, 0x00F0), (0xF004, 0x12F4)]) 0xF002 =
      some (0x00F0, 0x0102, 0xF000, 0xE000) := by decide
theorem test_LG14_coc :
    after (machine 0x2000 [(0x0100, 0x2081), (0xF002, 0x00F0), (0xF004, 0x1234)]) 0xF002 =
      some (0x00F0, 0x0102, 0xF000, 0) := by decide
theorem test_LG16_czc :
    after (machine 0 [(0x0100, 0x2481), (0xF002, 0x00F0), (0xF004, 0x1204)]) 0xF002 =
      some (0x00F0, 0x0102, 0xF000, 0x2000) := by decide
theorem test_LG17_czc :
    after (machine 0x2000 [(0x0100, 0x2481), (0xF002, 0x00F0), (0xF004, 0x1214)]) 0xF002 =
      some (0x00F0, 0x0102, 0xF000, 0) := by decide
theorem test_LG18_xor :
    after (machine 0 [(0x0100, 0x2881), (0xF002, 0xFFFF), (0xF004, 0x00FF)]) 0xF004 =
      some (0xFF00, 0x0102, 0xF000, 0x8000) := by decide
theorem test_LG19_xor :
    after (machine 0 [(0x0100, 0x2841), (0xF002, 0x5A5A)]) 0xF002 =
      some (0, 0x0102, 0xF000, 0x2000) := by decide
theorem test_MD1_mpy :
    after (machine 0xFC00 [(0x0100, 0x3881), (0xF002, 0xFFFF), (0xF004, 0xFFFF)]) 0xF004 =
      some (0xFFFE, 0x0102, 0xF000, 0xFC00) := by decide
theorem test_MD2_mpy :
    after (machine 0 [(0x0100, 0x3881), (0xF002, 0x0100), (0xF004, 0x0100), (0xF006, 0xAAAA)]) 0xF004 =
      some (0x0001, 0x0102, 0xF000, 0) := by decide
theorem test_MD6_div :
    after (machine 0x0800 [(0x0100, 0x3C81), (0xF002, 0x0003), (0xF006, 0x0064)]) 0xF004 =
      some (0x0021, 0x0102, 0xF000, 0) := by decide
theorem test_MD8_div :
    after (machine 0xE000 [(0x0100, 0x3C81), (0xF002, 0x0001), (0xF004, 0x0001)]) 0xF002 =
      some (0x0001, 0x0102, 0xF000, 0xE800) := by decide
theorem test_CR1_ldcr :
    (after (machine 0 [(0x0100, 0x3201), (0xF002, 0xA5FF), (0xF018, 0x0100)]) 0xF002, emitted (machine 0 [(0x0100, 0x3201), (0xF002, 0xA5FF), (0xF018, 0x0100)])) =
      (some (0xA5FF, 0x0102, 0xF000, 0x8000), [.cruOut 0x0080 true, .cruOut 0x0081 false, .cruOut 0x0082 true, .cruOut 0x0083 false, .cruOut 0x0084 false, .cruOut 0x0085 true, .cruOut 0x0086 false, .cruOut 0x0087 true]) := by decide
theorem test_CR3_ldcr :
    (after (machine 0 [(0x0100, 0x3241), (0xF002, 0x01FF)]) 0xF002, emitted (machine 0 [(0x0100, 0x3241), (0xF002, 0x01FF)])) =
      (some (0x01FF, 0x0102, 0xF000, 0xC000), [.cruOut 0x0000 true, .cruOut 0x0001 true, .cruOut 0x0002 true, .cruOut 0x0003 true, .cruOut 0x0004 true, .cruOut 0x0005 true, .cruOut 0x0006 true, .cruOut 0x0007 true, .cruOut 0x0008 true]) := by decide
theorem test_CR7_stcr :
    after (driven (machine 0 [(0x0100, 0x3502), (0xF004, 0xFFEE), (0xF018, 0x0100)]) [true, false, true, true, false, false, false, false, false]) 0xF004 =
      some (0x0DEE, 0x0102, 0xF000, 0xC400) := by decide
theorem test_CR8_stcr :
    after (driven (machine 0 [(0x0100, 0x3602), (0xF004, 0x1234), (0xF018, 0x0100)]) [false, false, false, false, false, false, false, true, false]) 0xF004 =
      some (0x8034, 0x0102, 0xF000, 0x8400) := by decide
theorem test_MD19_divs :
    after (machine 0 [(0x0100, 0x0182), (0xF000, 0xFFFF), (0xF002, 0xFFF9), (0xF004, 0x0002)]) 0xF000 =
      some (0xFFFD, 0x0102, 0xF000, 0x8000) := by decide
theorem test_MD21_divs :
    after (machine 0 [(0x0100, 0x0182), (0xF000, 0xFFFF), (0xF002, 0xFFF9), (0xF004, 0xFFFE)]) 0xF000 =
      some (0x0003, 0x0102, 0xF000, 0xC000) := by decide
theorem test_MD13_mpys :
    after (machine 0 [(0x0100, 0x01C2), (0xF000, 0xFFFF), (0xF002, 0x1111), (0xF004, 0x0002)]) 0xF002 =
      some (0xFFFE, 0x0102, 0xF000, 0x8000) := by decide
theorem test_MD14_mpys :
    after (machine 0 [(0x0100, 0x01C2), (0xF000, 0x8000), (0xF004, 0x8000)]) 0xF000 =
      some (0x4000, 0x0102, 0xF000, 0xC000) := by decide
theorem test_CT9_blwp :
    after (machine 0 [(0x0100, 0x0405), (0xF00A, 0xF040), (0xF00C, 0x0600)]) 0xF05A =
      some (0xF000, 0x0600, 0xF040, 0) := by decide
theorem test_CT10_blwp :
    after (machine 0x4000 [(0x0100, 0x0420), (0x0102, 0x3000), (0x3000, 0x2FE6), (0x3002, 0x0500)]) 0x3000 =
      some (0xF000, 0x0500, 0x2FE6, 0x4000) := by decide
theorem test_CT1_b :
    after (machine 0 [(0x0100, 0x0460), (0x0102, 0x1234)]) 0x0100 =
      some (0x0460, 0x1234, 0xF000, 0) := by decide
theorem test_CT15_x :
    after (machine 0 [(0x0100, 0x0483), (0xF006, 0x0584), (0xF008, 0x0001)]) 0xF008 =
      some (0x0002, 0x0102, 0xF000, 0xC000) := by decide
theorem test_CT17_x :
    after (machine 0 [(0x0100, 0x0483), (0xF006, 0x10FF)]) 0xF006 =
      some (0x10FF, 0x0100, 0xF000, 0) := by decide
theorem test_SO1_clr :
    after (machine 0xFC00 [(0x0100, 0x04C3), (0xF006, 0x1234)]) 0xF006 =
      some (0, 0x0102, 0xF000, 0xFC00) := by decide
theorem test_SO2_clr :
    after (machine 0 [(0x0100, 0x04F3), (0x2000, 0xFFFF), (0xF006, 0x2000)]) 0x2000 =
      some (0, 0x0102, 0xF000, 0) := by decide
theorem test_SO6_neg :
    after (machine 0 [(0x0100, 0x0503)]) 0xF006 =
      some (0, 0x0102, 0xF000, 0x3000) := by decide
theorem test_SO7_neg :
    after (machine 0 [(0x0100, 0x0503), (0xF006, 0x8000)]) 0xF006 =
      some (0x8000, 0x0102, 0xF000, 0x8800) := by decide
theorem test_SO4_inv :
    after (machine 0 [(0x0100, 0x0543), (0xF006, 0xFFFF)]) 0xF006 =
      some (0, 0x0102, 0xF000, 0x2000) := by decide
theorem test_SO5_inv :
    after (machine 0 [(0x0100, 0x0543), (0xF006, 0x8000)]) 0xF006 =
      some (0x7FFF, 0x0102, 0xF000, 0xC000) := by decide
theorem test_SO14_inc :
    after (machine 0 [(0x0100, 0x0583), (0xF006, 0xFFFF)]) 0xF006 =
      some (0, 0x0102, 0xF000, 0x3000) := by decide
theorem test_SO15_inc :
    after (machine 0 [(0x0100, 0x0583), (0xF006, 0x7FFF)]) 0xF006 =
      some (0x8000, 0x0102, 0xF000, 0x8800) := by decide
theorem test_SO16_inct :
    after (machine 0 [(0x0100, 0x05C3), (0xF006, 0xFFFF)]) 0xF006 =
      some (0x0001, 0x0102, 0xF000, 0xD000) := by decide
theorem test_SO17_inct :
    after (machine 0 [(0x0100, 0x05C3), (0xF006, 0x7FFE)]) 0xF006 =
      some (0x8000, 0x0102, 0xF000, 0x8800) := by decide
theorem test_SO19_dec :
    after (machine 0 [(0x0100, 0x0603), (0xF006, 0x0001)]) 0xF006 =
      some (0, 0x0102, 0xF000, 0x3000) := by decide
theorem test_SO20_dec :
    after (machine 0 [(0x0100, 0x0603)]) 0xF006 =
      some (0xFFFF, 0x0102, 0xF000, 0x8000) := by decide
theorem test_SO22_dect :
    after (machine 0 [(0x0100, 0x0643), (0xF006, 0x0001)]) 0xF006 =
      some (0xFFFF, 0x0102, 0xF000, 0x8000) := by decide
theorem test_SO23_dect :
    after (machine 0 [(0x0100, 0x0643), (0xF006, 0x0002)]) 0xF006 =
      some (0, 0x0102, 0xF000, 0x3000) := by decide
theorem test_CT6_bl :
    after (machine 0 [(0x0100, 0x06A0), (0x0102, 0x2000)]) 0xF016 =
      some (0x0104, 0x2000, 0xF000, 0) := by decide
theorem test_SO13_swpb :
    after (machine 0xFC00 [(0x0100, 0x06C3), (0xF006, 0x1234)]) 0xF006 =
      some (0x3412, 0x0102, 0xF000, 0xFC00) := by decide
theorem test_SO3_seto :
    after (machine 0 [(0x0100, 0x0720), (0x0102, 0x2000)]) 0x2000 =
      some (0xFFFF, 0x0104, 0xF000, 0) := by decide
theorem test_SO9_abs :
    after (machine 0x1000 [(0x0100, 0x0743), (0xF006, 0xFFFB)]) 0xF006 =
      some (0x0005, 0x0102, 0xF000, 0x8000) := by decide
theorem test_SO10_abs :
    after (machine 0 [(0x0100, 0x0743), (0xF006, 0x0005)]) 0xF006 =
      some (0x0005, 0x0102, 0xF000, 0xC000) := by decide
theorem test_SH8_sra :
    after (machine 0x0800 [(0x0100, 0x0811), (0xF002, 0x8001)]) 0xF002 =
      some (0xC000, 0x0102, 0xF000, 0x9800) := by decide
theorem test_SH9_sra :
    after (machine 0 [(0x0100, 0x08F1), (0xF002, 0x8000)]) 0xF002 =
      some (0xFFFF, 0x0102, 0xF000, 0x8000) := by decide
theorem test_SH13_srl :
    after (machine 0 [(0x0100, 0x0941), (0xF002, 0x8001)]) 0xF002 =
      some (0x0800, 0x0102, 0xF000, 0xC000) := by decide
theorem test_SH14_srl :
    after (machine 0 [(0x0100, 0x0911), (0xF002, 0x0001)]) 0xF002 =
      some (0, 0x0102, 0xF000, 0x3000) := by decide
theorem test_SH1_sla :
    after (machine 0 [(0x0100, 0x0A41), (0xF002, 0x1234)]) 0xF002 =
      some (0x2340, 0x0102, 0xF000, 0xD800) := by decide
theorem test_SH2_sla :
    after (machine 0 [(0x0100, 0x0A11), (0xF002, 0x4000)]) 0xF002 =
      some (0x8000, 0x0102, 0xF000, 0x8800) := by decide
theorem test_SH16_src :
    after (machine 0 [(0x0100, 0x0B41), (0xF002, 0x1234)]) 0xF002 =
      some (0x4123, 0x0102, 0xF000, 0xC000) := by decide
theorem test_SH17_src :
    after (machine 0 [(0x0100, 0x0B11), (0xF002, 0x0001)]) 0xF002 =
      some (0x8000, 0x0102, 0xF000, 0x9000) := by decide
theorem test_JP3_jmp :
    after (machine 0 [(0x0100, 0x107F)]) 0x0100 =
      some (0x107F, 0x0200, 0xF000, 0) := by decide
theorem test_JP4_jmp :
    after (machine 0 [(0x0100, 0x1080)]) 0x0100 =
      some (0x1080, 0x0002, 0xF000, 0) := by decide
theorem test_JP7_jeq :
    after (machine 0x2000 [(0x0100, 0x1302)]) 0x0100 =
      some (0x1302, 0x0106, 0xF000, 0x2000) := by decide
theorem test_JP8_jeq :
    after (machine 0xC000 [(0x0100, 0x1302)]) 0x0100 =
      some (0x1302, 0x0102, 0xF000, 0xC000) := by decide
theorem test_JP9_jop :
    after (machine 0x0400 [(0x0100, 0x1C02)]) 0x0100 =
      some (0x1C02, 0x0106, 0xF000, 0x0400) := by decide
theorem test_CR13_sbo :
    (after (machine 0 [(0x0100, 0x1D05), (0xF018, 0x0100)]) 0xF018, emitted (machine 0 [(0x0100, 0x1D05), (0xF018, 0x0100)])) =
      (some (0x0100, 0x0102, 0xF000, 0), [.cruOut 0x0085 true]) := by decide
theorem test_CR14_sbz :
    (after (machine 0 [(0x0100, 0x1EFF), (0xF018, 0x0100)]) 0xF018, emitted (machine 0 [(0x0100, 0x1EFF), (0xF018, 0x0100)])) =
      (some (0x0100, 0x0102, 0xF000, 0), [.cruOut 0x007F false]) := by decide
theorem test_CR17_tb :
    after (driven (machine 0xC000 [(0x0100, 0x1F03), (0xF018, 0x0100)]) [false, false, false, true, false, false, false, false, false]) 0xF018 =
      some (0x0100, 0x0102, 0xF000, 0xE000) := by decide
theorem test_CR18_tb :
    after (driven (machine 0x2000 [(0x0100, 0x1F03), (0xF018, 0x0100)]) [false, false, false, false, false, false, false, false, false]) 0xF018 =
      some (0x0100, 0x0102, 0xF000, 0) := by decide
theorem test_IM1_li :
    after (machine 0 [(0x0100, 0x0201), (0x0102, 0x1234)]) 0xF002 =
      some (0x1234, 0x0104, 0xF000, 0xC000) := by decide
theorem test_IM2_li :
    after (machine 0xC000 [(0x0100, 0x0201), (0xF002, 0x0005)]) 0xF002 =
      some (0, 0x0104, 0xF000, 0x2000) := by decide
theorem test_IM4_ai :
    after (machine 0 [(0x0100, 0x0221), (0x0102, 0xFFFF), (0xF002, 0x0001)]) 0xF002 =
      some (0, 0x0104, 0xF000, 0x3000) := by decide
theorem test_IM5_ai :
    after (machine 0 [(0x0100, 0x0221), (0x0102, 0x0001), (0xF002, 0x7FFF)]) 0xF002 =
      some (0x8000, 0x0104, 0xF000, 0x8800) := by decide
theorem test_IM7_andi :
    after (machine 0 [(0x0100, 0x0241), (0x0102, 0x00FF), (0xF002, 0x1234)]) 0xF002 =
      some (0x0034, 0x0104, 0xF000, 0xC000) := by decide
theorem test_IM8_andi :
    after (machine 0 [(0x0100, 0x0241), (0x0102, 0xFF00), (0xF002, 0x0034)]) 0xF002 =
      some (0, 0x0104, 0xF000, 0x2000) := by decide
theorem test_IM9_ori :
    after (machine 0 [(0x0100, 0x0261), (0x0102, 0x8000), (0xF002, 0x0001)]) 0xF002 =
      some (0x8001, 0x0104, 0xF000, 0x8000) := by decide
theorem test_IM10_ci :
    after (machine 0 [(0x0100, 0x0281), (0x0102, 0x0005), (0xF002, 0x0005)]) 0xF002 =
      some (0x0005, 0x0104, 0xF000, 0x2000) := by decide
theorem test_IM11_ci :
    after (machine 0 [(0x0100, 0x0281), (0x0102, 0x0005), (0xF002, 0xFFFF)]) 0xF002 =
      some (0xFFFF, 0x0104, 0xF000, 0x8000) := by decide
theorem test_IM19_stwp :
    after (machine 0 [(0x0100, 0x02A4)]) 0xF008 =
      some (0xF000, 0x0102, 0xF000, 0) := by decide
theorem test_IM17_stst :
    after (machine 0xD3EF [(0x0100, 0x02C4)]) 0xF008 =
      some (0xD3EF, 0x0102, 0xF000, 0xD3EF) := by decide
theorem test_IM18_lst :
    after (machine 0 [(0x0100, 0x0084), (0xF008, 0xFFFF)]) 0xF008 =
      some (0xFFFF, 0x0102, 0xF000, 0xFFFF) := by decide
theorem test_IM20_lwp :
    after (machine 0 [(0x0100, 0x0094), (0xF008, 0xF021)]) 0xF008 =
      some (0xF021, 0x0102, 0xF020, 0) := by decide
theorem test_IM13_lwpi :
    after (machine 0xFC0F [(0x0100, 0x02E0), (0x0102, 0xF020)]) 0x0100 =
      some (0x02E0, 0x0104, 0xF020, 0xFC0F) := by decide
theorem test_IM14_lwpi :
    after (machine 0 [(0x0100, 0x02E0), (0x0102, 0xF021)]) 0x0100 =
      some (0x02E0, 0x0104, 0xF020, 0) := by decide
theorem test_IM15_limi :
    after (machine 0xD00F [(0x0100, 0x0300), (0x0102, 0x0002)]) 0x0100 =
      some (0x0300, 0x0104, 0xF000, 0xD002) := by decide
theorem test_IM16_limi :
    after (machine 0 [(0x0100, 0x0300), (0x0102, 0xFFF5)]) 0x0100 =
      some (0x0300, 0x0104, 0xF000, 0x0005) := by decide
theorem test_CT14_rtwp :
    after (machine 0 [(0x0100, 0x0380), (0xF01A, 0xF020), (0xF01C, 0x0105), (0xF01E, 0xD3EF)]) 0xF01A =
      some (0xF020, 0x0104, 0xF020, 0xD3EF) := by decide
theorem test_IM25_idle :
    (after (machine 0x0003 [(0x0100, 0x0340)]) 0x0100, emitted (machine 0x0003 [(0x0100, 0x0340)])) =
      (some (0x0340, 0x0102, 0xF000, 0x0003), [.extInstr 0b010]) := by decide
theorem test_IM21_rset :
    (after (machine 0xD00F [(0x0100, 0x0360)]) 0x0100, emitted (machine 0xD00F [(0x0100, 0x0360)])) =
      (some (0x0360, 0x0102, 0xF000, 0xD000), [.extInstr 0b011]) := by decide
theorem test_IM22_ckon :
    (after (machine 0xD00F [(0x0100, 0x03A0)]) 0x0100, emitted (machine 0xD00F [(0x0100, 0x03A0)])) =
      (some (0x03A0, 0x0102, 0xF000, 0xD00F), [.extInstr 0b101]) := by decide
theorem test_IM23_ckof :
    (after (machine 0 [(0x0100, 0x03C0)]) 0x0100, emitted (machine 0 [(0x0100, 0x03C0)])) =
      (some (0x03C0, 0x0102, 0xF000, 0), [.extInstr 0b110]) := by decide
theorem test_IM24_lrex :
    (after (machine 0 [(0x0100, 0x03E0)]) 0x0100, emitted (machine 0 [(0x0100, 0x03E0)])) =
      (some (0x03E0, 0x0102, 0xF000, 0), [.extInstr 0b111]) := by decide
theorem test_CT11_xop :
    (after { machine 0x03E2 [(0x0048, 0xF000), (0x004A, 0x0300), (0x0100, 0x2CA0), (0x0102, 0x2000)] with wp := 0xF020 }
      0xF016) = some (0x2000, 0x0300, 0xF000, 0x0202) := by decide
theorem test_CT13_xop :
    (after { machine 0 [(0x0040, 0xF000), (0x0042, 0x0400), (0x0100, 0x2C33), (0xF026, 0x2001)] with wp := 0xF020 }
      0xF026) = some (0x2003, 0x0400, 0xF000, 0x0200) := by decide
/-- S1b, step 1 (R400): the MID flag and the request. -/
theorem test_S1b_mid_opcode :
    (next (step (machine 0xD3E4 [(0x0100, 0x0000)]))).map (fun t => (t.pc, t.st, t.bus.midFlag, t.midPending)) =
      some (0x0102, 0xD3E4, true, true) := by decide
/-- S1b, step 2 (R414, R420, R421): the MID trap, mask 4 to 1. -/
theorem test_S1b_mid_trap :
    after { machine 0xD3E4 [(0x0008, 0xF020), (0x000A, 0x0400)] with pc := 0x0102, midPending := true } 0xF03C =
      some (0x0102, 0x0400, 0xF020, 0xD201) := by decide
/-- S9, step 4 (R422, R433): NMI right after the MID switch. -/
theorem test_S9_nmi_after_mid :
    after { machine 0x0001 [(0xFFFC, 0xF040), (0xFFFE, 0x0500)] with
      wp := 0xF020, pc := 0x0400, inhibit := .maskable, pins := { Pins.inactive with nmi := false } } 0xF05E =
      some (0x0001, 0x0500, 0xF040, 0x0000) := by decide

/-- R490, by hand: `MOV R1,@>0104` at >0100 overwrites the next opcode; `B *R1+` to WR1 itself overwrites its target,
which is fetched when the branch is complete. -/
theorem test_R490_next_opcode_kept :
    (next (step (machine 0 [(0x0100, 0xC801), (0x0102, 0x0104), (0x0104, 0x1000), (0xF002, 0x1234)]))).map (fun t =>
      (t.pc, t.prefetch)) = some (0x0104, some 0x1000) := by decide
theorem test_R490_branch_discards :
    (next (step (machine 0 [(0x0100, 0x0471), (0xF002, 0xF002)]))).map (fun t =>
      (t.pc, t.prefetch, memGet t.bus.mem 0xF003)) = some (0xF002, none, 0x04) := by decide
/-- What the pins show of one step, the first cycle first. -/
def shown (s : State) : List PinCycle := ((next (step s)).map fun t => t.observed.reverse).getD []
/-- R71 to R73, by hand: `MOVB R1,@>FFFB` from off chip, WR1 and the decrementer's odd byte on chip: two opcode bytes
with IAQ, the byte at WR1, two extension bytes, and one write at the byte's address without its data. -/
theorem test_R72_internal_cycles :
    shown (machine 0 [(0x0100, 0xD801), (0x0102, 0xFFFB), (0xF002, 0x1234)]) =
      [.memRead 0x0100 true, .memRead 0x0101 true, .memRead 0xF002 false, .memRead 0x0102 false,
       .memRead 0x0103 false, .memWrite 0xFFFB none] := by decide
/-- R71, R72, by hand: `MOV @>2001,R2`: the word off chip in two cycles from its even address, WR2 on chip in one. -/
theorem test_R72_word_cycles :
    (shown (machine 0 [(0x0100, 0xC0A0), (0x0102, 0x2001), (0x2000, 0x1234)])).drop 4 =
      [.memRead 0x2000 false, .memRead 0x2001 false, .memWrite 0xF004 none] := by decide
/-- R481, by hand: `MOV R1,@>2000` cut short between the two byte cycles of its store off chip, its sixth and seventh
cycles. -/
theorem test_R481_half_a_store :
    let s := machine 0 [(0x0100, 0xC801), (0x0102, 0x2000), (0xF002, 0x1234)]
    (next (step { s with agenda := [.resetWithin 6] })).map (fun t =>
      (memGet t.bus.mem 0x2000, memGet t.bus.mem 0x2001, t.resetActive, t.cutShort)) =
      some (0x12, 0x00, true, true) := by decide

/-- Where a jump of displacement 2 at >0100 goes, for each of a list of statuses. -/
def jumpsTo (w : Word) (sts : List Word) : List (Option Word) :=
  sts.map fun st => (after (machine st [(0x0100, w)]) 0x0100).map fun r => r.2.1

/-- R312 to R322, taken (>0106) or not (>0102), by hand from each rule's condition: ST = L, A, EQ, none. -/
theorem test_jlt : jumpsTo 0x1102 [0x8000, 0x4000, 0x2000, 0] = [some 0x0106, some 0x0102, some 0x0102, some 0x0106] := by decide
theorem test_jle : jumpsTo 0x1202 [0x8000, 0x4000, 0x2000, 0] = [some 0x0102, some 0x0106, some 0x0106, some 0x0106] := by decide
theorem test_jhe : jumpsTo 0x1402 [0x8000, 0x4000, 0x2000, 0] = [some 0x0106, some 0x0102, some 0x0106, some 0x0102] := by decide
theorem test_jgt : jumpsTo 0x1502 [0x8000, 0x4000, 0x2000, 0] = [some 0x0102, some 0x0106, some 0x0102, some 0x0102] := by decide
theorem test_jne : jumpsTo 0x1602 [0x8000, 0x4000, 0x2000, 0] = [some 0x0106, some 0x0106, some 0x0102, some 0x0106] := by decide
theorem test_jl : jumpsTo 0x1A02 [0x8000, 0x4000, 0x2000, 0] = [some 0x0102, some 0x0106, some 0x0102, some 0x0106] := by decide
theorem test_jh : jumpsTo 0x1B02 [0x8000, 0x4000, 0x2000, 0xA000] = [some 0x0106, some 0x0102, some 0x0102, some 0x0102] := by decide
/-- R318 to R320: ST = C, OV, none. -/
theorem test_jnc : jumpsTo 0x1702 [0x1000, 0x0800, 0] = [some 0x0102, some 0x0106, some 0x0106] := by decide
theorem test_joc : jumpsTo 0x1802 [0x1000, 0x0800, 0] = [some 0x0106, some 0x0102, some 0x0102] := by decide
theorem test_jno : jumpsTo 0x1902 [0x1000, 0x0800, 0] = [some 0x0106, some 0x0102, some 0x0106] := by decide

/-! ### Witnesses: states and operands that meet the hypotheses of a statement -/

/-- `MOV R1,R2` at PC, nothing requested. -/
def moving : State := machine 0 [(0x0100, 0xC081), (0xF002, 0x1234)]

/-- External ROM, a device and an empty stretch. -/
def banked : State :=
  { State.reset with
    plat := { Platform.default with
      ext := [⟨0x8000, 0x8FFF, .rom⟩, ⟨0x9000, 0x9FFF, .device⟩, ⟨0xA000, 0xAFFF, .absent⟩] } }

/-- A state whose boundary takes the given interrupt. -/
def asking : IntKind → State
  | .mid => { moving with midPending := true }
  | .nmi => { moving with pins := { Pins.inactive with nmi := false } }
  | .level1 => { moving with st := 0x0001, latch1 := true }
  | .level2 => { moving with st := 0x0822, plat := { Platform.default with ovfFunctional := true } }
  | .level3 => { moving with st := 0x0003, latch3 := true }
  | .level4 => { moving with st := 0x0004, latch4 := true }

/-- At a boundary in the sense of the statements. -/
theorem moving_atBoundary : AtBoundary moving := ⟨⟨rfl, rfl, rfl⟩, rfl, rfl⟩

theorem witness_DecodeOfEncodeIsTheInstruction :
    (Instr.mov (.idx 1) (.idx 15)).wellFormed = true ∧ (Instr.xop .sym 15).wellFormed = true ∧
      (Instr.mid 0x0000).wellFormed = true ∧ (Instr.mid 0x0FFF).wellFormed = true := by decide

theorem witness_OpcodeWordsArePartitioned :
    (∃ r ∈ opcodeTable, (0xA081 : Word) &&& r.mask = r.value) ∧ isMidOpcode 0x0FFF = true := by decide

theorem witness_WordWriteThenRead_held :
    (isWritable State.reset.plat (evenAddr 0xF0FB) = true ∧ isWritable State.reset.plat (evenAddr 0xF0FB + 1) = true) ∧
      evenAddr 0xF0FA = evenAddr 0xF0FB ∧ placeOf State.reset.plat (evenAddr 0xFFFB) = .decrementer := by decide

theorem witness_WordWriteThenRead_elsewhere :
    evenAddr 0xF0FC ≠ evenAddr 0xF0FB ∧ answers State.reset.plat 0xF0FC = true := by decide

theorem witness_ByteWriteThenRead :
    isWritable banked.plat 0xF0FB = true ∧ isWritable banked.plat 0x7FFF = true ∧
      placeOf banked.plat 0x7FFF ≠ .decrementer ∧ (0x8000 : Word) ≠ 0x7FFF ∧ answers banked.plat 0x8000 = true ∧
      placeOf banked.plat 0x8FFF = .ext .rom ∧ placeOf banked.plat 0xA000 = .ext .absent ∧
      placeOf banked.plat 0x9000 = .ext .device ∧ placeOf banked.plat 0x9FFF = .ext .device := by decide

/-- A byte shown on the pins, at the address next to the on-chip RAM. -/
theorem witness_ByteWriteThenRead_shown :
    .memWrite 0xF0FC (some 0x12) ∈ ((machine 0 []).writeByte 0xF0FC 0x12).observed := by decide

theorem witness_DecrementerInMemory :
    placeOf moving.plat 0xFFFA = .decrementer ∧ placeOf moving.plat 0xFFFB = .decrementer := by decide

/-- The divisor WR1 = 5 against high words 5 (too large) and 4 (fits). -/
theorem witness_DivideUnsigned_overflow :
    let s := machine 0 [(0xF002, 5), (0xF004, 5)]
    let q := s.sourceWord (.reg 1)
    q.1.toNat ≤ (busReadWord s.plat q.2.bus (wrAddr s.wp 2)).toNat := by decide

theorem witness_DivideUnsigned_fits :
    let s := machine 0 [(0xF002, 5), (0xF004, 4)]
    let q := s.sourceWord (.reg 1)
    (busReadWord s.plat q.2.bus (wrAddr s.wp 2)).toNat < q.1.toNat := by decide

/-- The dividend of a DIVS in WR0 and WR1, as the statement writes it. -/
def dividend (s : State) (sop : Operand) : Int :=
  let q := s.sourceWord sop
  (busReadWord s.plat q.2.bus (wrAddr s.wp 0)).toInt * 65536 +
    (busReadWord s.plat q.2.tickDraws.bus (wrAddr s.wp 1)).toNat

/-- -32768 by 1, and 32767 by 1. -/
theorem witness_DivideSigned_least :
    let s := machine 0 [(0xF000, 0xFFFF), (0xF002, 0x8000), (0xF004, 1)]
    IsSignedDivision (dividend s (.reg 2)) (s.sourceWord (.reg 2)).1.toInt (-32768) 0 := by
  refine ⟨by decide, by decide, .inl rfl⟩

theorem witness_DivideSigned_greatest :
    let s := machine 0 [(0xF000, 0), (0xF002, 0x7FFF), (0xF004, 1)]
    IsSignedDivision (dividend s (.reg 2)) (s.sourceWord (.reg 2)).1.toInt 32767 0 := by
  refine ⟨by decide, by decide, .inl rfl⟩

/-- 32768 by 1. -/
theorem witness_DivideSigned_overflow (quot rem : Int) :
    let s := machine 0 [(0xF000, 0), (0xF002, 0x8000), (0xF004, 1)]
    IsSignedDivision (dividend s (.reg 2)) (s.sourceWord (.reg 2)).1.toInt quot rem →
      quot < -32768 ∨ 32767 < quot := by
  intro s h
  rw [show dividend s (.reg 2) = 32768 by decide, show (s.sourceWord (.reg 2)).1.toInt = 1 by decide] at h
  obtain ⟨e, l, -⟩ := h
  rw [abs_one, abs_lt] at l
  omega

/-- A divisor of 0. -/
theorem witness_DivideSigned_zero (quot rem : Int) :
    IsSignedDivision (dividend moving (.reg 2)) (moving.sourceWord (.reg 2)).1.toInt quot rem →
      quot < -32768 ∨ 32767 < quot := by
  rw [show (moving.sourceWord (.reg 2)).1.toInt = 0 by decide]
  rintro ⟨-, l, -⟩
  have := abs_nonneg rem
  rw [abs_zero] at l
  omega

theorem witness_ExecuteRunsItsTarget_x :
    isX ((machine 0 [(0xF006, 0x0484)]).sourceWord (.reg 3)).1 = true ∧
      isX ((machine 0 [(0xF006, 0x0584)]).sourceWord (.reg 3)).1 = false := by decide

theorem witness_ExecuteRunsItsTarget_pending :
    let s : State := { moving with xPending := some 0x0484 }
    CpuTurn s ∧ s.resetPending = false ∧ s.xPending = some 0x0484 := ⟨⟨rfl, rfl, rfl⟩, rfl, rfl⟩

/-- LDCR and STCR: the counts at the ends of both ranges. -/
theorem witness_CommunicationRegister_counts :
    (1 ≤ (1 : BitVec 4).toNat ∧ (1 : BitVec 4).toNat ≤ 8) ∧ (1 ≤ (8 : BitVec 4).toNat ∧ (8 : BitVec 4).toNat ≤ 8) ∧
      (0 : BitVec 4).toNat = 0 ∧ 9 ≤ (9 : BitVec 4).toNat ∧ 9 ≤ (15 : BitVec 4).toNat := by decide

theorem witness_CruInputMap :
    (0x0F70 : CruAddr).toNat = 0x0F70 + 0 ∧ (0x0F71 : CruAddr).toNat = 0x0F70 + 1 ∧
      (0x0F72 : CruAddr).toNat = 0x0F72 ∧ (0x0F73 : CruAddr).toNat = 0x0F73 ∧ (0x0F74 : CruAddr).toNat = 0x0F74 ∧
      (0x0F75 : CruAddr).toNat = 0x0F70 + 5 ∧ (0x0F7F : CruAddr).toNat = 0x0F70 + 15 ∧
      (0x0FED : CruAddr).toNat = 0x0FED := by decide

theorem witness_CruInputMap_line :
    let s : State := { moving with cruLines := [(0x0F6F, true), (0x0F80, false)] }
    ((0x0F6F : CruAddr).toNat < 0x0F70 ∧ (0x0F6F : CruAddr).toNat ≠ 0x0FED ∧
      cruLine s.cruLines (0x0F6F : CruAddr).toNat = some true) ∧
      0x0F7F < (0x0F80 : CruAddr).toNat ∧ (0x0F80 : CruAddr).toNat ≠ 0x0FED ∧
      cruLine s.cruLines (0x0F80 : CruAddr).toNat = some false := by decide

theorem witness_OnlyListedStatusBits : ∀ sop, Instr.lst 4 ≠ .x sop := by intro sop h; cases h

theorem witness_PcPassesTheExtensionWords :
    loadsPc (.mov .sym (.idx 3)) = false ∧ loadsPc .limi = false ∧ loadsPc (.mid 0) = false := by decide

theorem witness_InstructionsKeepTheRest :
    let i := Instr.clr (.reg 0)
    (∀ sop, i ≠ .x sop) ∧ (∀ r, i ≠ .lwp r) ∧ (∀ o, i ≠ .blwp o) ∧ (∀ o n, i ≠ .xop o n) ∧ i ≠ .lwpi ∧ i ≠ .rtwp ∧
      (∀ w, i ≠ .mid w) ∧ i ≠ .idle := by
  refine ⟨?_, ?_, ?_, ?_, ?_, ?_, ?_, ?_⟩ <;> (intros; intro h; cases h)

theorem witness_EveryStepKeepsTheInvariant : moving.Inv ∧ ∃ t, step moving = .next t :=
  ⟨{ memory_wf := by decide
     cells_kept := by decide
     pc_even := by decide
     wp_even := by decide
     flags_unstored := by decide
     hold_state := by decide
     reset_due := by decide
     nmi_armed := by decide
     x_pending := fun t h => by cases h
     idle_alone := by decide
     cut_in_reset := by decide
     lines_rising := by decide }, _, rfl⟩

theorem witness_StepRunsTheDecodedInstruction :
    AtBoundary moving ∧ moving.grant = none ∧ moving.idle = false ∧ moving.prefetch = none ∧
      decodeBytes [busReadByte moving.plat moving.bus (evenAddr moving.pc),
        busReadByte moving.plat moving.bus (evenAddr moving.pc + 1)] = .ok (.mov (.reg 1) (.reg 2), []) :=
  ⟨moving_atBoundary, by decide, rfl, rfl, rfl⟩

theorem witness_StepRunsTheDecodedInstruction_next :
    ∃ t, exec (.mov (.reg 1) (.reg 2))
        { moving with
          pc := moving.pc + 2, inhibit := .none
          bus := { moving.bus with
            draws := moving.bus.draws + 1, events := loadCycles moving.plat true moving.pc ++ moving.bus.events } } =
        .next t ∧
      t.xPending = none ∧ (∀ sop, Instr.mov (.reg 1) (.reg 2) ≠ .x sop) ∧
      storedWord moving.plat t.bus t.pc = storedWord moving.plat moving.bus t.pc :=
  ⟨_, rfl, rfl, fun _ h => (by cases h), by decide⟩

theorem witness_OverwrittenOpcodeRunsOldOrNew_store :
    let t : State := { moving with bus := { moving.bus with mem := cells [(0x0100, 0x1000)] } }
    t.xPending = none ∧ (∀ sop, Instr.mov (.reg 1) .sym ≠ .b sop) ∧ (∀ sop, Instr.mov (.reg 1) .sym ≠ .x sop) ∧
      storedWord moving.plat moving.bus t.pc ≠ storedWord t.plat t.bus t.pc :=
  ⟨rfl, fun _ h => (by cases h), fun _ h => (by cases h), by decide⟩

/-- An X of `B R1`, and of `INC R4`. -/
theorem witness_OverwrittenOpcodeRunsOldOrNew_x :
    (∃ o, decode ((machine 0 [(0xF006, 0x0441)]).sourceWord (.reg 3)).1 = .b o) ∧
      ∀ o, decode ((machine 0 [(0xF006, 0x0584)]).sourceWord (.reg 3)).1 ≠ .b o := by
  refine ⟨⟨.reg 1, by decide⟩, fun o h => ?_⟩
  rw [show decode ((machine 0 [(0xF006, 0x0584)]).sourceWord (.reg 3)).1 = .inc (.reg 4) by decide] at h
  cases h

theorem witness_OverwrittenOpcodeRunsOldOrNew_fetch :
    let s : State := { moving with prefetch := some 0x1000 }
    AtBoundary s ∧ s.grant = none ∧ s.idle = false ∧ s.prefetch = some 0x1000 :=
  ⟨⟨⟨rfl, rfl, rfl⟩, rfl, rfl⟩, by decide, rfl, rfl⟩

theorem witness_TakingAnInterrupt (k : IntKind) : AtBoundary (asking k) ∧ (asking k).grant = some k := by
  cases k <;> exact ⟨⟨⟨rfl, rfl, rfl⟩, rfl, rfl⟩, by decide⟩

theorem witness_BoundaryTakesTheHighestRequest :
    (moving.midPending = false ∧ IntKind.nmi ≠ .mid) ∧ (asking .mid).grant = some .mid := by decide

theorem witness_MaskAfterAnInterrupt :
    (asking .level1).grant = some .level1 ∧ (asking .level2).grant = some .level2 ∧
      (asking .level3).grant = some .level3 ∧ (asking .level4).grant = some .level4 := by decide

/-- A context through WR5, XOP 15's vector and an interrupt's, with the new workspace in RAM. -/
def switching : State := machine 0 [(0x007C, 0xF040), (0x0004, 0xF060), (0xF00A, 0xF020)]

theorem witness_ReturnUndoesTheContextSwitch_even :
    switching.pc.getLsbD 0 = false ∧ switching.wp.getLsbD 0 = false := by decide

theorem witness_ReturnUndoesTheContextSwitch_blwp :
    let q := switching.ea (.reg 5) .word
    let w := evenAddr (busReadWord switching.plat q.2.bus q.1)
    w = 0xF020 ∧ RegWritable switching.plat w 13 ∧ RegWritable switching.plat w 14 ∧ RegWritable switching.plat w 15 :=
  ⟨by decide, ⟨by decide, by decide⟩, ⟨by decide, by decide⟩, ⟨by decide, by decide⟩⟩

theorem witness_ReturnUndoesTheContextSwitch_xop :
    let q := switching.ea (.reg 5) .word
    let w := evenAddr (busReadWord switching.plat q.2.bus (0x0040 + 4 * (15 : BitVec 4).setWidth 16))
    w = 0xF040 ∧ RegWritable switching.plat w 13 ∧ RegWritable switching.plat w 14 ∧ RegWritable switching.plat w 15 :=
  ⟨by decide, ⟨by decide, by decide⟩, ⟨by decide, by decide⟩, ⟨by decide, by decide⟩⟩

theorem witness_ReturnUndoesTheContextSwitch_interrupt :
    let w := evenAddr (busReadWord switching.plat switching.bus (intVector .level1))
    w = 0xF060 ∧ RegWritable switching.plat w 13 ∧ RegWritable switching.plat w 14 ∧ RegWritable switching.plat w 15 :=
  ⟨by decide, ⟨by decide, by decide⟩, ⟨by decide, by decide⟩, ⟨by decide, by decide⟩⟩

theorem witness_ResetSequenceLeaves :
    let s : State := { moving with resetPending := true }
    CpuTurn s ∧ s.resetPending = true ∧ s.cutShort = false ∧ s.xPending = none :=
  ⟨⟨rfl, rfl, rfl⟩, rfl, rfl, rfl⟩

theorem witness_IdleHoldAndResetStates_idle :
    let s : State := { moving with idle := true }
    AtBoundary s ∧ s.grant = none ∧ s.idle = true := ⟨⟨⟨rfl, rfl, rfl⟩, rfl, rfl⟩, by decide, rfl⟩

theorem witness_IdleHoldAndResetStates_held :
    let s : State := { moving with holdState := true }
    let r : State := { moving with resetActive := true }
    (s.agenda = [] ∧ s.holdState = true) ∧ r.agenda = [] ∧ r.resetActive = true := ⟨⟨rfl, rfl⟩, rfl, rfl⟩

theorem witness_IdleHoldAndResetStates_agenda :
    moving.agenda = [] ∧ { moving with agenda := [.cpu, .nmi true] }.agenda = .cpu :: [.nmi true] ∧
      { moving with agenda := [.nmi true, .cpu] }.agenda = .nmi true :: [.cpu] ∧ EnvEvent.nmi true ≠ .cpu ∧
      ∀ k, EnvEvent.nmi true ≠ .resetWithin k :=
  ⟨rfl, rfl, rfl, by decide, fun _ h => (by cases h)⟩

theorem witness_ResetWithinAnInstruction :
    let s : State := { moving with agenda := [.resetWithin 1] }
    let h : State := { s with holdState := true }
    (s.agenda = .resetWithin 1 :: [] ∧ s.resetActive = false ∧ s.holdState = false) ∧
      h.agenda = .resetWithin 1 :: [] ∧ h.holdState = true := ⟨⟨rfl, rfl, rfl⟩, rfl, rfl⟩

/-- The decrementer enabled, at its least and its greatest start count. -/
def counting (start : Word) : State :=
  { moving with bus := { moving.bus with flags := 0x0002, decStart := start, decCount := start } }

theorem witness_DecrementerTicks_enabled :
    (counting 1).bus.flags.getLsbD 1 = true ∧ (counting 1).bus.decStart ≠ 0 ∧
      (counting 1).bus.decCount = (counting 1).bus.decStart ∧ 0 < (counting 1).bus.decStart.toNat ∧
      (counting 0xFFFF).bus.decStart ≠ 0 ∧ 65534 < (counting 0xFFFF).bus.decStart.toNat := by decide

theorem witness_DecrementerTicks_disabled :
    moving.bus.flags.getLsbD 1 = false ∧ (counting 0).bus.decStart = 0 := by decide

theorem witness_DecrementerTicks_counter :
    let s : State := { moving with bus := { moving.bus with flags := 0x0001 } }
    s.bus.flags.getLsbD 0 = true ∧ s.pins.int4 = true := by decide

theorem witness_DecrementerTicks_timer : moving.bus.flags.getLsbD 0 = false := by decide

theorem witness_EnvironmentEvents_int4_unchanged :
    { moving with pins := { Pins.inactive with int4 := false } }.pins.int4 = false := rfl

theorem witness_EnvironmentEvents_reset :
    moving.resetActive = false ∧ { moving with resetActive := true }.resetActive = true := ⟨rfl, rfl⟩

theorem witness_EnvironmentEvents_lines :
    ({ moving with cruLines := [(0x0080, true), (0x0082, false)] }.cruLines.map Prod.fst).Pairwise (· < ·) := by decide

theorem witness_EnvironmentEvents :
    moving.pins.int1 = true ∧ moving.pins.int4 = true ∧ moving.bus.flags.getLsbD 0 = false ∧
      (asking .level1).latch1 = true ∧ (asking .level3).latch3 = true ∧ (asking .level4).latch4 = true := by decide

end Sys2Proof.Tests
end

section
/-! PROOFS of the statements of 10_state.md: what a sound bus is and what keeps it, what an instruction can change
of the state, that every step keeps the invariant, the effective addresses, and the reset sequence. -/

namespace Sys2Proof.Machine

/-! ### Even addresses (R21, R22) -/

theorem evenAddr_even (a : Word) : (evenAddr a).getLsbD 0 = false := by simp

theorem even_add_double {a : Word} (d : Word) (h : a.getLsbD 0 = false) : (a + 2 * d).getLsbD 0 = false := by
  have two : (2 : Word).toNat = 2 := rfl
  simp only [BitVec.getLsbD, Nat.testBit_zero, decide_eq_false_iff_not, BitVec.toNat_add, BitVec.toNat_mul, two] at h ⊢
  omega

/-! ### The bus of a sound state -/

/-- What the invariant asks of the bus: memory canonical and only where bytes are kept, no storage behind FLAG2 to
FLAG4. -/
structure BusSound (p : Platform) (b : Bus) : Prop where
  memory_wf : Memory.wf b.mem = true
  cells_kept : ∀ c ∈ b.mem, holdsCells p (BitVec.ofNat 16 c.1) = true
  flags_unstored : b.flags.getLsbD 2 = false ∧ b.flags.getLsbD 3 = false ∧ b.flags.getLsbD 4 = false

theorem State.Inv.bus_sound {s : State} (h : s.Inv) : BusSound s.plat s.bus :=
  ⟨h.memory_wf, h.cells_kept, h.flags_unstored⟩

theorem BusSound.of_same {p : Platform} {b c : Bus} (h : BusSound p b) (hm : c.mem = b.mem)
    (hf : c.flags = b.flags) : BusSound p c :=
  ⟨hm ▸ h.memory_wf, hm ▸ h.cells_kept, hf ▸ h.flags_unstored⟩

theorem BusSound.memSet {p : Platform} {b : Bus} {a : Word} (h : BusSound p b) (v : Byte)
    (ha : holdsCells p a = true) : BusSound p { b with mem := memSet b.mem a.toNat v } where
  memory_wf := wf_memSet h.memory_wf a.isLt
  cells_kept c hc := by
    rcases mem_memSet hc with rfl | hc
    · simpa using ha
    · exact h.cells_kept c hc
  flags_unstored := h.flags_unstored

theorem BusSound.putByte {p : Platform} {b : Bus} (h : BusSound p b) (a : Word) (v : Byte) :
    BusSound p (busPutByte p b a v) := by
  unfold busPutByte
  split
  case h_1 hp => exact h.memSet v (by simp [holdsCells, hp])
  case h_3 hp => exact h.memSet v (by simp [holdsCells, hp])
  all_goals exact h

theorem BusSound.storeWord {p : Platform} {b : Bus} (h : BusSound p b) (a v : Word) :
    BusSound p (busStoreWord p b a v) := by
  unfold busStoreWord
  split
  · exact h.of_same rfl rfl
  · exact (h.putByte ..).putByte ..

theorem BusSound.note {p : Platform} {b : Bus} (h : BusSound p b) (cs : List BusEvent) :
    BusSound p (busNote b cs) := h.of_same rfl rfl

theorem BusSound.writeWord {p : Platform} {b : Bus} (h : BusSound p b) (a v : Word) :
    BusSound p (busWriteWord p b a v) := (h.storeWord ..).note _

theorem BusSound.writeByte {p : Platform} {b : Bus} (h : BusSound p b) (a : Word) (v : Byte) :
    BusSound p (busWriteByte p b a v) := by
  unfold busWriteByte
  split
  · exact h.of_same rfl rfl
  · exact (h.putByte ..).note _

/-- No write of the flag register reaches FLAG2 to FLAG4 (R456). -/
theorem BusSound.withFlags {p : Platform} {b : Bus} {f : BitVec 16} (h : BusSound p b)
    (hf : ∀ k, k = 2 ∨ k = 3 ∨ k = 4 → f.getLsbD k = b.flags.getLsbD k) : BusSound p { b with flags := f } where
  memory_wf := h.memory_wf
  cells_kept := h.cells_kept
  flags_unstored := by
    rw [hf 2 (by decide), hf 3 (by decide), hf 4 (by decide)]
    exact h.flags_unstored

theorem BusSound.cruOut {p : Platform} {b : Bus} (h : BusSound p b) (a : CruAddr) (v : Bool) :
    BusSound p (busCruOut b a v) :=
  have hf : ∀ k, k = 2 ∨ k = 3 ∨ k = 4 → (busCruOut b a v).flags.getLsbD k = b.flags.getLsbD k := fun k hk => by
    rw [getLsbD_busCruOut b a v k (by omega), if_neg fun e => e.2 hk]
  (h.withFlags hf).of_same rfl rfl

theorem BusSound.cycle {p : Platform} {b : Bus} (h : BusSound p b) (c : BusEvent) : BusSound p (busCycle p b c) := by
  cases c with
  | memRead a iaq => exact h.note _
  | cruIn a => exact h.note _
  | byteWrite a v => exact (h.putByte ..).note _
  | wordWrite a v => exact (h.storeWord ..).note _
  | cruOut a v => exact h.cruOut ..
  | extInstr code => exact h.note _

theorem BusSound.cycles {p : Platform} (cs : List BusEvent) {b : Bus} (h : BusSound p b) :
    BusSound p (cs.foldl (busCycle p) b) := by
  induction cs generalizing b with
  | nil => exact h
  | cons c cs ih => exact ih (h.cycle c)

/-! ### What the parts of an instruction leave -/

/-- From `s` to `t` only PC, ST and the bus changed, and WP to `w`; PC stays even and the bus sound. -/
structure Moved (s t : State) (w : Word) : Prop where
  frame : t = { s with pc := t.pc, wp := w, st := t.st, bus := t.bus }
  pc_even : s.pc.getLsbD 0 = false → t.pc.getLsbD 0 = false
  bus_sound : BusSound s.plat s.bus → BusSound s.plat t.bus

section
variable {s t : State} {w : Word}

theorem Moved.refl (s : State) : Moved s s s.wp := ⟨rfl, id, id⟩

theorem Moved.plat (h : Moved s t w) : t.plat = s.plat := by rw [h.frame]

theorem Moved.wp (h : Moved s t w) : t.wp = w := by rw [h.frame]

theorem Moved.trans {r : State} {x : Word} (h : Moved s t w) (k : Moved t r x) : Moved s r x where
  frame := by rw [k.frame, h.frame]
  pc_even e := k.pc_even (h.pc_even e)
  bus_sound b := h.plat ▸ k.bus_sound (h.plat.symm ▸ h.bus_sound b)

/-- A change of the bus alone. -/
theorem Moved.onBus (h : Moved s t w) {b : Bus} (hb : BusSound t.plat t.bus → BusSound t.plat b) :
    Moved s { t with bus := b } w :=
  h.trans ⟨by rw [← h.wp], id, hb⟩

theorem Moved.tick (h : Moved s t w) : Moved s t.tickDraws w := h.onBus fun b => b.of_same rfl rfl

theorem Moved.input (h : Moved s t w) (cs : List BusEvent) : Moved s (t.inputCycles cs) w :=
  h.onBus fun b => b.of_same rfl rfl

theorem Moved.read (h : Moved s t w) (a : Word) : Moved s (t.readWord a).2 w := h.input _

theorem Moved.readByte (h : Moved s t w) (a : Word) : Moved s (t.readByte a).2 w := h.input _

theorem Moved.readReg (h : Moved s t w) (n : Reg) : Moved s (t.readReg n).2 w := h.read _

theorem Moved.cruIn (h : Moved s t w) (a : CruAddr) : Moved s (t.cruIn a).2 w := h.input _

theorem Moved.write (h : Moved s t w) (a v : Word) : Moved s (t.writeWord a v) w := h.onBus fun b => b.writeWord ..

theorem Moved.writeByte (h : Moved s t w) (a : Word) (v : Byte) : Moved s (t.writeByte a v) w :=
  h.onBus fun b => b.writeByte ..

theorem Moved.writeReg (h : Moved s t w) (n : Reg) (v : Word) : Moved s (t.writeReg n v) w := h.write ..

theorem Moved.cruOut (h : Moved s t w) (a : CruAddr) (v : Bool) : Moved s (t.cruOut a v) w :=
  h.onBus fun b => b.cruOut ..

theorem Moved.extInstr (h : Moved s t w) (code : BitVec 3) : Moved s (t.extInstr code) w := h.onBus fun b => b.note _

theorem Moved.setSt (h : Moved s t w) (st : Word) : Moved s { t with st := st } w :=
  h.trans ⟨by rw [← h.wp], id, id⟩

theorem Moved.mapSt (h : Moved s t w) (f : Word → Word) : Moved s (t.mapSt f) w := h.setSt _

theorem Moved.setPc (h : Moved s t w) (v : Word) : Moved s (t.setPc v) w :=
  h.trans ⟨by rw [← h.wp]; rfl, fun _ => evenAddr_even v, id⟩

theorem Moved.setWp (h : Moved s t w) (v : Word) : Moved s (t.setWp v) (evenAddr v) := h.trans ⟨rfl, id, id⟩

/-- PC moved by whole words. -/
theorem Moved.addPc (h : Moved s t w) (d : Word) : Moved s { t with pc := t.pc + 2 * d } w :=
  h.trans ⟨by rw [← h.wp], even_add_double d, id⟩

theorem Moved.fetchAs (h : Moved s t w) (iaq : Bool) : Moved s (t.fetchAs iaq).2 w := (h.input _).addPc 1

theorem Moved.fetch (h : Moved s t w) : Moved s t.fetch.2 w := h.fetchAs false

theorem Moved.jump (h : Moved s t w) (d : BitVec 8) (c : Bool) : Moved s (t.jump d c) w := by
  unfold State.jump
  split
  · exact h.addPc _
  · exact h

theorem Moved.ea (h : Moved s t w) (op : Operand) (size : Size) : Moved s (t.ea op size).2 w := by
  cases op with
  | reg r => exact h
  | ind r => exact h.readReg r
  | sym => exact h.fetch
  | idx r => exact h.fetch.readReg r
  | autoInc r => exact (h.readReg r).writeReg ..

theorem Moved.sourceWord (h : Moved s t w) (op : Operand) : Moved s (t.sourceWord op).2 w := (h.ea ..).read _

theorem Moved.dualWord (h : Moved s t w) (sop dop : Operand) : Moved s (t.dualWord sop dop).s w :=
  ((h.ea ..).read _).ea ..

theorem Moved.dualByte (h : Moved s t w) (sop dop : Operand) : Moved s (t.dualByte sop dop).s w :=
  ((h.ea ..).readByte _).ea ..

theorem Moved.modifySingle (h : Moved s t w) (op : Operand) (f : Word → Word) (g : Word → Word → Word) :
    Moved s (t.modifySingle op f g) w := (((h.ea ..).read _).write ..).mapSt _

theorem Moved.writeSingle (h : Moved s t w) (op : Operand) (v : Word) : Moved s (t.writeSingle op v) w :=
  (h.ea ..).write ..

theorem Moved.immediateWrite (h : Moved s t w) (r : Reg) (f : Word → Word → Word) (g : Word → Word → Word → Word) :
    Moved s (t.immediateWrite r f g) w := ((h.fetch.readReg _).writeReg ..).mapSt _

theorem Moved.shiftCount (h : Moved s t w) (c : BitVec 4) : Moved s (t.shiftCount c).2 w := by
  unfold State.shiftCount
  split
  · exact h.readReg 0
  · exact h

theorem Moved.shift (h : Moved s t w) (r : Reg) (c : BitVec 4) (f : Word → Nat → Shifted)
    (g : Word → Nat → Word → Word) : Moved s (t.shift r c f g) w :=
  (((h.shiftCount c).readReg r).writeReg ..).mapSt _

theorem Moved.cruSet (h : Moved s t w) (d : BitVec 8) (v : Bool) : Moved s (t.cruSet d v) w :=
  (h.readReg 12).cruOut ..

theorem Moved.cruOutBits (base : CruAddr) (v : Word) (i k : Nat) {t : State} (h : Moved s t w) :
    Moved s (cruOutBits base v i k t) w := by
  induction k generalizing i t with
  | zero => exact h
  | succ k ih => exact ih (i + 1) (h.cruOut ..)

theorem Moved.cruInBits (base : CruAddr) (i k : Nat) {t : State} (h : Moved s t w) :
    Moved s (cruInBits base i k t).2 w := by
  induction k generalizing i t with
  | zero => exact h
  | succ k ih => exact ih (i + 1) (h.cruIn _)

/-- The stores of a context switch and its new WP and PC (R420). -/
theorem Moved.enter (h : Moved s t w) (newWp newPc : Word) : Moved s (t.enter newWp newPc) (evenAddr newWp) :=
  ((((h.setWp newWp).writeReg ..).writeReg ..).writeReg ..).setPc newPc

theorem Moved.contextSwitch (h : Moved s t w) (vec : Word) :
    Moved s (t.contextSwitch vec) (evenAddr (t.readWord vec).1) := ((h.read vec).read (vec + 2)).enter ..

theorem modifyWord_moved {p : Pair 16} (h : Moved s p.s w) (f : Word → Word → Word) (g : Word → Word → Word → Word) :
    Moved s (modifyWord p f g) w := ((h.read _).write ..).mapSt _

theorem modifyByte_moved {p : Pair 8} (h : Moved s p.s w) (f : Byte → Byte → Byte) (g : Byte → Byte → Word → Word) :
    Moved s (modifyByte p f g) w := ((h.readByte _).writeByte ..).mapSt _

theorem compareWord_moved {p : Pair 16} (h : Moved s p.s w) (g : Word → Word → Word → Word) :
    Moved s (compareWord p g) w := (h.read _).mapSt _

theorem compareByte_moved {p : Pair 8} (h : Moved s p.s w) (g : Byte → Byte → Word → Word) :
    Moved s (compareByte p g) w := (h.readByte _).mapSt _

end

/-! ### The instructions with more than one outcome -/

theorem execLdcr_moved (sop : Operand) (c : BitVec 4) (s : State) :
    ∃ t, execLdcr sop c s = .next t ∧ Moved s t s.wp := by
  have h := Moved.refl s
  unfold execLdcr
  split
  · exact ⟨_, rfl, .cruOutBits _ _ _ _ ((((h.ea ..).readByte _).mapSt _).readReg 12)⟩
  · exact ⟨_, rfl, .cruOutBits _ _ _ _ ((((h.ea ..).read _).mapSt _).readReg 12)⟩

theorem execStcr_moved (dop : Operand) (c : BitVec 4) (s : State) :
    ∃ t, execStcr dop c s = .next t ∧ Moved s t s.wp := by
  have h := Moved.refl s
  unfold execStcr
  split
  · exact ⟨_, rfl, ((Moved.cruInBits _ _ _ ((h.ea ..).readReg 12)).writeByte ..).mapSt _⟩
  · exact ⟨_, rfl, ((Moved.cruInBits _ _ _ ((h.ea ..).readReg 12)).write ..).mapSt _⟩

theorem execDiv_moved (sop : Operand) (d : Reg) (s : State) : ∃ t, execDiv sop d s = .next t ∧ Moved s t s.wp := by
  have h := ((Moved.refl s).sourceWord sop).readReg d
  unfold execDiv
  dsimp only
  split
  · exact ⟨_, rfl, h.mapSt _⟩
  · exact ⟨_, rfl, (((h.read _).writeReg ..).write ..).mapSt _⟩

theorem execDivs_moved (sop : Operand) (s : State) : ∃ t, execDivs sop s = .next t ∧ Moved s t s.wp := by
  have h := (((Moved.refl s).sourceWord sop).readReg 0).readReg 1
  unfold execDivs
  dsimp only
  split
  · exact ⟨_, rfl, h.tick.mapSt _⟩
  · exact ⟨_, rfl, ((h.writeReg ..).writeReg ..).mapSt _⟩

/-! ### What every instruction can change -/

/-- What any instruction leaves: its frame, PC and WP even, the bus sound, and no pending target but an X's. -/
structure Executed (s t : State) : Prop where
  frame : t = { s with pc := t.pc, wp := t.wp, st := t.st, bus := t.bus, inhibit := t.inhibit,
                       midPending := t.midPending, xPending := t.xPending, idle := t.idle }
  pc_even : s.pc.getLsbD 0 = false → t.pc.getLsbD 0 = false
  wp_even : s.wp.getLsbD 0 = false → t.wp.getLsbD 0 = false
  bus_sound : BusSound s.plat s.bus → BusSound s.plat t.bus
  target : t.xPending = s.xPending ∨ (t.idle = s.idle ∧ ∃ w, t.xPending = some w ∧ isX w = true)

/-- What an instruction other than X changes only where it is listed. -/
def OnlyListed (i : Instr) (s t : State) : Prop :=
  t.xPending = s.xPending ∧
  ((∀ r, i ≠ .lwp r) → (∀ o, i ≠ .blwp o) → (∀ o n, i ≠ .xop o n) → i ≠ .lwpi → i ≠ .rtwp → t.wp = s.wp) ∧
  ((∀ o, i ≠ .blwp o) → (∀ o n, i ≠ .xop o n) → t.inhibit = s.inhibit) ∧
  ((∀ w, i ≠ .mid w) → t.midPending = s.midPending) ∧ (i ≠ .idle → t.idle = s.idle)

/-- The instruction completes, with its frame and the listed changes alone. -/
def Completes (i : Instr) (s : State) : Prop := ∃ t, exec i s = .next t ∧ Executed s t ∧ OnlyListed i s t

/-- An instruction that moves the state to `u` and then sets some of the inhibit, the MID request and Idle. -/
theorem Moved.executed {s u t : State} {w : Word} (h : Moved s u w)
    (hw : s.wp.getLsbD 0 = false → w.getLsbD 0 = false)
    (ht : t = { u with inhibit := t.inhibit, midPending := t.midPending, idle := t.idle }) : Executed s t where
  frame := by rw [ht, h.frame]
  pc_even := by rw [ht]; exact h.pc_even
  wp_even := by rw [ht, h.frame]; exact hw
  bus_sound := by rw [ht]; exact h.bus_sound
  target := .inl (by rw [ht, h.frame])

/-- Most instructions change PC, ST and the bus alone. -/
theorem Completes.of_moved {i : Instr} {s : State} (h : ∃ t, exec i s = .next t ∧ Moved s t s.wp) :
    Completes i s := by
  obtain ⟨t, e, h⟩ := h
  have hw : t.wp = s.wp := h.wp
  have hf := h.frame
  exact ⟨t, e, h.executed id rfl, by rw [hf], fun _ _ _ _ _ => hw, fun _ _ => by rw [hf], fun _ => by rw [hf],
    fun _ => by rw [hf]⟩

/-- LWPI, LWP and RTWP load WP too. -/
theorem Completes.of_loadsWp {i : Instr} {s t : State} {v : Word} (e : exec i s = .next t)
    (h : Moved s t (evenAddr v)) (hi : i = .lwpi ∨ (∃ r, i = .lwp r) ∨ i = .rtwp) : Completes i s := by
  have hf := h.frame
  refine ⟨t, e, h.executed (fun _ => evenAddr_even v) rfl, by rw [hf], fun hlwp _ _ hlwpi hrtwp => ?_,
    fun _ _ => by rw [hf], fun _ => by rw [hf], fun _ => by rw [hf]⟩
  obtain rfl | ⟨r, rfl⟩ | rfl := hi
  · exact absurd rfl hlwpi
  · exact absurd rfl (hlwp r)
  · exact absurd rfl hrtwp

/-- BLWP and XOP load WP and hold back the maskable interrupts (R227). -/
theorem Completes.of_traps {i : Instr} {s u : State} {v : Word} (e : exec i s = .next { u with inhibit := .maskable })
    (h : Moved s u (evenAddr v)) (hi : (∃ o, i = .blwp o) ∨ ∃ o n, i = .xop o n) : Completes i s := by
  have hf := h.frame
  have no : (∀ o, i ≠ .blwp o) → (∀ o n, i ≠ .xop o n) → False := fun hblwp hxop => by
    obtain ⟨o, rfl⟩ | ⟨o, n, rfl⟩ := hi
    · exact hblwp o rfl
    · exact hxop o n rfl
  exact ⟨_, e, h.executed (fun _ => evenAddr_even v) rfl, by rw [hf], fun _ hb hx _ _ => (no hb hx).elim,
    fun hb hx => (no hb hx).elim, fun _ => by rw [hf], fun _ => by rw [hf]⟩

/-- RTWP loads WP from WR13 of the old workspace (R370). -/
theorem returnSwitch_moved (s : State) : ∃ v, Moved s s.returnSwitch (evenAddr v) :=
  ⟨_, ((((((Moved.refl s).readReg 15).readReg 14).readReg 13).setSt _).setPc _).setWp _⟩

/-- Every instruction but X completes, with its frame and the listed changes alone. -/
theorem exec_completes (i : Instr) (s : State) (hx : ∀ sop, i ≠ .x sop) : Completes i s := by
  have h := Moved.refl s
  cases i with
  | szc sop dop | s sop dop | a sop dop | soc sop dop =>
    exact .of_moved ⟨_, rfl, modifyWord_moved (h.dualWord ..) _ _⟩
  | szcb sop dop | sb sop dop | ab sop dop | socb sop dop =>
    exact .of_moved ⟨_, rfl, modifyByte_moved (h.dualByte ..) _ _⟩
  | c sop dop => exact .of_moved ⟨_, rfl, compareWord_moved (h.dualWord ..) _⟩
  | cb sop dop => exact .of_moved ⟨_, rfl, compareByte_moved (h.dualByte ..) _⟩
  | mov sop dop => exact .of_moved ⟨_, rfl, ((h.dualWord ..).write ..).mapSt _⟩
  | movb sop dop => exact .of_moved ⟨_, rfl, ((h.dualByte ..).writeByte ..).mapSt _⟩
  | coc sop d | czc sop d => exact .of_moved ⟨_, rfl, ((h.sourceWord _).readReg _).mapSt _⟩
  | xor sop d => exact .of_moved ⟨_, rfl, (((h.sourceWord _).readReg _).writeReg ..).mapSt _⟩
  | mpy sop d => exact .of_moved ⟨_, rfl, (((h.sourceWord _).readReg _).writeReg ..).write ..⟩
  | div sop d => exact .of_moved (execDiv_moved sop d s)
  | mpys sop => exact .of_moved ⟨_, rfl, ((((h.sourceWord _).readReg 0).writeReg ..).writeReg ..).mapSt _⟩
  | divs sop => exact .of_moved (execDivs_moved sop s)
  | xop sop n =>
    exact .of_traps rfl (h.ea sop .word |>.read _ |>.read _ |>.setWp _ |>.writeReg 11 _ |>.writeReg 13 _
      |>.writeReg 14 _ |>.writeReg 15 _ |>.setPc _ |>.mapSt _) (.inr ⟨sop, n, rfl⟩)
  | b sop => exact .of_moved ⟨_, rfl, (h.ea ..).setPc _⟩
  | bl sop => exact .of_moved ⟨_, rfl, ((h.ea ..).writeReg ..).setPc _⟩
  | blwp sop => exact .of_traps rfl ((h.ea sop .word).contextSwitch _) (.inl ⟨sop, rfl⟩)
  | clr sop | seto sop => exact .of_moved ⟨_, rfl, h.writeSingle ..⟩
  | inv sop | neg sop | abs sop | swpb sop | inc sop | inct sop | dec sop | dect sop =>
    exact .of_moved ⟨_, rfl, h.modifySingle ..⟩
  | x sop => exact absurd rfl (hx sop)
  | ldcr sop c => exact .of_moved (execLdcr_moved sop c s)
  | stcr dop c => exact .of_moved (execStcr_moved dop c s)
  | sbo d | sbz d => exact .of_moved ⟨_, rfl, h.cruSet ..⟩
  | tb d => exact .of_moved ⟨_, rfl, ((h.readReg 12).cruIn _).mapSt _⟩
  | jmp d | jlt d | jle d | jeq d | jhe d | jgt d | jne d | jnc d | joc d | jno d | jl d | jh d
  | jop d => exact .of_moved ⟨_, rfl, h.jump ..⟩
  | sla r c | sra r c | srl r c | src r c =>
    exact .of_moved ⟨_, rfl, h.shift ..⟩
  | li r => exact .of_moved ⟨_, rfl, (h.fetch.writeReg ..).mapSt _⟩
  | ai r | andi r | ori r => exact .of_moved ⟨_, rfl, h.immediateWrite ..⟩
  | ci r => exact .of_moved ⟨_, rfl, (h.fetch.readReg _).mapSt _⟩
  | lwpi => exact .of_loadsWp rfl (h.fetch.setWp _) (.inl rfl)
  | limi => exact .of_moved ⟨_, rfl, h.fetch.mapSt _⟩
  | stst r => exact .of_moved ⟨_, rfl, h.writeReg ..⟩
  | lst r => exact .of_moved ⟨_, rfl, (h.readReg _).setSt _⟩
  | stwp r => exact .of_moved ⟨_, rfl, h.writeReg ..⟩
  | lwp r => exact .of_loadsWp rfl ((h.readReg r).setWp _) (.inr (.inl ⟨r, rfl⟩))
  | rtwp =>
    obtain ⟨v, hv⟩ := returnSwitch_moved s
    exact .of_loadsWp rfl hv (.inr (.inr rfl))
  | idle =>
    exact ⟨_, rfl, (h.extInstr _).executed id rfl, rfl, fun _ _ _ _ _ => rfl, fun _ _ => rfl, fun _ => rfl,
      fun hi => absurd rfl hi⟩
  | rset => exact .of_moved ⟨_, rfl, (h.mapSt _).extInstr _⟩
  | ckon => exact .of_moved ⟨_, rfl, h.extInstr _⟩
  | ckof => exact .of_moved ⟨_, rfl, h.extInstr _⟩
  | lrex => exact .of_moved ⟨_, rfl, h.extInstr _⟩
  | mid v =>
    have hb : Moved s { s with bus := { s.bus with midFlag := true } } s.wp := h.onBus fun b => b.of_same rfl rfl
    exact ⟨_, rfl, hb.executed id rfl, rfl, fun _ _ _ _ _ => rfl, fun _ _ => rfl, fun hm => absurd rfl (hm v),
      fun _ => rfl⟩

/-- An instruction run after a part that keeps WP, as the target of an X runs after its operand is read. -/
theorem Executed.after {s u t : State} (h : Moved s u s.wp) (k : Executed u t) : Executed s t where
  frame := by rw [k.frame, h.frame]
  pc_even e := k.pc_even (h.pc_even e)
  wp_even e := k.wp_even (h.wp.symm ▸ e)
  bus_sound b := h.plat ▸ k.bus_sound (h.plat.symm ▸ h.bus_sound b)
  target := by
    have hx : u.xPending = s.xPending := by rw [h.frame]
    have hi : u.idle = s.idle := by rw [h.frame]
    rw [← hx, ← hi]
    exact k.target

theorem isX_of_decode {v : Word} {sop : Operand} (h : decode v = .x sop) : isX v = true := by
  simp [isX, h, Instr.mnemonic]

/-- An X completes: its target runs at once, or waits where it is again an X (R254). -/
theorem execX_executed (sop : Operand) (s : State) : ∃ t, exec (.x sop) s = .next t ∧ Executed s t := by
  have h := (Moved.refl s).sourceWord sop
  have e : exec (.x sop) s = execTarget (s.sourceWord sop).1 (s.sourceWord sop).2 := rfl
  cases hv : isX (s.sourceWord sop).1 with
  | true =>
    exact ⟨_, e.trans (execTarget_x hv _), .after h ⟨rfl, id, id, id, .inr ⟨rfl, _, rfl, hv⟩⟩⟩
  | false =>
    obtain ⟨t, et, ht, -⟩ := exec_completes (decode (s.sourceWord sop).1) (s.sourceWord sop).2 fun o ho => by
      simp [isX_of_decode ho] at hv
    exact ⟨t, e.trans ((execTarget_eq hv _).trans et), .after h ht⟩

/-- Every instruction completes and leaves what any instruction leaves. -/
theorem exec_executed (i : Instr) (s : State) : ∃ t, exec i s = .next t ∧ Executed s t := by
  by_cases hx : ∃ sop, i = .x sop
  · obtain ⟨sop, rfl⟩ := hx
    exact execX_executed sop s
  · obtain ⟨t, e, h, -⟩ := exec_completes i s fun sop hi => hx ⟨sop, hi⟩
    exact ⟨t, e, h⟩

/-! ### The invariant, one agent at a time -/

/-- The bus may change to any sound one. -/
theorem State.Inv.onBus {s : State} (h : s.Inv) {b : Bus} (hb : BusSound s.plat b) : { s with bus := b }.Inv :=
  { h with memory_wf := hb.memory_wf, cells_kept := hb.cells_kept, flags_unstored := hb.flags_unstored }

/-- The invariant follows WP, PC, ST and the bus through the parts of an instruction. -/
theorem State.Inv.moved {s t : State} {w : Word} (h : s.Inv) (m : Moved s t w) (hw : w.getLsbD 0 = false) : t.Inv := by
  have hb := m.bus_sound h.bus_sound
  rw [m.frame]
  exact { h.onBus hb with pc_even := m.pc_even h.pc_even, wp_even := hw }

/-- An instruction keeps the invariant where no X awaits its target and the machine is not idle. -/
theorem State.Inv.executed {s t : State} (h : s.Inv) (hx : s.xPending = none) (hi : s.idle = false)
    (e : Executed s t) : t.Inv := by
  have hb := e.bus_sound h.bus_sound
  have hp : ∀ v, t.xPending = some v → isX v = true := fun v hv => by
    obtain k | ⟨-, u, hu, hux⟩ := e.target
    · rw [k, hx] at hv; cases hv
    · rw [hu] at hv; cases hv; exact hux
  have ha : t.idle = true → t.xPending = none := fun ht => by
    obtain k | ⟨k, -⟩ := e.target
    · exact k.trans hx
    · rw [k, hi] at ht; cases ht
  rw [e.frame]
  exact { h.onBus hb with
    pc_even := e.pc_even h.pc_even, wp_even := e.wp_even h.wp_even, x_pending := hp, idle_alone := ha }

theorem State.Inv.withPrefetch {s : State} (h : s.Inv) (w : Option Word) : { s with prefetch := w }.Inv := { h with }

/-- An instruction run where no X awaits its target and the machine is not idle. -/
theorem State.Inv.run {u t : State} {i : Instr} (h : u.Inv) (hx : u.xPending = none) (hi : u.idle = false)
    (ht : u.run i = .next t) : t.Inv := by
  obtain ⟨r, e, hr⟩ := exec_executed i u
  rw [run_of_exec e] at ht
  cases ht
  rw [notePrefetch_core]
  exact (h.executed hx hi hr).withPrefetch _

/-- The opcode's fetch, a prefetched word used up (R490). -/
theorem fetchOpcode_moved (s : State) : Moved { s with prefetch := none } s.fetchOpcode.2 s.wp := by
  have m := (Moved.refl { s with prefetch := none }).fetchAs true
  cases hp : s.prefetch with
  | none =>
    have same : { s with prefetch := none } = s := by rw [← hp]
    rw [same] at m ⊢
    simp only [State.fetchOpcode, hp]
    exact m
  | some old =>
    simp only [State.fetchOpcode, hp]
    exact m.tick

theorem State.Inv.runInstruction {s t : State} (h : s.Inv) (hx : s.xPending = none) (hi : s.idle = false)
    (ht : s.runInstruction = .next t) : t.Inv := by
  have m := fetchOpcode_moved s
  refine ((h.withPrefetch none).moved m h.wp_even).run ?_ ?_ ht
  · rw [m.frame]; exact hx
  · rw [m.frame]; exact hi

theorem State.Inv.proceed {s t : State} (h : s.Inv) (hx : s.xPending = none) (ht : s.proceed = .next t) : t.Inv := by
  have hn : State.Inv { s with inhibit := .none } := { h with }
  unfold State.proceed at ht
  dsimp only at ht
  split at ht
  case isTrue =>
    cases ht
    exact hn.moved ((Moved.refl _).extInstr _) h.wp_even
  case isFalse hi => exact hn.runInstruction hx (Bool.eq_false_iff.mpr hi) ht

theorem acceptedLevel_ne_nmi (s : State) : s.acceptedLevel ≠ some .nmi := by
  unfold State.acceptedLevel
  split_ifs <;> simp

/-- NMI is taken only while its pin is low (R424). -/
theorem nmi_low_of_grant {s : State} (h : s.grant = some .nmi) : s.pins.nmi = false := by
  obtain ⟨hk, -⟩ | ⟨-, -, hr, -⟩ | ⟨-, -, -, ha⟩ := grant_eq_some h
  · cases hk
  · simpa using (Bool.and_eq_true_iff.mp hr).2
  · exact absurd ha (acceptedLevel_ne_nmi s)

theorem State.Inv.takeInterrupt {s : State} {k : IntKind} (h : s.Inv) (hx : s.xPending = none)
    (hg : s.grant = some k) : (s.takeInterrupt k).Inv := by
  have hs : (s.contextSwitch (intVector k)).Inv := h.moved ((Moved.refl s).contextSwitch _) (evenAddr_even _)
  have ha : s.pins.nmi = true → (s.nmiArmed && decide (k ≠ .nmi)) = true := fun hn => by
    have hk : k ≠ .nmi := fun e => by
      rw [e] at hg
      rw [nmi_low_of_grant hg] at hn
      cases hn
    simp [h.nmi_armed hn, hk]
  rw [takeInterrupt_core]
  exact { h.onBus hs.bus_sound with
    pc_even := evenAddr_even _, wp_even := evenAddr_even _, nmi_armed := ha, idle_alone := fun _ => hx }

/-! ### The reset sequence (R480) -/

/-- The state whose WP, PC and ST a reset saves: this one at a boundary, else one that lost them (R481). -/
def State.resetContext (s : State) : State := if s.midInstruction then s.loseContext else s

theorem resetContext_core (s : State) :
    s.resetContext = { s with wp := s.resetContext.wp, pc := s.resetContext.pc, st := s.resetContext.st } := by
  unfold State.resetContext
  split
  · exact loseContext_core s
  · rfl

theorem resetContext_at_boundary {s : State} (hc : s.cutShort = false) (hx : s.xPending = none) :
    s.resetContext = s := by
  simp [State.resetContext, State.midInstruction, hc, hx]

/-- FLAG0 and FLAG1 cleared. -/
def resetFlags (f : BitVec 16) : BitVec 16 := flagPut (flagPut f 0 false) 1 false

theorem getLsbD_resetFlags (f : BitVec 16) (k : Nat) :
    (resetFlags f).getLsbD k = (f.getLsbD k && decide (2 ≤ k)) := by
  by_cases hk : k < 16
  · show (flagWrite (flagWrite f 0 false) 1 false).getLsbD k = _
    rw [getLsbD_flagWrite _ _ _ _ hk, getLsbD_flagWrite _ _ _ _ hk]
    obtain rfl | rfl | h : k = 0 ∨ k = 1 ∨ 2 ≤ k := by omega
    · simp
    · simp
    · simp [h, show k ≠ 0 by omega, show k ≠ 1 by omega]
  · rw [BitVec.getLsbD_of_ge _ _ (not_lt.mp hk), BitVec.getLsbD_of_ge _ _ (not_lt.mp hk), Bool.false_and]

/-- The bus after the reset's context switch. -/
def State.resetBus (s : State) : Bus := (s.resetContext.contextSwitch 0x0000).bus

/-- All that the reset sequence leaves (R480). -/
theorem resetSequence_core (s : State) :
    s.resetSequence =
      { s with
        wp := evenAddr (busReadWord s.plat s.bus 0x0000)
        pc := evenAddr (busReadWord s.plat s.tickDraws.bus 0x0002)
        st := 0
        bus := { s.resetBus with flags := resetFlags s.resetBus.flags, midFlag := false }
        latch1 := false, latch3 := false, latch4 := false
        midPending := false, idle := false, inhibit := .allButReset
        prefetch := none, xPending := none, resetPending := false, cutShort := false } := by
  show { s.resetContext.contextSwitch 0x0000 with
        st := 0
        bus := { s.resetBus with flags := resetFlags s.resetBus.flags, midFlag := false }
        latch1 := false, latch3 := false, latch4 := false
        midPending := false, idle := false, inhibit := .allButReset
        prefetch := none, xPending := none, resetPending := false, cutShort := false } = _
  rw [contextSwitch_core, resetContext_core]
  rfl

theorem resetBus_stored (s : State) :
    ContextStored s.plat s.bus s.resetBus (evenAddr (busReadWord s.plat s.bus 0x0000))
      s.resetContext.wp s.resetContext.pc s.resetContext.st := by
  have h := contextSwitch_stored s.resetContext 0x0000
  have hp : s.resetContext.plat = s.plat := by rw [resetContext_core]
  have hb : s.resetContext.bus = s.bus := by rw [resetContext_core]
  rwa [hp, hb] at h

theorem resetBus_sound {s : State} (h : BusSound s.plat s.bus) : BusSound s.plat s.resetBus := by
  have m := ((Moved.refl s.resetContext).contextSwitch 0x0000).bus_sound
  have hp : s.resetContext.plat = s.plat := by rw [resetContext_core]
  have hb : s.resetContext.bus = s.bus := by rw [resetContext_core]
  rw [hp, hb] at m
  exact m h

theorem BusSound.reset {p : Platform} {b : Bus} (h : BusSound p b) :
    BusSound p { b with flags := resetFlags b.flags, midFlag := false } :=
  have hf : ∀ k, k = 2 ∨ k = 3 ∨ k = 4 → (resetFlags b.flags).getLsbD k = b.flags.getLsbD k := fun k hk => by
    rw [getLsbD_resetFlags, decide_eq_true (by omega : 2 ≤ k), Bool.and_true]
  (h.withFlags hf).of_same rfl rfl

theorem State.Inv.resetSequence {s : State} (h : s.Inv) : s.resetSequence.Inv := by
  have hb := (resetBus_sound h.bus_sound).reset
  rw [resetSequence_core]
  exact { h.onBus hb with
    pc_even := evenAddr_even _, wp_even := evenAddr_even _, reset_due := fun _ => rfl
    x_pending := nofun, idle_alone := fun _ => rfl, cut_in_reset := nofun }

/-! ### The CPU's step -/

/-- The CPU's step, branch by branch: held, a due reset, the target of an X, an interrupt, an instruction (R414). -/
theorem State.Inv.cpuStep {s t : State} (h : s.Inv) (ht : s.cpuStep = .next t) : t.Inv := by
  unfold State.cpuStep at ht
  split at ht
  · cases ht; exact h
  split at ht
  · cases ht; exact h.resetSequence
  split at ht
  case h_1 v hv =>
    have hi : s.idle = false := Bool.eq_false_iff.mpr fun hi => by
      rw [h.idle_alone hi] at hv
      cases hv
    have hn : State.Inv { s with xPending := none } :=
      { h with x_pending := nofun, idle_alone := fun _ => rfl }
    exact hn.run rfl hi ht
  case h_2 hx =>
    split at ht
    case h_1 k hg => cases ht; exact h.takeInterrupt hx hg
    case h_2 => exact h.proceed hx ht

/-! ### The other agents (R505) -/

theorem State.Inv.decTick {s : State} (h : s.Inv) : s.decTick.Inv := by
  unfold State.decTick
  split
  · split
    · exact { h with }
    · exact { h with }
  · exact h

theorem State.Inv.resetFalls {s : State} (h : s.Inv) : s.resetFalls.Inv := by
  unfold State.resetFalls
  split
  · exact h
  · exact { h with
      hold_state := rfl, reset_due := fun _ => rfl, nmi_armed := id, cut_in_reset := fun _ => .inl rfl }

theorem State.Inv.resetRises {s : State} (h : s.Inv) : s.resetRises.Inv := by
  unfold State.resetRises
  split
  · exact { h with hold_state := rfl, reset_due := nofun, cut_in_reset := fun _ => .inr rfl }
  · exact h

theorem State.Inv.int4Level {s : State} (h : s.Inv) (high : Bool) : (s.int4Level high).Inv := by
  have hp : State.Inv { s with pins := { s.pins with int4 := high } } := { h with }
  unfold State.int4Level
  dsimp only
  split
  · split
    · exact hp.decTick
    · exact { hp with }
  · exact hp

/-- DMA stores only where external RAM answers (R86). -/
theorem State.Inv.dmaWrite {s : State} (h : s.Inv) (a : Word) (b : Byte) : (s.dmaWrite a b).Inv := by
  unfold State.dmaWrite
  split
  case isTrue hr => exact h.onBus (h.bus_sound.memSet b (by simp [holdsCells, hr.2]))
  case isFalse => exact h

/-- A line after one is put in its place or taken out is that one or an old one. -/
theorem mem_putLine {a : Nat} {level : Option Bool} {ls : List (Nat × Bool)} {c : Nat × Bool}
    (h : c ∈ putLine a level ls) : c.1 = a ∨ c ∈ ls := by
  induction ls with
  | nil =>
    cases level with
    | none => exact .inr h
    | some v => exact .inl (by rw [List.mem_singleton.mp h])
  | cons d ls ih =>
    obtain ⟨k, v⟩ := d
    unfold putLine at h
    split_ifs at h with hk hlt
    · cases level with
      | none => exact .inr (List.mem_cons_of_mem _ h)
      | some u => exact (List.mem_cons.mp h).imp (fun e => by rw [e]) (List.mem_cons_of_mem _)
    · cases level with
      | none => exact .inr h
      | some u => exact (List.mem_cons.mp h).imp_left fun e => by rw [e]
    · obtain rfl | h := List.mem_cons.mp h
      · exact .inr List.mem_cons_self
      · exact (ih h).imp_right (List.mem_cons_of_mem _)

theorem rising_putLine (a : Nat) (level : Option Bool) {ls : List (Nat × Bool)}
    (h : (ls.map Prod.fst).Pairwise (· < ·)) : ((putLine a level ls).map Prod.fst).Pairwise (· < ·) := by
  induction ls with
  | nil => cases level <;> simp [putLine]
  | cons d ls ih =>
    obtain ⟨k, v⟩ := d
    have ⟨hd, hls⟩ := List.pairwise_cons.mp h
    unfold putLine
    split_ifs with hk hlt
    · subst hk
      cases level
      · exact hls
      · exact h
    · cases level
      · exact h
      · exact List.pairwise_cons.mpr ⟨fun y hy => by
          obtain rfl | hy := List.mem_cons.mp hy
          · exact hlt
          · exact hlt.trans (hd y hy), h⟩
    · refine List.pairwise_cons.mpr ⟨fun y hy => ?_, ih hls⟩
      obtain ⟨c, hc, rfl⟩ := List.mem_map.mp hy
      obtain rfl | hc := mem_putLine hc
      · show k < c.1
        omega
      · exact hd _ (List.mem_map_of_mem hc)

theorem State.Inv.envEvent {s : State} (h : s.Inv) (e : EnvEvent) : (s.envEvent e).Inv := by
  cases e with
  | cpu => exact h
  | reset high =>
    cases high
    · exact h.resetFalls
    · exact h.resetRises
  | resetWithin k => exact h.resetFalls
  | nmi high => exact { h with nmi_armed := fun hn => Bool.or_eq_true_iff.mpr (.inr hn) }
  | int1 high => exact { h with }
  | int4 high => exact h.int4Level high
  | hold high => exact { h with hold_state := Bool.and_comm .. }
  | ready high => exact { h with }
  | timerClock =>
    unfold State.envEvent
    dsimp only
    split
    · exact h
    · exact h.decTick
  | dmaWrite a b => exact h.dmaWrite a b
  | cruLine a level => exact { h with lines_rising := rising_putLine _ _ h.lines_rising }

/-- In the Reset state an instruction may count as cut short. -/
theorem State.Inv.cut {s : State} (h : s.Inv) (hr : s.resetActive = true) : { s with cutShort := true }.Inv :=
  { h with cut_in_reset := fun _ => .inl hr }

@[simp] theorem resetFalls_active (s : State) : s.resetFalls.resetActive = true := by
  unfold State.resetFalls
  split
  case isTrue hr => exact hr
  case isFalse => rfl

@[simp] theorem resetFalls_plat (s : State) : s.resetFalls.plat = s.plat := by
  unfold State.resetFalls
  split <;> rfl

/-- A reset within a step is a reset on the bus that the step's first cycles made, an instruction cut short. -/
theorem abandon_resetFalls (s t : State) (k : Nat) :
    (s.abandon t k).resetFalls = { s.resetFalls with bus := (s.abandon t k).bus, cutShort := true } := by
  rw [abandon_core]
  unfold State.resetFalls
  dsimp only
  split <;> rfl

/-- A step abandoned after some of its cycles, and RESET low (R481). -/
theorem State.Inv.abandon {s : State} (h : s.Inv) (t : State) (k : Nat) : (s.abandon t k).resetFalls.Inv := by
  have hb : BusSound s.resetFalls.plat (s.abandon t k).bus := by
    rw [resetFalls_plat]
    exact (BusSound.cycles ((cyclesBetween s.bus t.bus).take k) h.bus_sound).of_same rfl rfl
  rw [abandon_resetFalls]
  exact (h.resetFalls.onBus hb).cut (resetFalls_active s)

theorem State.Inv.resetInside {s : State} (h : s.Inv) (k : Nat) : (s.resetInside k).Inv := by
  unfold State.resetInside
  split
  · exact h.resetFalls
  · split
    · exact h.abandon _ k
    · exact h.resetFalls
    · exact h.resetFalls

/-- One step: another agent's event, or the CPU's step, in whose middle a reset can fall (R505, R506). -/
theorem State.Inv.machineStep {s t : State} (h : s.Inv) (ht : s.machineStep = .next t) : t.Inv := by
  have hr : ∀ rest, State.Inv { s with agenda := rest } := fun rest => { h with }
  unfold State.machineStep at ht
  split at ht
  · exact h.cpuStep ht
  · exact (hr _).cpuStep ht
  · cases ht; exact (hr _).resetInside _
  · cases ht; exact (hr _).envEvent _

/-! ### A store beside other flags -/

/-- What a word write does, it does whatever the flags and the MID flag are. -/
theorem WordStored.besideFlags {p : Platform} {b c : Bus} {a v : Word} (h : WordStored p b c a v) (f : BitVec 16)
    (m : Bool) : WordStored p { b with flags := f, midFlag := m } { c with flags := f, midFlag := m } a v := by
  obtain ⟨-, -, hc, hs⟩ := h
  exact ⟨rfl, rfl, hc, hs⟩

theorem ContextStored.besideFlags {p : Platform} {b c : Bus} {w wp pc st : Word} (h : ContextStored p b c w wp pc st)
    (f : BitVec 16) (m : Bool) :
    ContextStored p { b with flags := f, midFlag := m } { c with flags := f, midFlag := m } w wp pc st := by
  obtain ⟨b1, b2, h1, h2, h3⟩ := h
  exact ⟨_, _, h1.besideFlags f m, h2.besideFlags f m, h3.besideFlags f m⟩

theorem ContextStored.flags {p : Platform} {b c : Bus} {w wp pc st : Word} (h : ContextStored p b c w wp pc st) :
    c.flags = b.flags := by
  obtain ⟨b1, b2, ⟨h1, -⟩, ⟨h2, -⟩, ⟨h3, -⟩⟩ := h
  rw [h3, h2, h1]

/-- A context switch stores nowhere but in the new WR13, WR14 and WR15 (R420). -/
theorem ContextStored.kept {p : Platform} {b c : Bus} {w wp pc st : Word} (h : ContextStored p b c w wp pc st) :
    BusKeptOutside p b c fun x => InWord (wrAddr w 13) x ∨ InWord (wrAddr w 14) x ∨ InWord (wrAddr w 15) x := by
  obtain ⟨b1, b2, h1, h2, h3⟩ := h
  exact ((h1.kept.mono fun _ hx => .inl hx).trans (h2.kept.mono fun _ hx => .inr (.inl hx))).trans
    (h3.kept.mono fun _ hx => .inr (.inr hx))

/-- On the CPU's turn a due reset is the step (R414 step 1). -/
theorem step_reset {s : State} (h : CpuTurn s) (hp : s.resetPending = true) : step s = .next s.resetSequence := by
  obtain ⟨ha, hr, hh⟩ := h
  simp [step, State.machineStep, State.cpuStep, ha, hr, hh, hp]

/-! ### Effective addresses (R141 to R145) -/

theorem wrAddr_eq_ofNat (w : Word) (r : Reg) : wrAddr w r = BitVec.ofNat 16 (w.toNat + 2 * r.toNat) := by
  have two : (2 : Word).toNat = 2 := rfl
  apply BitVec.eq_of_toNat_eq
  simp only [wrAddr, BitVec.toNat_add, BitVec.toNat_mul, BitVec.toNat_setWidth, BitVec.toNat_ofNat, two]
  omega

theorem add_step_eq_ofNat (v : Word) (size : Size) :
    v + Size.step size = BitVec.ofNat 16 (v.toNat + if size = .byte then 1 else 2) := by
  cases size
  · exact (ofNat_add_toNat v 1).symm
  · exact (ofNat_add_toNat v 2).symm

/-! ### The statements -/

/-- Settles O47: a step is an event of another agent or the CPU's, and each keeps the invariant. -/
theorem everyStepKeepsTheInvariant : Obligations.EveryStepKeepsTheInvariant := fun _ _ h ht => h.machineStep ht

/-- Settles O7, mode by mode. -/
theorem effectiveAddresses : Obligations.EffectiveAddresses := by
  intro s r size reg
  refine ⟨?_, ?_, ?_, ?_, ?_⟩
  · rw [← wrAddr_eq_ofNat]; rfl
  · exact ⟨_, rfl, rfl, onlyDrew_readReg s r⟩
  · exact ⟨_, rfl, rfl, onlyDrew_fetch s⟩
  · rw [ofNat_add_toNat]
    exact ⟨_, rfl, rfl, (onlyDrew_fetch s).trans (onlyDrew_readReg _ r)⟩
  · rw [← add_step_eq_ofNat]
    exact ⟨_, rfl, rfl, (busWriteWord_stored ..).after (onlyDrew_readReg s r)⟩

/-- Settles O46: X by its frame alone, every other instruction with what it may change. -/
theorem instructionsKeepTheRest : Obligations.InstructionsKeepTheRest := by
  intro i s
  by_cases hx : ∃ sop, i = .x sop
  · obtain ⟨sop, rfl⟩ := hx
    obtain ⟨t, e, h⟩ := execX_executed sop s
    exact ⟨t, e, h.frame, fun no => absurd rfl (no sop)⟩
  · obtain ⟨t, e, h, listed⟩ := exec_completes i s fun sop hi => hx ⟨sop, hi⟩
    exact ⟨t, e, h.frame, fun _ => listed⟩

/-- Settles O56: the stores are the context switch's, beside the flags that the sequence then clears. -/
theorem resetSequenceLeaves : Obligations.ResetSequenceLeaves := by
  intro s turn due w
  have stored := resetBus_stored s
  have flags : ∀ k, (resetFlags s.resetBus.flags).getLsbD k = (s.bus.flags.getLsbD k && decide (2 ≤ k)) := fun k => by
    rw [getLsbD_resetFlags, stored.flags]
  refine ⟨s.resetSequence, s.resetContext.wp, s.resetContext.pc, s.resetContext.st, step_reset turn due, ?_⟩
  rw [resetSequence_core]
  refine ⟨rfl, rfl, fun hc hx => ?_, stored.besideFlags _ _, ?_, ?_, fun k hk => ?_, rfl, stored.kept, rfl⟩
  · rw [resetContext_at_boundary hc hx]; exact ⟨rfl, rfl, rfl⟩
  · exact (flags 0).trans (Bool.and_false _)
  · exact (flags 1).trans (Bool.and_false _)
  · exact (flags k).trans (by simp [hk])

/-- Settles O48. -/
theorem resetHasTheInvariant : Obligations.ResetHasTheInvariant where
  memory_wf := rfl
  cells_kept _ hc := nomatch hc
  pc_even := rfl
  wp_even := rfl
  flags_unstored := ⟨rfl, rfl, rfl⟩
  hold_state := rfl
  reset_due := nofun
  nmi_armed _ := rfl
  x_pending := nofun
  idle_alone := nofun
  cut_in_reset := nofun
  lines_rising := .nil

end Sys2Proof.Machine
end

section
/-! PROOFS of the statements of 20_memory.md: what is read after a word or a byte write, what the pins show of a
cycle, LDCR and STCR, the CRU input map, the step at a boundary, whose turn it is, and the other agents' events. -/

namespace Sys2Proof.Machine

/-! ### Reads where the platform answers (R62, R63, R70) -/

/-- Where the platform answers, a read gives the byte the location holds. -/
theorem busReadByte_of_answers {p : Platform} {b : Bus} {x : Word} (h : answers p x = true) :
    busReadByte p b x = storedByte p b x :=
  have h := of_decide_eq_true h
  busReadByte_eq_storedByte h.1 h.2

theorem answers_of_isWritable {p : Platform} {x : Word} (h : isWritable p x = true) : answers p x = true := by
  refine decide_eq_true ⟨fun e => ?_, fun e => ?_⟩ <;> simp [isWritable, e] at h

theorem answers_of_decrementer {p : Platform} {x : Word} (h : placeOf p x = .decrementer) : answers p x = true := by
  simp [answers, h]

theorem isWritable_of_decrementer {p : Platform} {x : Word} (h : placeOf p x = .decrementer) :
    isWritable p x = false := by
  simp [isWritable, h]

/-! ### Both bytes of a word held (R61, R64, R83) -/

/-- A word written at an address reads back: both its bytes are writable, or it is the decrementer. -/
def HoldsWord (p : Platform) (a : Word) : Prop :=
  (isWritable p (evenAddr a) = true ∧ isWritable p (evenAddr a + 1) = true) ∨ placeOf p (evenAddr a) = .decrementer

theorem placeOf_succ_decrementer {p : Platform} {a : Word} (h : placeOf p (evenAddr a) = .decrementer) :
    placeOf p (evenAddr a + 1) = .decrementer :=
  (placeOf_decrementer_of_inWord (by simp)).mpr h

theorem HoldsWord.answers {p : Platform} {a : Word} (h : HoldsWord p a) :
    answers p (evenAddr a) = true ∧ answers p (evenAddr a + 1) = true := by
  obtain ⟨he, ho⟩ | hd := h
  · exact ⟨answers_of_isWritable he, answers_of_isWritable ho⟩
  · exact ⟨answers_of_decrementer hd, answers_of_decrementer (placeOf_succ_decrementer hd)⟩

@[simp] theorem evenAddr_succ_bit0 (a : Word) : (evenAddr a + 1#16).getLsbD 0 = true := by
  have h := evenAddr_succ_toNat a
  simp only [BitVec.getLsbD, Nat.testBit_zero, decide_eq_true_eq]
  rw [show (evenAddr a + 1#16).toNat = _ from h]
  omega

/-- A word stored where it is held is there byte by byte, the most significant first. -/
theorem WordStored.bytes {p : Platform} {b b' : Bus} {a v : Word} (h : WordStored p b b' a v) (hw : HoldsWord p a) :
    storedByte p b' (evenAddr a) = highByte v ∧ storedByte p b' (evenAddr a + 1) = lowByte v := by
  obtain ⟨-, -, -, h⟩ := h
  by_cases hd : placeOf p (evenAddr a) = .decrementer
  · rw [if_pos hd] at h
    rw [storedByte_of_decrementer hd, storedByte_of_decrementer (placeOf_succ_decrementer hd), h.2.1]
    simp
  · rw [if_neg hd] at h
    obtain ⟨he, ho⟩ := hw.resolve_right hd
    obtain ⟨-, -, h⟩ := h
    exact ⟨by rw [h, if_pos ⟨rfl, he⟩], by rw [h, if_neg fun k => succ_ne_evenAddr a k.1, if_pos ⟨rfl, ho⟩]⟩

/-- A word reads back where it is held. -/
theorem busReadWord_busWriteWord {p : Platform} (b : Bus) {a x : Word} (v : Word) (hw : HoldsWord p a)
    (hx : evenAddr x = evenAddr a) : busReadWord p (busWriteWord p b a v) x = v := by
  obtain ⟨he, ho⟩ := (busWriteWord_stored p b a v).bytes hw
  obtain ⟨ae, ao⟩ := hw.answers
  rw [busReadWord, hx, busReadByte_of_answers ae, busReadByte_of_answers ao, he, ho, high_low]

/-- A bus change leaves what is read outside the addresses it touches. -/
theorem BusKeptOutside.busReadByte {p : Platform} {b b' : Bus} {u : Word → Prop} (h : BusKeptOutside p b b' u)
    {x : Word} (hx : ¬ u x) (ha : answers p x = true) : busReadByte p b' x = busReadByte p b x := by
  rw [busReadByte_of_answers ha, busReadByte_of_answers ha, h.1 x hx]

/-! ### What the pins show (R70 to R73) -/

/-- Input cycles performed are shown. -/
theorem observed_inputCycles (s : State) (cs : List BusEvent) :
    (s.inputCycles cs).observed = cs.map (pinCycle s.plat) ++ s.observed :=
  List.map_append

/-- The pins show of a word read its cycles with their addresses and IAQ (R71 to R73). -/
theorem map_pinCycle_readCycles (p : Platform) (iaq : Bool) (a : Word) :
    (readCycles p iaq a).map (pinCycle p) =
      if offChip p (evenAddr a) then [.memRead (evenAddr a + 1) iaq, .memRead (evenAddr a) iaq]
      else [.memRead (evenAddr a) iaq] := by
  rw [readCycles_eq, loadCycles]
  split <;> rfl

/-- The pins show of a word write its data off chip, and its even address alone on chip (R71, R72). -/
theorem map_pinCycle_storeCycles (p : Platform) (a v : Word) :
    (storeCycles p a v).map (pinCycle p) =
      if offChip p (evenAddr a) then
        [.memWrite (evenAddr a + 1) (some (lowByte v)), .memWrite (evenAddr a) (some (highByte v))]
      else [.memWrite (evenAddr a) none] := by
  unfold storeCycles
  by_cases h : offChip p (evenAddr a) = true
  · simp [h, pinCycle, pinData_eq]
  · simp [h, pinCycle]

@[simp] theorem busStoreWord_events (p : Platform) (b : Bus) (a v : Word) :
    (busStoreWord p b a v).events = b.events := by
  unfold busStoreWord
  split <;> simp [busPutWord]

theorem busWriteWord_events (p : Platform) (b : Bus) (a v : Word) :
    (busWriteWord p b a v).events = storeCycles p a v ++ b.events := by
  simp [busWriteWord, wordCycles_eq]

theorem observed_writeWord (s : State) (a v : Word) :
    (s.writeWord a v).observed = (storeCycles s.plat a v).map (pinCycle s.plat) ++ s.observed :=
  (congrArg _ (busWriteWord_events ..)).trans List.map_append

theorem offChip_of_decrementer {p : Platform} {a : Word} (h : placeOf p a = .decrementer) : offChip p a = false := by
  simp [offChip, h]

/-- A byte write is one cycle at the byte's address, its data shown off chip alone (R71, R72). -/
theorem observed_writeByte (s : State) (a : Word) (v : Byte) :
    (s.writeByte a v).observed = .memWrite a (if offChip s.plat a then some v else none) :: s.observed := by
  by_cases h : placeOf s.plat a = .decrementer
  · rw [offChip_of_decrementer h, State.observed, State.writeByte, busWriteByte_of_decrementer v h]
    rfl
  · rw [← pinData_eq, State.observed, State.writeByte, busWriteByte_of_ne v h]
    simp [pinCycle, State.observed]

/-- A cycle whose data the pins show is a write off chip (R72). -/
theorem offChip_of_pinCycle {p : Platform} {c : BusEvent} {x : Word} {v : Byte}
    (h : pinCycle p c = .memWrite x (some v)) : offChip p x = true := by
  cases c with
  | byteWrite a w =>
    simp only [pinCycle, pinData_eq, PinCycle.memWrite.injEq] at h
    obtain ⟨rfl, h⟩ := h
    by_contra hc
    simp [hc] at h
  | memRead a q => cases h
  | wordWrite a w => cases h
  | cruIn a => cases h
  | cruOut a w => cases h
  | extInstr code => cases h

/-! ### Byte writes (R65, R70) -/

/-- Nothing is put in memory where nothing can be written. -/
theorem busPutByte_of_not_isWritable {p : Platform} {a : Word} (b : Bus) (v : Byte) (h : isWritable p a = false) :
    busPutByte p b a v = b := by
  unfold isWritable at h
  unfold busPutByte
  split <;> simp_all

/-- Away from the decrementer a byte write changes no other byte. -/
theorem ByteStored.busReadByte_ne {p : Platform} {b b' : Bus} {a x : Word} {v : Byte} (h : ByteStored p b b' a v)
    (hd : placeOf p a ≠ .decrementer) (hx : x ≠ a) (ha : answers p x = true) :
    busReadByte p b' x = busReadByte p b x :=
  h.kept.busReadByte (fun k => k.elim hx fun e => hd e.1) ha

/-- A byte written to RAM is there. -/
theorem ByteStored.byte {p : Platform} {b b' : Bus} {a : Word} {v : Byte} (h : ByteStored p b b' a v)
    (hw : isWritable p a = true) : storedByte p b' a = v := by
  obtain ⟨-, -, h⟩ := h
  rw [if_neg fun e => by simp [isWritable_of_decrementer e] at hw] at h
  obtain ⟨-, -, -, h⟩ := h
  rw [h, if_pos ⟨rfl, hw⟩]

/-- A byte write to ROM, a device or nothing is its cycle alone (R70). -/
theorem writeByte_of_not_isWritable {s : State} {a : Word} (v : Byte) (hd : placeOf s.plat a ≠ .decrementer)
    (hw : isWritable s.plat a = false) :
    s.writeByte a v = { s with bus := { s.bus with events := .byteWrite a v :: s.bus.events } } := by
  rw [State.writeByte, busWriteByte_of_ne v hd, busPutByte_of_not_isWritable _ _ hw]
  rfl

/-- Settles O4: the store byte by byte, then each read of it, and the cycles of either on the pins. -/
theorem wordWriteThenRead : Obligations.WordWriteThenRead := by
  intro s a v t e held
  have stored := busWriteWord_stored s.plat s.bus a v
  refine ⟨fun hw x hx => busReadWord_busWriteWord s.bus v hw hx, fun hw => ?_, fun x hx ha => ?_, ?_, ?_⟩
  · obtain ⟨he, ho⟩ := stored.bytes hw
    obtain ⟨ae, ao⟩ := HoldsWord.answers hw
    exact ⟨(busReadByte_of_answers ae).trans he, (busReadByte_of_answers ao).trans ho⟩
  · exact stored.kept.busReadByte hx ha
  · exact (observed_inputCycles ..).trans (by rw [map_pinCycle_readCycles])
  · exact (observed_writeWord ..).trans (by rw [map_pinCycle_storeCycles])

/-- Settles O5: what is stored, place by place, and the one cycle on the pins. -/
theorem byteWriteThenRead : Obligations.ByteWriteThenRead := by
  intro s a v t
  have stored := busWriteByte_stored s.plat s.bus a v
  refine ⟨fun hw => ?_, fun hd x hx ha => stored.busReadByte_ne hd hx ha, fun hp => ?_,
    observed_inputCycles .., observed_writeByte .., fun x b hx => ?_⟩
  · exact (busReadByte_of_answers (answers_of_isWritable hw)).trans (stored.byte hw)
  · obtain hp | hp | hp := hp
    all_goals exact writeByte_of_not_isWritable v (by simp [hp]) (by simp [isWritable, hp])
  · obtain ⟨c, -, hc⟩ := List.mem_map.mp hx
    exact offChip_of_pinCycle hc

/-! ### LDCR and STCR (R281, R282) -/

theorem cruIsByte_of_le {c : BitVec 4} (h : 1 ≤ c.toNat ∧ c.toNat ≤ 8) : cruIsByte c = true := decide_eq_true h

theorem cruIsByte_of_gt {c : BitVec 4} (h : c.toNat = 0 ∨ 9 ≤ c.toNat) : cruIsByte c = false :=
  decide_eq_false (by omega)

theorem cruCount_eq (c : BitVec 4) : cruCount c = if c.toNat = 0 then 16 else c.toNat := by
  simp [cruCount, BitVec.toNat_eq]

theorem cruCount_le (c : BitVec 4) : cruCount c ≤ 16 := by
  have := c.isLt
  rw [cruCount_eq]
  split <;> omega

theorem cruCount_of_le {c : BitVec 4} (h : 1 ≤ c.toNat ∧ c.toNat ≤ 8) : cruCount c = c.toNat := by
  rw [cruCount_eq, if_neg (by omega)]

/-- Deriving an address leaves every byte but those of the register it increments. -/
theorem storedByte_ea (s : State) (op : Operand) (size : Size) {x : Word} (hx : ¬ Bumps op s.wp x) :
    storedByte s.plat (s.ea op size).2.bus x = storedByte s.plat s.bus x := by
  have kept : KeptOutside s (s.ea op size).2 (Bumps op s.wp) := .derived (.refl s _) fun _ h => h
  obtain ⟨-, -, -, bytes, -⟩ := kept
  exact bytes x hx

/-- What LDCR does with its operand (R79, R281): after the operand's address is derived, its read cycles noted and the
status set, the low bits of a word go out from WR12's base, and no byte changes but those of an incremented register. -/
theorem cruOutput_spec (s : State) (sop : Operand) (size : Size) {cs : List BusEvent}
    (hc : ∀ c ∈ cs, isInput c = true) (f : Word → Word) (v : Word) {n : Nat} (hn : n ≤ 16) :
    let q := s.ea sop size
    let r := ((q.2.inputCycles cs).mapSt f).readReg 12
    let t := cruOutBits (cruBase r.1) v 0 n r.2
    OnlyDrew q.2.bus r.2.bus ∧
      CruFieldWritten r.2.bus t.bus ((busReadWord s.plat q.2.tickDraws.bus (wrAddr s.wp 12)).toNat / 2) n
        (fun i => v.getLsbD i) ∧
      t.st = f s.st ∧ t = { s with pc := q.2.pc, st := t.st, bus := t.bus } ∧
      ∀ x, ¬ Bumps sop s.wp x → storedByte s.plat t.bus x = storedByte s.plat s.bus x := by
  intro q r t
  have drew : OnlyDrew q.2.bus r.2.bus := (OnlyDrew.of q.2.bus _ hc).trans (onlyDrew_readReg _ 12)
  have written := cruOutBits_written (cruBase r.1) v n 0 r.2 hn
  have core : t = { r.2 with bus := t.bus } := cruOutBits_core ..
  have base : (cruBase r.1).toNat = (busReadWord s.plat q.2.tickDraws.bus (wrAddr s.wp 12)).toNat / 2 := by
    rw [cruBase_toNat, ← ea_plat s sop size, ← ea_wp s sop size]
    rfl
  have status : t.st = f s.st := by
    rw [core, ← ea_st s sop size]
    rfl
  have kept : ∀ x, storedByte s.plat t.bus x = storedByte s.plat q.2.bus x := fun x => by
    obtain ⟨hm, -, hd, -⟩ := written
    rw [← drew.storedByte]
    simp only [storedByte, t, hm, hd]
  have moved : Moved s t s.wp := .cruOutBits _ _ _ _ (((((Moved.refl s).ea sop size).input cs).mapSt f).readReg 12)
  have pc : t.pc = q.2.pc := by
    rw [core]
    rfl
  simp only [Nat.add_zero, Nat.zero_add, base] at written
  exact ⟨drew, written, status, pc ▸ moved.frame, fun x hx => (kept x).trans (storedByte_ea s sop size hx)⟩

theorem getLsbD_byteAsWord (v : Byte) (i : Nat) : (v.setWidth 16 : Word).getLsbD i = v.getLsbD i := by
  rw [BitVec.getLsbD_setWidth]
  by_cases hi : i < 16
  · simp [hi]
  · simp [hi, BitVec.getLsbD_of_ge v i (by omega)]

/-- LDCR of a byte operand (R281). -/
theorem exec_ldcr_byte {c : BitVec 4} (hc : cruIsByte c = true) (sop : Operand) (s : State) :
    let q := s.ea sop .byte
    let v := busReadByte s.plat q.2.bus q.1
    let r := ((q.2.inputCycles [.memRead q.1 false]).mapSt (stByte v)).readReg 12
    exec (.ldcr sop c) s = .next (cruOutBits (cruBase r.1) (v.setWidth 16) 0 (cruCount c) r.2) := by
  intro q v r
  show execLdcr sop c s = _
  rw [execLdcr, if_pos hc]
  simp only [State.readByte_fst, State.readByte_snd, ea_plat]
  rfl

/-- LDCR of a word operand (R281). -/
theorem exec_ldcr_word {c : BitVec 4} (hc : cruIsByte c = false) (sop : Operand) (s : State) :
    let q := s.ea sop .word
    let v := busReadWord s.plat q.2.bus q.1
    let r := ((q.2.inputCycles (readCycles s.plat false q.1)).mapSt (cmp0 v)).readReg 12
    exec (.ldcr sop c) s = .next (cruOutBits (cruBase r.1) v 0 (cruCount c) r.2) := by
  intro q v r
  show execLdcr sop c s = _
  rw [execLdcr, if_neg (by simp [hc])]
  simp only [State.readWord_fst, State.readWord_snd, ea_plat]
  rfl

/-- Settles O28: a byte operand and a word operand, each through what the output cycles do. -/
theorem loadCommunicationRegister : Obligations.LoadCommunicationRegister := by
  intro sop c s
  constructor
  · intro hc q v base
    obtain ⟨drew, written, status, core, kept⟩ := cruOutput_spec s sop .byte (cs := [.memRead q.1 false])
      (by simp [isInput]) (stByte v) (v.setWidth 16) (cruCount_le c)
    simp only [getLsbD_byteAsWord] at written
    rw [← cruCount_of_le hc]
    refine ⟨_, _, exec_ldcr_byte (cruIsByte_of_le hc) sop s, drew, written, ?_, ?_, ?_, core, kept⟩
    all_goals rw [status]
    · exact stByte_compared v s.st
    · exact stByte_parity v s.st
    · exact stByte_kept v (by decide) (.refl _ _)
  · intro hc q v base
    obtain ⟨drew, written, status, core, kept⟩ := cruOutput_spec s sop .word (isInput_readCycles s.plat false q.1)
      (cmp0 v) v (cruCount_le c)
    rw [← cruCount_eq]
    refine ⟨_, _, exec_ldcr_word (cruIsByte_of_gt hc) sop s, drew, written, ?_, ?_, core, kept⟩
    all_goals rw [status]
    · exact cmp0_compared v s.st
    · exact cmp0_kept v (by decide) (by decide) (by decide) (.refl _ _)

/-- A word written after input cycles is stored. -/
theorem writeWord_stored {b : Bus} {t : State} (h : OnlyDrew b t.bus) (a v : Word) :
    WordStored t.plat b (t.writeWord a v).bus a v := (busWriteWord_stored ..).after h

/-- A byte written after input cycles is stored. -/
theorem writeByte_stored {b : Bus} {t : State} (h : OnlyDrew b t.bus) (a : Word) (v : Byte) :
    ByteStored t.plat b (t.writeByte a v).bus a v := (busWriteByte_stored ..).after h

/-- Input cycles of the CRU leave everything else. -/
theorem KeptOutside.cruInBits {s t : State} {u : Word → Prop} (h : KeptOutside s t u) (base : CruAddr) (i k : Nat) :
    KeptOutside s (cruInBits base i k t).2 u := by
  have drew := onlyDrew_cruInBits base i k t
  rw [cruInBits_snd] at drew ⊢
  exact h.trans (.of t.pc t.st rfl rfl drew.kept)

/-- What STCR reads after its operand's address is derived: the input bits from WR12's base, 0 beyond the count;
nothing is stored (R78, R282). -/
theorem cruInput_spec (s : State) (dop : Operand) (size : Size) (n : Nat) :
    let q := s.ea dop size
    let r := q.2.readReg 12
    let v := cruInBits (cruBase r.1) 0 n r.2
    let base := (busReadWord s.plat q.2.bus (wrAddr s.wp 12)).toNat / 2
    OnlyDrew q.2.bus v.2.bus ∧ KeptOutside s v.2 (Bumps dop s.wp) ∧ v.2.st = s.st ∧
      ∀ i, i < 16 → v.1.getLsbD i = (decide (i < n) &&
        { q.2 with bus := { q.2.bus with draws := q.2.bus.draws + 1 + i } }.cruBit (BitVec.ofNat 15 (base + i))) := by
  intro q r v base
  have hb : (cruBase r.1).toNat = base := by
    rw [cruBase_toNat, State.readReg_fst, ea_plat, ea_wp]
  refine ⟨(onlyDrew_readReg ..).trans (onlyDrew_cruInBits ..),
    .cruInBits (.read (.derived (.refl _ _) fun _ hx => hx)) _ _ _, ?_, fun i hi => ?_⟩
  · rw [← ea_st s dop size]
    show (cruInBits (cruBase r.1) 0 n r.2).2.st = _
    rw [cruInBits_snd]
    rfl
  · have bit := getLsbD_cruInBits (cruBase r.1) n 0 r.2 i hi
    simp only [Nat.zero_le, true_and, Nat.zero_add, Nat.sub_zero, hb] at bit
    exact bit

/-- STCR of a byte (R282). -/
theorem exec_stcr_byte {c : BitVec 4} (hc : cruIsByte c = true) (dop : Operand) (s : State) :
    let q := s.ea dop .byte
    let r := q.2.readReg 12
    let v := cruInBits (cruBase r.1) 0 (cruCount c) r.2
    exec (.stcr dop c) s = .next ((v.2.writeByte q.1 (lowByte v.1)).mapSt (stByte (lowByte v.1))) := if_pos hc

/-- STCR of a word (R282). -/
theorem exec_stcr_word {c : BitVec 4} (hc : cruIsByte c = false) (dop : Operand) (s : State) :
    let q := s.ea dop .word
    let r := q.2.readReg 12
    let v := cruInBits (cruBase r.1) 0 (cruCount c) r.2
    exec (.stcr dop c) s = .next ((v.2.writeWord q.1 v.1).mapSt (cmp0 v.1)) := if_neg (by simp [hc])

theorem getLsbD_lowByte (v : Word) {i : Nat} (hi : i < 8) : (lowByte v).getLsbD i = v.getLsbD i := by
  simp [lowByte, hi]

/-- Settles O29: a byte and a word, each through what the input cycles give and the store after them. -/
theorem storeCommunicationRegister : Obligations.StoreCommunicationRegister := by
  intro dop c s
  constructor
  · intro hc q base
    obtain ⟨drew, kept, status, bits⟩ := cruInput_spec s dop .byte (cruCount c)
    rw [← cruCount_of_le hc]
    refine ⟨_, _, exec_stcr_byte (cruIsByte_of_le hc) dop s, ?_,
      fun i hi => (getLsbD_lowByte _ hi).trans (bits i (by omega)), stByte_compared .., stByte_parity .., ?_, ?_⟩
    · exact kept.plat ▸ writeByte_stored drew q.1 _
    · exact stByte_kept _ (by decide) (congrArg (· &&& ~~~0xE400) status)
    · refine .status _ (.storeByte (kept.mono fun _ hx => .inl hx) fun x hx => .inr ?_)
      rwa [kept.plat] at hx
  · intro hc q base
    obtain ⟨drew, kept, status, bits⟩ := cruInput_spec s dop .word (cruCount c)
    rw [← cruCount_eq]
    refine ⟨_, _, exec_stcr_word (cruIsByte_of_gt hc) dop s, ?_, bits, cmp0_compared .., ?_, ?_⟩
    · exact kept.plat ▸ writeWord_stored drew q.1 _
    · exact cmp0_kept _ (by decide) (by decide) (by decide) (congrArg (· &&& ~~~0xE000) status)
    · exact .status _ (.store (kept.mono fun _ hx => .inl hx) fun _ hx => .inr hx)

/-! ### CRU input bits (R78, R456) -/

/-- An input address of the flag register reads the flag. -/
theorem cruBit_flag (s : State) {a : CruAddr} {k : Nat} (hk : k < 16) (ha : a.toNat = 0x0F70 + k) :
    s.cruBit a = s.flagRead k := by
  rw [State.cruBit, if_pos (by omega), ha, Nat.add_sub_cancel_left]

theorem cruBit_midFlag (s : State) {a : CruAddr} (ha : a.toNat = 0x0FED) : s.cruBit a = s.bus.midFlag := by
  rw [State.cruBit, if_neg (by omega), if_pos ha]

/-- Off chip an input address reads the level its line is driven at. -/
theorem cruBit_line (s : State) {a : CruAddr} {b : Bool} (hf : a.toNat < 0x0F70 ∨ 0x0F7F < a.toNat)
    (hm : a.toNat ≠ 0x0FED) (hl : cruLine s.cruLines a.toNat = some b) : s.cruBit a = b := by
  rw [State.cruBit, if_neg (by omega), if_neg hm, hl, Option.getD_some]

/-- A flag with storage reads its storage. -/
theorem flagRead_stored (s : State) {k : Nat} (h2 : k ≠ 2) (h3 : k ≠ 3) (h4 : k ≠ 4) :
    s.flagRead k = s.bus.flags.getLsbD k := by
  simp [State.flagRead, h2, h3, h4]

/-- Settles O31, address by address. -/
theorem cruInputMap : Obligations.CruInputMap := fun s _ =>
  ⟨fun _ hk ha h2 h3 h4 => (cruBit_flag s hk ha).trans (flagRead_stored s h2 h3 h4),
    fun ha => cruBit_flag s (k := 2) (by decide) ha, fun ha => cruBit_flag s (k := 3) (by decide) ha,
    fun ha => cruBit_flag s (k := 4) (by decide) ha, fun ha => cruBit_midFlag s ha,
    fun _ hf hm hl => cruBit_line s hf hm hl⟩

/-! ### The step at a boundary (R101, R414, R490) -/

/-- The two bytes of a word decode to the word's instruction, and nothing is left over. -/
theorem decodeBytes_word {p : Platform} {b : Bus} {a : Word} {i : Instr}
    (h : decodeBytes [busReadByte p b (evenAddr a), busReadByte p b (evenAddr a + 1)] = .ok (i, [])) :
    decode (busReadWord p b a) = i :=
  congrArg Prod.fst (Except.ok.inj h)

/-- With nothing prefetched the opcode's fetch is the word at PC, its read cycles noted with IAQ (R101, R73). -/
theorem fetchOpcode_of_none {s : State} (h : s.prefetch = none) :
    s.fetchOpcode =
      (busReadWord s.plat s.bus s.pc,
        { s with
          pc := s.pc + 2
          bus := { s.bus with draws := s.bus.draws + 1, events := loadCycles s.plat true s.pc ++ s.bus.events } }) := by
  have fetched : s.fetchOpcode = s.fetchAs true := by rw [State.fetchOpcode, h]
  rw [fetched, ← readCycles_eq]
  rfl

/-- An instruction other than X that leaves the next opcode's word alone leaves nothing prefetched (R490). -/
theorem notePrefetch_of_same {i : Instr} {u t : State} (hx : t.xPending = none) (hi : ∀ sop, i ≠ .x sop)
    (h : storedWord u.plat u.bus t.pc = storedWord t.plat t.bus t.pc) :
    State.notePrefetch i u t = { t with prefetch := none } := by
  have base : u.prefetchBase i = if isBranch i then none else some u.bus := by
    cases i with
    | x sop => exact absurd rfl (hi sop)
    | _ => rfl
  rw [State.notePrefetch, hx, base]
  cases isBranch i
  · simp [h]
  · rfl

/-- Settles O50: the opcode's fetch, then the instruction, which completes. -/
theorem stepRunsTheDecodedInstruction : Obligations.StepRunsTheDecodedInstruction := by
  intro s i boundary nothing awake fresh decoded u
  obtain ⟨t, runs, executed⟩ := exec_executed i u
  have stepped : step s = .next (State.notePrefetch i u t) := by
    rw [step_runs boundary nothing awake, State.runInstruction,
      fetchOpcode_of_none (s := { s with inhibit := .none }) fresh]
    exact (congrArg (State.run u) (decodeBytes_word decoded)).trans (run_of_exec runs)
  have plat : t.plat = s.plat := by rw [executed.frame]
  refine ⟨t, runs, stepped, fun hx hi same => ?_⟩
  rw [stepped, notePrefetch_of_same hx hi (by rw [plat]; exact same.symm)]

/-! ### Idle, Hold and Reset, and whose turn it is (R86, R392, R480, R506) -/

theorem step_of_agenda_nil {s : State} (h : s.agenda = []) : step s = s.cpuStep := by
  rw [step, State.machineStep, h]

theorem step_of_agenda_cpu {s : State} {rest : List EnvEvent} (h : s.agenda = .cpu :: rest) :
    step s = { s with agenda := rest }.cpuStep := by
  rw [step, State.machineStep, h]

theorem step_of_agenda_event {s : State} {e : EnvEvent} {rest : List EnvEvent} (h : s.agenda = e :: rest)
    (hc : e ≠ .cpu) (hr : ∀ k, e ≠ .resetWithin k) : step s = .next ({ s with agenda := rest }.envEvent e) := by
  rw [step, State.machineStep, h]
  cases e with
  | cpu => exact absurd rfl hc
  | resetWithin k => exact absurd rfl (hr k)
  | _ => rfl

/-- Held or in reset the CPU takes no step. -/
theorem cpuStep_held {s : State} (h : s.resetActive = true ∨ s.holdState = true) : s.cpuStep = .next s :=
  if_pos (Bool.or_eq_true_iff.mpr h)

theorem proceed_idle {s : State} (h : s.idle = true) :
    s.proceed = .next ({ s with inhibit := .none }.extInstr 0b010) := if_pos h

/-- Settles O57: the agenda's head decides, then the CPU's state. -/
theorem idleHoldAndResetStates : Obligations.IdleHoldAndResetStates := by
  refine ⟨fun s boundary nothing asleep => ?_, fun s ha hs => (step_of_agenda_nil ha).trans (cpuStep_held hs),
    fun s => step_of_agenda_nil, fun s rest => step_of_agenda_cpu, fun s e rest => step_of_agenda_event⟩
  rw [step_boundary boundary, nothing]
  exact proceed_idle asleep

/-! ### The other agents (R81, R86, R424 to R426, R480, R482, R483, R496) -/

/-- INT4/EC in timer mode: a falling edge sets LATCH4 (R425, R426). -/
theorem int4Level_timer {s : State} (high : Bool) (h : s.bus.flags.getLsbD 0 = false) :
    s.int4Level high =
      { s with pins := { s.pins with int4 := high }, latch4 := s.latch4 || (s.pins.int4 && !high) } := by
  simp only [State.int4Level, h]
  cases s.pins.int4 && !high <;> simp

/-- No falling edge of INT4/EC is no event but the pin's level. -/
theorem int4Level_no_edge {s : State} {high : Bool} (h : s.pins.int4 = false ∨ high = true) :
    s.int4Level high = { s with pins := { s.pins with int4 := high } } := by
  have edge : (s.pins.int4 && !high) = false := by
    obtain h | h := h <;> simp [h]
  simp [State.int4Level, edge]

/-- The requests latched in one state are latched in another. -/
structure LatchesKept (s t : State) : Prop where
  latch1 : s.latch1 = true → t.latch1 = true
  latch3 : s.latch3 = true → t.latch3 = true
  latch4 : s.latch4 = true → t.latch4 = true

theorem latchesKept_decTick (s : State) : LatchesKept s s.decTick := by
  unfold State.decTick
  split
  · split
    · exact ⟨id, fun _ => rfl, id⟩
    · exact ⟨id, id, id⟩
  · exact ⟨id, id, id⟩

theorem latchesKept_int4Level (s : State) (high : Bool) : LatchesKept s (s.int4Level high) := by
  unfold State.int4Level
  dsimp only
  split
  · split
    · obtain ⟨h1, h3, h4⟩ := latchesKept_decTick { s with pins := { s.pins with int4 := high } }
      exact ⟨h1, h3, h4⟩
    · exact ⟨id, id, fun _ => rfl⟩
  · exact ⟨id, id, id⟩

/-- No event of another agent clears a request latch. -/
theorem latchesKept_envEvent (s : State) (e : EnvEvent) : LatchesKept s (s.envEvent e) := by
  have falls : LatchesKept s s.resetFalls := by
    unfold State.resetFalls
    split <;> exact ⟨id, id, id⟩
  cases e with
  | cpu | nmi high | hold high | ready high | cruLine a level => exact ⟨id, id, id⟩
  | int1 high => exact ⟨fun h => Bool.or_eq_true_iff.mpr (.inl h), id, id⟩
  | int4 high => exact latchesKept_int4Level s high
  | resetWithin k => exact falls
  | reset high =>
    cases high with
    | false => exact falls
    | true =>
      show LatchesKept s s.resetRises
      unfold State.resetRises
      split <;> exact ⟨id, id, id⟩
  | timerClock =>
    unfold State.envEvent
    dsimp only
    split
    · exact ⟨id, id, id⟩
    · exact latchesKept_decTick s
  | dmaWrite a b =>
    show LatchesKept s (s.dmaWrite a b)
    unfold State.dmaWrite
    split <;> exact ⟨id, id, id⟩

theorem cruLine_of_lt {ls : List (Nat × Bool)} {a : Nat} (h : ∀ y ∈ ls.map Prod.fst, a < y) : cruLine ls a = none := by
  induction ls with
  | nil => rfl
  | cons c ls ih =>
    obtain ⟨k, b⟩ := c
    obtain ⟨hk, hls⟩ := List.forall_mem_cons.mp h
    rw [cruLine, if_neg (Nat.ne_of_gt hk), ih hls]

/-- A line put before lines of which none is at its address, or not put: it reads as it is driven. -/
theorem cruLine_elim (a : Nat) (level : Option Bool) {ls : List (Nat × Bool)} (h : cruLine ls a = none) (x : Nat) :
    cruLine (level.elim ls fun b => (a, b) :: ls) x = if x = a then level else cruLine ls x := by
  by_cases hx : x = a
  · subst hx
    cases level <;> simp [cruLine, h]
  · cases level <;> simp [cruLine, hx, Ne.symm hx]

theorem putLine_cons (a : Nat) (level : Option Bool) (k : Nat) (c : Bool) (ls : List (Nat × Bool)) :
    putLine a level ((k, c) :: ls) =
      if k = a then level.elim ls fun b => (a, b) :: ls
      else if a < k then level.elim ((k, c) :: ls) fun b => (a, b) :: (k, c) :: ls
      else (k, c) :: putLine a level ls := by
  cases level <;> rfl

/-- Among rising addresses a line put in its place reads its level, and every other line reads as before (R81). -/
theorem cruLine_putLine (a : Nat) (level : Option Bool) {ls : List (Nat × Bool)}
    (h : (ls.map Prod.fst).Pairwise (· < ·)) (x : Nat) :
    cruLine (putLine a level ls) x = if x = a then level else cruLine ls x := by
  induction ls with
  | nil => cases level <;> simp [putLine, cruLine, eq_comm]
  | cons d ls ih =>
    obtain ⟨k, c⟩ := d
    obtain ⟨hd, hls⟩ := List.pairwise_cons.mp h
    rw [putLine_cons]
    obtain rfl | hk := eq_or_ne k a
    · rw [if_pos rfl, cruLine_elim k level (cruLine_of_lt hd)]
      by_cases hx : x = k
      · simp [hx]
      · simp [cruLine, hx, Ne.symm hx]
    rw [if_neg hk]
    by_cases hlt : a < k
    · rw [if_pos hlt]
      refine cruLine_elim a level (cruLine_of_lt fun y hy => ?_) x
      obtain rfl | hy := List.mem_cons.mp hy
      · exact hlt
      · exact hlt.trans (hd y hy)
    · rw [if_neg hlt, cruLine, cruLine, ih hls]
      by_cases hx : k = x
      · simp [← hx, hk]
      · simp [hx]

/-- DMA changes memory alone. -/
theorem dmaWrite_core (s : State) (a : Word) (b : Byte) :
    s.dmaWrite a b = { s with bus := { s.bus with mem := (s.dmaWrite a b).bus.mem } } := by
  unfold State.dmaWrite
  split <;> rfl

/-- A DMA write is a byte put in external RAM in the Hold state, and nothing elsewhere (R86). -/
theorem storedByte_dmaWrite (s : State) (a : Word) (b : Byte) (x : Word) :
    storedByte s.plat (s.dmaWrite a b).bus x =
      if s.holdState = true ∧ placeOf s.plat a = .ext .ram ∧ x = a then b else storedByte s.plat s.bus x := by
  unfold State.dmaWrite
  by_cases h : s.holdState = true ∧ placeOf s.plat a = .ext .ram
  · have put : { s.bus with mem := memSet s.bus.mem a.toNat b } = busPutByte s.plat s.bus a b := by
      rw [busPutByte, h.2]
    have writable : x = a ∧ isWritable s.plat x = true ↔ x = a :=
      ⟨And.left, fun e => ⟨e, by simp [isWritable, e, h.2]⟩⟩
    rw [if_pos h]
    show storedByte s.plat { s.bus with mem := memSet s.bus.mem a.toNat b } x = _
    rw [put, storedByte_busPutByte]
    simp only [writable, h, true_and]
  · rw [if_neg h, if_neg fun k => h ⟨k.1, k.2.1⟩]

/-- Settles O59, event by event. -/
theorem environmentEvents : Obligations.EnvironmentEvents := by
  refine ⟨fun s high => ⟨rfl, rfl, int4Level_timer high, int4Level_no_edge⟩,
    fun s e => ?_, fun s => ⟨fun h => ?_, fun h => ?_, fun h => ?_, fun h => ?_⟩,
    fun s high => ⟨rfl, rfl⟩, fun s a level => ⟨rfl, cruLine_putLine _ _⟩,
    fun s a b => ⟨dmaWrite_core s a b, storedByte_dmaWrite s a b⟩⟩
  · obtain ⟨h1, h3, h4⟩ := latchesKept_envEvent s e
    exact ⟨h1, h3, h4⟩
  · exact if_neg (by simp [h])
  · exact if_pos h
  · exact if_pos h
  · exact if_neg (by simp [h])

end Sys2Proof.Machine
end

section
/-! PROOFS of the statements of 30_encoding.md: the fields of an encoded word, decode and encode inverse to each
other, the opcode table and the MID ranges as one division of the words, and PC past the extension words. -/

namespace Sys2Proof

/-! ### Fields as numbers (R103 to R116) -/

theorem toNat_append_eq {n k : Nat} (x : BitVec n) (y : BitVec k) :
    (x ++ y).toNat = x.toNat * 2 ^ k + y.toNat := by
  rw [BitVec.toNat_append, ← Nat.shiftLeft_add_eq_or_of_lt y.isLt, Nat.shiftLeft_eq]

theorem toNat_field {n : Nat} (w : BitVec n) (i m : Nat) :
    (w.extractLsb' i m).toNat = w.toNat / 2 ^ i % 2 ^ m := by
  rw [BitVec.extractLsb'_toNat, Nat.shiftRight_eq_div_pow]

/-- A field of the leading bits lies as far up as there are bits below them. -/
theorem field_append {n k : Nat} (op : BitVec n) (rest : BitVec k) (i m : Nat) :
    (op ++ rest).extractLsb' (i + k) m = op.extractLsb' i m :=
  (BitVec.extractLsb'_append_eq_of_le (Nat.le_add_left k i)).trans (by rw [Nat.add_sub_cancel])

/-- The bits below the leading ones. -/
theorem low_append {n k : Nat} (x : BitVec n) (y : BitVec k) : (x ++ y).extractLsb' 0 k = y :=
  (BitVec.extractLsb'_append_eq_of_add_le (Nat.zero_add k).le).trans BitVec.extractLsb'_eq_self

/-- The bits between. -/
theorem middle_append {n k l : Nat} (x : BitVec n) (y : BitVec k) (z : BitVec l) :
    (x ++ y ++ z).extractLsb' l k = y := by
  have h := field_append (x ++ y) z 0 k
  rw [Nat.zero_add] at h
  exact h.trans (low_append x y)

/-! ### Operands (R117) -/

/-- A well-formed operand is the one its T and register fields select. -/
theorem operandOf_bits {o : Operand} (h : o.wellFormed = true) : operandOf o.tBits o.rBits = o := by
  cases o with
  | reg r | ind r | autoInc r | sym => rfl
  | idx r => exact if_neg (show ¬r = 0 by simpa [Operand.wellFormed] using h)

@[simp] theorem operandOf_wellFormed (t : BitVec 2) (r : Reg) : (operandOf t r).wellFormed = true := by
  unfold operandOf
  split
  case h_3 => split <;> simp_all [Operand.wellFormed]
  all_goals rfl

@[simp] theorem operandOf_tBits (t : BitVec 2) (r : Reg) : (operandOf t r).tBits = t := by
  have ht := t.isLt
  apply BitVec.eq_of_toNat_eq
  unfold operandOf
  split
  case h_1 h | h_2 h => exact h.symm
  case h_3 h => rw [h]; split <;> rfl
  case h_4 =>
    simp only [imp_false] at *
    show 3 = t.toNat
    omega

@[simp] theorem operandOf_rBits (t : BitVec 2) (r : Reg) : (operandOf t r).rBits = r := by
  unfold operandOf
  split
  case h_3 =>
    split
    · exact Eq.symm ‹r = 0›
    · rfl
  all_goals rfl

/-- The source operand of a word that ends in the fields of a well-formed operand. -/
theorem srcOf_append (x : BitVec 10) {o : Operand} (h : o.wellFormed = true) :
    srcOf (x ++ o.tBits ++ o.rBits) = o := by
  have ts : tsField (x ++ o.tBits ++ o.rBits) = o.tBits := middle_append ..
  have s : sField (x ++ o.tBits ++ o.rBits) = o.rBits := low_append ..
  rw [srcOf, ts, s, operandOf_bits h]

/-! ### The fields of an encoded word, by format: the fixed bits lie above the operands -/

theorem field_encDual (op : BitVec 4) (sop dop : Operand) (i m : Nat) :
    (encDual op sop dop).extractLsb' (i + 12) m = op.extractLsb' i m :=
  (field_append _ sop.rBits (i + 8) m).trans ((field_append _ sop.tBits (i + 6) m).trans
    ((field_append _ dop.rBits (i + 2) m).trans (field_append op dop.tBits i m)))

theorem field_encDualW (op : BitVec 6) (sop : Operand) (d : BitVec 4) (i m : Nat) :
    (encDualW op sop d).extractLsb' (i + 10) m = op.extractLsb' i m :=
  (field_append _ sop.rBits (i + 6) m).trans ((field_append _ sop.tBits (i + 4) m).trans (field_append op d i m))

theorem field_encSingle (op : BitVec 10) (sop : Operand) (i m : Nat) :
    (encSingle op sop).extractLsb' (i + 6) m = op.extractLsb' i m :=
  (field_append _ sop.rBits (i + 2) m).trans (field_append op sop.tBits i m)

theorem field_encDisp (op d : BitVec 8) (i m : Nat) :
    (encDisp op d).extractLsb' (i + 8) m = op.extractLsb' i m := field_append op d i m

theorem field_encShift (op : BitVec 8) (c : BitVec 4) (r : Reg) (i m : Nat) :
    (encShift op c r).extractLsb' (i + 8) m = op.extractLsb' i m :=
  (field_append _ r (i + 4) m).trans (field_append op c i m)

theorem field_encReg (op : BitVec 12) (r : Reg) (i m : Nat) :
    (encReg op r).extractLsb' (i + 4) m = op.extractLsb' i m := field_append op r i m

section
variable {sop dop : Operand}

theorem srcOf_encDual (op : BitVec 4) (h : sop.wellFormed = true) : srcOf (encDual op sop dop) = sop :=
  srcOf_append _ h

theorem dstOf_encDual (op : BitVec 4) (h : dop.wellFormed = true) : dstOf (encDual op sop dop) = dop := by
  have td : tdField (encDual op sop dop) = dop.tBits :=
    (field_append _ sop.rBits 6 2).trans ((field_append _ sop.tBits 4 2).trans (middle_append op dop.tBits dop.rBits))
  have d : dField (encDual op sop dop) = dop.rBits :=
    (field_append _ sop.rBits 2 4).trans (middle_append (op ++ dop.tBits) dop.rBits sop.tBits)
  rw [dstOf, td, d, operandOf_bits h]

theorem srcOf_encDualW (op : BitVec 6) (d : BitVec 4) (h : sop.wellFormed = true) :
    srcOf (encDualW op sop d) = sop := srcOf_append _ h

theorem dField_encDualW (op : BitVec 6) (d : BitVec 4) : dField (encDualW op sop d) = d :=
  (field_append _ sop.rBits 2 4).trans (middle_append op d sop.tBits)

theorem srcOf_encSingle (op : BitVec 10) (h : sop.wellFormed = true) : srcOf (encSingle op sop) = sop :=
  srcOf_append _ h

theorem dispField_encDisp (op d : BitVec 8) : dispField (encDisp op d) = d := low_append op d

theorem sField_encShift (op : BitVec 8) (c : BitVec 4) (r : Reg) : sField (encShift op c r) = r :=
  low_append (op ++ c) r

theorem shiftField_encShift (op : BitVec 8) (c : BitVec 4) (r : Reg) : shiftField (encShift op c r) = c :=
  middle_append op c r

theorem sField_encReg (op : BitVec 12) (r : Reg) : sField (encReg op r) = r := low_append op r

end

/-! ### Encoding a decoding -/

theorem toNat_encDual (op : BitVec 4) (sop dop : Operand) :
    (encDual op sop dop).toNat = op.toNat * 4096 + dop.tBits.toNat * 1024 + dop.rBits.toNat * 64 +
      sop.tBits.toNat * 16 + sop.rBits.toNat := by
  simp only [encDual, toNat_append_eq]; omega

theorem toNat_encDualW (op : BitVec 6) (sop : Operand) (d : BitVec 4) :
    (encDualW op sop d).toNat = op.toNat * 1024 + d.toNat * 64 + sop.tBits.toNat * 16 + sop.rBits.toNat := by
  simp only [encDualW, toNat_append_eq]; omega

theorem toNat_encSingle (op : BitVec 10) (sop : Operand) :
    (encSingle op sop).toNat = op.toNat * 64 + sop.tBits.toNat * 16 + sop.rBits.toNat := by
  simp only [encSingle, toNat_append_eq]; omega

theorem toNat_encShift (op : BitVec 8) (c : BitVec 4) (r : Reg) :
    (encShift op c r).toNat = op.toNat * 256 + c.toNat * 16 + r.toNat := by
  simp only [encShift, toNat_append_eq]; omega

/-- An opcode word stands for a term: the term encodes to it and is well formed. -/
structure StandsFor (w : Word) (i : Instr) : Prop where
  encodes : encode i = w
  wellFormed : i.wellFormed = true

section
variable {w : Word} {i : Instr}

/-- A word with the leading bits of a row of format DUAL stands for its instruction on the word's own operands. -/
theorem StandsFor.dual {op : BitVec 4} (he : encode i = encDual op (srcOf w) (dstOf w))
    (hw : i.wellFormed = ((srcOf w).wellFormed && (dstOf w).wellFormed)) (h : w.toNat / 4096 = op.toNat) :
    StandsFor w i where
  encodes := by
    apply BitVec.eq_of_toNat_eq
    rw [he, toNat_encDual]
    simp only [srcOf, dstOf, tsField, sField, tdField, dField, operandOf_tBits, operandOf_rBits, toNat_field]
    omega
  wellFormed := by rw [hw]; simp [srcOf, dstOf]

theorem StandsFor.dualW {op : BitVec 6} (he : encode i = encDualW op (srcOf w) (dField w))
    (hw : i.wellFormed = (srcOf w).wellFormed) (h : w.toNat / 1024 = op.toNat) : StandsFor w i where
  encodes := by
    apply BitVec.eq_of_toNat_eq
    rw [he, toNat_encDualW]
    simp only [srcOf, tsField, sField, dField, operandOf_tBits, operandOf_rBits, toNat_field]
    omega
  wellFormed := by rw [hw]; simp [srcOf]

theorem StandsFor.single {op : BitVec 10} (he : encode i = encSingle op (srcOf w))
    (hw : i.wellFormed = (srcOf w).wellFormed) (h : w.toNat / 64 = op.toNat) : StandsFor w i where
  encodes := by
    apply BitVec.eq_of_toNat_eq
    rw [he, toNat_encSingle]
    simp only [srcOf, tsField, sField, operandOf_tBits, operandOf_rBits, toNat_field]
    omega
  wellFormed := by rw [hw]; simp [srcOf]

theorem StandsFor.disp {op : BitVec 8} (he : encode i = encDisp op (dispField w)) (hw : i.wellFormed = true)
    (h : w.toNat / 256 = op.toNat) : StandsFor w i where
  encodes := by
    apply BitVec.eq_of_toNat_eq
    rw [he, encDisp, toNat_append_eq, dispField, toNat_field]
    omega
  wellFormed := hw

theorem StandsFor.shift {op : BitVec 8} (he : encode i = encShift op (shiftField w) (sField w))
    (hw : i.wellFormed = true) (h : w.toNat / 256 = op.toNat) : StandsFor w i where
  encodes := by
    apply BitVec.eq_of_toNat_eq
    rw [he, toNat_encShift, shiftField, sField, toNat_field, toNat_field]
    omega
  wellFormed := hw

theorem StandsFor.reg {op : BitVec 12} (he : encode i = encReg op (sField w)) (hw : i.wellFormed = true)
    (h : w.toNat / 16 = op.toNat) : StandsFor w i where
  encodes := by
    apply BitVec.eq_of_toNat_eq
    rw [he, encReg, toNat_append_eq, sField, toNat_field]
    omega
  wellFormed := hw

/-- The instructions that are one word only. -/
theorem StandsFor.whole (hw : i.wellFormed = true) (h : w.toNat = (encode i).toNat) : StandsFor w i :=
  ⟨(BitVec.eq_of_toNat_eq h).symm, hw⟩

theorem isMidOpcode_iff : isMidOpcode w = true ↔ ∃ r ∈ midRanges, r.1 ≤ w.toNat ∧ w.toNat ≤ r.2 := by
  simp [isMidOpcode]

/-- A word in a MID range stands for its MID term (R122). -/
theorem StandsFor.mid (h : ∃ r ∈ midRanges, r.1 ≤ w.toNat ∧ w.toNat ≤ r.2) : StandsFor w (.mid w) :=
  ⟨rfl, isMidOpcode_iff.mpr h⟩

theorem decode00_standsFor (h : w.toNat / 256 = 0) : StandsFor w (decode00 w) := by
  have hk := toNat_field w 4 4
  unfold decode00
  split
  case h_1 | h_2 => exact .reg rfl rfl (by simp only [BitVec.reduceToNat]; omega)
  case h_3 =>
    simp only [imp_false] at *
    obtain hlo | hhi : w.toNat ≤ 0x7F ∨ 0xA0 ≤ w.toNat := by omega
    · exact .mid ⟨(0, 0x7F), by decide, by omega⟩
    · exact .mid ⟨(0xA0, 0x17F), by decide, by omega⟩

theorem decode01_standsFor (h : w.toNat / 256 = 1) : StandsFor w (decode01 w) := by
  have hk := toNat_field w 6 2
  unfold decode01
  split
  case h_1 | h_2 => exact .single rfl rfl (by simp only [BitVec.reduceToNat]; omega)
  case h_3 =>
    simp only [imp_false] at *
    exact .mid ⟨(0xA0, 0x17F), by decide, by omega⟩

theorem decode1_standsFor (h : w.toNat / 4096 = 1) : StandsFor w (decode1 w) := by
  have hk := toNat_field w 8 4
  unfold decode1
  split
  case h_16 =>
    simp only [imp_false] at *
    exact .disp rfl rfl (by simp only [BitVec.reduceToNat]; omega)
  all_goals exact .disp rfl rfl (by simp only [BitVec.reduceToNat]; omega)

theorem decode23_standsFor (h : w.toNat / 8192 = 1) : StandsFor w (decode23 w) := by
  have hk := toNat_field w 10 3
  unfold decode23
  split
  case h_8 =>
    simp only [imp_false] at *
    exact .dualW rfl rfl (by simp only [BitVec.reduceToNat]; omega)
  all_goals exact .dualW rfl rfl (by simp only [BitVec.reduceToNat]; omega)

theorem decodeSingle_standsFor (h : w.toNat / 1024 = 1) : StandsFor w (decodeSingle w) := by
  have hk := toNat_field w 6 4
  unfold decodeSingle
  split
  case h_15 =>
    simp only [imp_false] at *
    exact .mid ⟨(0x780, 0x7FF), by decide, by omega⟩
  all_goals exact .single rfl rfl (by simp only [BitVec.reduceToNat]; omega)

theorem decode02_standsFor (h : w.toNat / 256 = 2) : StandsFor w (decode02 w) := by
  have hk := toNat_field w 4 4
  unfold decode02
  split
  case h_8 =>
    have hs : (sField w).toNat = _ := toNat_field w 0 4
    split
    case isTrue h0 =>
      rw [h0] at hs
      exact .whole rfl (by simp only [encode, BitVec.reduceToNat] at *; omega)
    case isFalse h0 =>
      have : (sField w).toNat ≠ 0 := fun e => h0 (BitVec.eq_of_toNat_eq e)
      exact .mid ⟨(0x2E1, 0x2FF), by decide, by omega⟩
  case h_9 =>
    simp only [imp_false] at *
    refine .mid ?_
    simp only [midRanges, List.exists_mem_cons_iff, List.not_mem_nil, false_and, exists_false, or_false]
    omega
  all_goals exact .reg rfl rfl (by simp only [BitVec.reduceToNat]; omega)

theorem decode03_standsFor (h : w.toNat / 256 = 3) : StandsFor w (decode03 w) := by
  have hk := toNat_field w 0 8
  unfold decode03
  split
  case h_8 =>
    simp only [imp_false] at *
    refine .mid ?_
    simp only [midRanges, List.exists_mem_cons_iff, List.not_mem_nil, false_and, exists_false, or_false]
    omega
  all_goals exact .whole rfl (by simp only [encode, BitVec.reduceToNat]; omega)

theorem decode0_standsFor (h : w.toNat / 4096 = 0) : StandsFor w (decode0 w) := by
  have hk := toNat_field w 8 4
  unfold decode0
  split
  case h_1 => exact decode00_standsFor (by omega)
  case h_2 => exact decode01_standsFor (by omega)
  case h_3 => exact decode02_standsFor (by omega)
  case h_4 => exact decode03_standsFor (by omega)
  case h_5 | h_6 | h_7 | h_8 => exact decodeSingle_standsFor (by omega)
  case h_9 | h_10 | h_11 | h_12 => exact .shift rfl rfl (by simp only [BitVec.reduceToNat]; omega)
  case h_13 =>
    simp only [imp_false] at *
    exact .mid ⟨(0xC00, 0xFFF), by decide, by omega⟩

/-- Every word stands for what it decodes to (R123). -/
theorem decode_standsFor (w : Word) : StandsFor w (decode w) := by
  have hk := toNat_field w 12 4
  unfold decode
  split
  case h_1 => exact decode0_standsFor (by omega)
  case h_2 => exact decode1_standsFor (by omega)
  case h_3 | h_4 => exact decode23_standsFor (by omega)
  case h_16 =>
    simp only [imp_false] at *
    exact .dual rfl rfl (by simp only [BitVec.reduceToNat]; omega)
  all_goals exact .dual rfl rfl (by simp only [BitVec.reduceToNat]; omega)

end

/-! ### The rows and the MID ranges as intervals of words -/

/-- Whether a number lies in a range, both ends in it. -/
def inRange (n : Nat) (r : Nat × Nat) : Bool := decide (r.1 ≤ n) && decide (n ≤ r.2)

/-- The words of a row, first and last: every value of the bits its mask leaves out. -/
def OpcodeRow.range (r : OpcodeRow) : Nat × Nat := (r.value.toNat, r.value.toNat + (~~~r.mask).toNat)

/-- A row's mask keeps leading bits, and its value has no others. -/
theorem opcodeTable_masks : ∀ r ∈ opcodeTable, ∃ k < 16, r.mask = BitVec.allOnes 16 <<< k ∧
    r.value.toNat % 2 ^ k = 0 ∧ (~~~r.mask).toNat = 2 ^ k - 1 := by decide

theorem and_leading_eq_iff (w v : Word) (k : Nat) (hv : v.toNat % 2 ^ k = 0) :
    w &&& BitVec.allOnes 16 <<< k = v ↔ v.toNat ≤ w.toNat ∧ w.toNat ≤ v.toNat + (2 ^ k - 1) := by
  have hk : 0 < 2 ^ k := Nat.two_pow_pos k
  have hle : w.toNat / 2 ^ k * 2 ^ k ≤ w.toNat := Nat.div_mul_le_self ..
  have hw := w.isLt
  have kept : (w &&& BitVec.allOnes 16 <<< k).toNat = w.toNat / 2 ^ k * 2 ^ k := by
    rw [← BitVec.shiftLeft_ushiftRight, BitVec.toNat_shiftLeft, BitVec.toNat_ushiftRight,
      Nat.shiftRight_eq_div_pow, Nat.shiftLeft_eq, Nat.mod_eq_of_lt (by omega)]
  obtain ⟨q, hq⟩ := Nat.dvd_of_mod_eq_zero hv
  rw [← BitVec.toNat_inj, kept, hq, Nat.mul_comm, Nat.mul_right_inj hk.ne', Nat.div_eq_iff hk, Nat.mul_comm q,
    Nat.add_sub_assoc hk]

/-- A word matches a row of the table where it lies among the row's words. -/
theorem row_matches_iff {r : OpcodeRow} (hr : r ∈ opcodeTable) (w : Word) :
    w &&& r.mask = r.value ↔ inRange w.toNat r.range = true := by
  obtain ⟨k, -, hm, hv, hn⟩ := opcodeTable_masks r hr
  rw [OpcodeRow.range, hn, hm, and_leading_eq_iff w r.value k hv]
  simp [inRange]

/-- The ranges follow one another without a gap, from `lo` up to before `hi`. -/
def consecutive (hi : Nat) : Nat → List (Nat × Nat) → Bool
  | lo, [] => lo == hi
  | lo, r :: rs => r.1 == lo && decide (lo ≤ r.2) && consecutive hi (r.2 + 1) rs

/-- A number between the ends of consecutive ranges lies in exactly one of them. -/
theorem countP_of_consecutive {hi n : Nat} (hn : n < hi) (rs : List (Nat × Nat)) (lo : Nat)
    (h : consecutive hi lo rs = true) : rs.countP (inRange n) = if lo ≤ n then 1 else 0 := by
  induction rs generalizing lo with
  | nil =>
    have : lo = hi := by simpa [consecutive] using h
    rw [if_neg (by omega)]; rfl
  | cons r rs ih =>
    obtain ⟨⟨hlo, hle⟩, hrs⟩ : (r.1 = lo ∧ lo ≤ r.2) ∧ consecutive hi (r.2 + 1) rs = true := by
      simpa [consecutive] using h
    rw [List.countP_cons, ih _ hrs]
    simp only [inRange, hlo, Bool.and_eq_true, decide_eq_true_eq]
    split_ifs <;> omega

/-- R121, R122: put in order, the rows' words and the MID ranges are all the words, once each. -/
theorem rows_and_mids_consecutive :
    consecutive 65536 0 ((opcodeTable.map OpcodeRow.range ++ midRanges).insertionSort fun a b => a.1 ≤ b.1) =
      true := by
  decide

/-- The rows a word matches. -/
def matchingRows (w : Word) : List OpcodeRow := opcodeTable.filter fun r => w &&& r.mask = r.value

/-- The MID ranges a word lies in. -/
def matchingMids (w : Word) : List (Nat × Nat) := midRanges.filter fun r => r.1 ≤ w.toNat ∧ w.toNat ≤ r.2

/-- A word matches one row or lies in one MID range. -/
theorem matches_once (w : Word) : (matchingRows w).length + (matchingMids w).length = 1 := by
  have rows : (matchingRows w).length = (opcodeTable.map OpcodeRow.range).countP (inRange w.toNat) := by
    rw [List.countP_map, List.countP_eq_length_filter, matchingRows]
    congr 1
    refine List.filter_congr fun r hr => ?_
    simp [row_matches_iff hr]
  have mids : (matchingMids w).length = midRanges.countP (inRange w.toNat) := by
    rw [List.countP_eq_length_filter, matchingMids]
    congr 1
    exact List.filter_congr fun r _ => by simp [inRange]
  rw [rows, mids, ← List.countP_append, ← (List.perm_insertionSort (fun a b => a.1 ≤ b.1) _).countP_eq,
    countP_of_consecutive w.isLt _ 0 rows_and_mids_consecutive, if_pos (Nat.zero_le _)]

theorem mem_matchingRows {w : Word} {r : OpcodeRow} :
    r ∈ matchingRows w ↔ r ∈ opcodeTable ∧ w &&& r.mask = r.value := by simp [matchingRows]

theorem isMidOpcode_iff_matchingMids {w : Word} : isMidOpcode w = true ↔ matchingMids w ≠ [] := by
  simp [isMidOpcode_iff, matchingMids, List.filter_eq_nil_iff]

/-! ### What the decoder gives for a row's words and for a MID opcode -/

open Laws.TableRow in
/-- Every instruction has the fixed bits of its own row, or is a MID opcode (R121, R122). -/
theorem hasTableRow : (i : Instr) → Statement i
  | .szc sop dop => szc sop dop | .szcb sop dop => szcb sop dop | .s sop dop => s sop dop
  | .sb sop dop => sb sop dop | .c sop dop => c sop dop | .cb sop dop => cb sop dop | .a sop dop => a sop dop
  | .ab sop dop => ab sop dop | .mov sop dop => mov sop dop | .movb sop dop => movb sop dop
  | .soc sop dop => soc sop dop | .socb sop dop => socb sop dop | .coc sop d => coc sop d
  | .czc sop d => czc sop d | .xor sop d => xor sop d | .mpy sop d => mpy sop d | .div sop d => div sop d
  | .mpys sop => mpys sop | .divs sop => divs sop | .xop sop n => xop sop n | .b sop => b sop
  | .bl sop => bl sop | .blwp sop => blwp sop | .clr sop => clr sop | .seto sop => seto sop
  | .inv sop => inv sop | .neg sop => neg sop | .abs sop => abs sop | .swpb sop => swpb sop
  | .inc sop => inc sop | .inct sop => inct sop | .dec sop => dec sop | .dect sop => dect sop | .x sop => x sop
  | .ldcr sop count => ldcr sop count | .stcr dop count => stcr dop count | .sbo disp => sbo disp
  | .sbz disp => sbz disp | .tb disp => tb disp | .jmp disp => jmp disp | .jlt disp => jlt disp
  | .jle disp => jle disp | .jeq disp => jeq disp | .jhe disp => jhe disp | .jgt disp => jgt disp
  | .jne disp => jne disp | .jnc disp => jnc disp | .joc disp => joc disp | .jno disp => jno disp
  | .jl disp => jl disp | .jh disp => jh disp | .jop disp => jop disp | .sla w count => sla w count
  | .sra w count => sra w count | .srl w count => srl w count | .src w count => src w count | .li w => li w
  | .ai w => ai w | .andi w => andi w | .ori w => ori w | .ci w => ci w | .lwpi => lwpi | .limi => limi
  | .stst w => stst w | .lst w => lst w | .stwp w => stwp w | .lwp w => lwp w | .rtwp => rtwp | .idle => idle
  | .rset => rset | .ckon => ckon | .ckof => ckof | .lrex => lrex | .mid w => mid w

theorem exists_mid_of_mnemonic {i : Instr} (h : i.mnemonic = "MID") : ∃ v, i = .mid v := by
  cases i with
  | mid v => exact ⟨v, rfl⟩
  | _ => simp [Instr.mnemonic] at h

/-- A word decodes to the instruction of a row it matches, or is a MID opcode and decodes to its MID term. -/
theorem decode_row_or_mid (w : Word) :
    (∃ r ∈ matchingRows w, r.mnemonic = (decode w).mnemonic) ∨ (isMidOpcode w = true ∧ decode w = .mid w) := by
  obtain ⟨he, hw⟩ := decode_standsFor w
  obtain ⟨r, hr, hm, hv⟩ | ⟨hm, hmid⟩ := hasTableRow (decode w)
  · rw [he] at hv
    exact .inl ⟨r, mem_matchingRows.mpr ⟨hr, hv⟩, hm⟩
  · obtain ⟨v, hv⟩ := exists_mid_of_mnemonic hm
    have hvw : v = w := by rw [hv] at he; exact he
    rw [he] at hmid
    exact .inr ⟨hmid hw, hvw ▸ hv⟩

/-- A word that matches a row is no MID opcode, and matches no other row. -/
theorem matchingRows_eq {w : Word} {r : OpcodeRow} (hr : r ∈ matchingRows w) :
    matchingRows w = [r] ∧ isMidOpcode w = false := by
  have once := matches_once w
  have pos := List.length_pos_of_mem hr
  obtain ⟨q, hq⟩ := List.length_eq_one_iff.mp (show (matchingRows w).length = 1 by omega)
  have none : matchingMids w = [] := List.eq_nil_of_length_eq_zero (by omega)
  refine ⟨?_, by simpa using mt isMidOpcode_iff_matchingMids.mp (not_not.mpr none)⟩
  rw [hq] at hr ⊢
  rw [List.mem_singleton.mp hr]

theorem decode_mnemonic_of_row {w : Word} {r : OpcodeRow} (hr : r ∈ opcodeTable) (hv : w &&& r.mask = r.value) :
    (decode w).mnemonic = r.mnemonic := by
  obtain ⟨only, notMid⟩ := matchingRows_eq (mem_matchingRows.mpr ⟨hr, hv⟩)
  obtain ⟨q, hq, hm⟩ | ⟨mid, -⟩ := decode_row_or_mid w
  · rw [only] at hq
    rw [← hm, List.mem_singleton.mp hq]
  · simp [mid] at notMid

theorem decode_of_isMidOpcode {w : Word} (h : isMidOpcode w = true) : decode w = .mid w := by
  obtain ⟨r, hr, -⟩ | ⟨-, hd⟩ := decode_row_or_mid w
  · simp [(matchingRows_eq hr).2] at h
  · exact hd

/-! ### Decoding an encoding -/

/-- The decoder gives back every well-formed term, format by format: its branches read the fixed bits, and its
operands the fields below them. -/
theorem decode_encode {i : Instr} (h : i.wellFormed = true) : decode (encode i) = i := by
  cases i with
  | szc sop dop | szcb sop dop | s sop dop | sb sop dop | c sop dop | cb sop dop | a sop dop | ab sop dop
  | mov sop dop | movb sop dop | soc sop dop | socb sop dop =>
    obtain ⟨hs, hd⟩ := Bool.and_eq_true_iff.mp h
    simp [decode, encode, field_encDual _ _ _ 0 4, srcOf_encDual _ hs, dstOf_encDual _ hd]
  | coc sop d | czc sop d | xor sop d | mpy sop d | div sop d | xop sop d | ldcr sop d | stcr sop d =>
    simp [decode, encode, decode23, field_encDualW _ _ _ 2 4, field_encDualW _ _ _ 0 3, srcOf_encDualW _ _ h,
      dField_encDualW]
  | mpys sop | divs sop | b sop | bl sop | blwp sop | clr sop | seto sop | inv sop | neg sop | abs sop | swpb sop
  | inc sop | inct sop | dec sop | dect sop | x sop =>
    simp [decode, encode, decode0, decode01, decodeSingle, field_encSingle _ _ 6 4, field_encSingle _ _ 2 4,
      field_encSingle _ _ 0 4, field_encSingle _ _ 0 2, srcOf_encSingle _ h]
  | sbo d | sbz d | tb d | jmp d | jlt d | jle d | jeq d | jhe d | jgt d | jne d | jnc d | joc d | jno d | jl d
  | jh d | jop d =>
    simp [decode, encode, decode1, field_encDisp _ _ 4 4, field_encDisp _ _ 0 4, dispField_encDisp]
  | sla r c | sra r c | srl r c | src r c =>
    simp [decode, encode, decode0, field_encShift _ _ _ 4 4, field_encShift _ _ _ 0 4, sField_encShift,
      shiftField_encShift]
  | li r | ai r | andi r | ori r | ci r | stst r | lst r | stwp r | lwp r =>
    simp [decode, encode, decode0, decode00, decode02, field_encReg _ _ 8 4, field_encReg _ _ 4 4,
      field_encReg _ _ 0 4, sField_encReg]
  | lwpi | limi | rtwp | idle | rset | ckon | ckof | lrex => rfl
  | mid w => exact decode_of_isMidOpcode h

/-- Decoding the two bytes of a word decodes the word (R83, R100). -/
theorem decodeBytes_high_low (w : Word) :
    decodeBytes [Machine.highByte w, Machine.lowByte w] = .ok (decode w, []) := by
  rw [decodeBytes, Machine.high_low]

end Sys2Proof

namespace Sys2Proof.Machine

/-! ### PC past the extension words (R101, R118) -/

section
variable (s : State) (sop dop : Operand)

/-- Deriving an address fetches the operand's extension words. -/
@[simp] theorem ea_pc (size : Size) : (s.ea sop size).2.pc = s.pc + BitVec.ofNat 16 (2 * sop.extWords) := by
  cases sop with
  | reg r | ind r | autoInc r => exact (BitVec.add_zero s.pc).symm
  | sym | idx r => rfl

@[simp] theorem sourceWord_pc : (s.sourceWord sop).2.pc = s.pc + BitVec.ofNat 16 (2 * sop.extWords) := ea_pc ..

theorem twoOperands_pc : s.pc + BitVec.ofNat 16 (2 * sop.extWords) + BitVec.ofNat 16 (2 * dop.extWords) =
    s.pc + BitVec.ofNat 16 (2 * (sop.extWords + dop.extWords)) := by
  rw [Nat.mul_add, BitVec.ofNat_add, BitVec.add_assoc]

theorem dualWord_pc :
    (s.dualWord sop dop).s.pc = s.pc + BitVec.ofNat 16 (2 * (sop.extWords + dop.extWords)) := by
  simp [State.dualWord, twoOperands_pc]

theorem dualByte_pc :
    (s.dualByte sop dop).s.pc = s.pc + BitVec.ofNat 16 (2 * (sop.extWords + dop.extWords)) := by
  simp [State.dualByte, twoOperands_pc]

@[simp] theorem cruOutBits_pc (base : CruAddr) (v : Word) (i k : Nat) : (cruOutBits base v i k s).pc = s.pc := by
  rw [cruOutBits_core]

@[simp] theorem cruInBits_pc (base : CruAddr) (i k : Nat) : (cruInBits base i k s).2.pc = s.pc := by
  rw [cruInBits_snd]

/-- An instruction completes with PC past as many extension words as it has. -/
def PassesWords (i : Instr) : Prop := ∃ t, exec i s = .next t ∧ t.pc = s.pc + BitVec.ofNat 16 (2 * i.extWords)

theorem ldcr_passesWords (c : BitVec 4) : PassesWords s (.ldcr sop c) := by
  show ∃ t, execLdcr sop c s = .next t ∧ _
  unfold execLdcr
  split <;> exact ⟨_, rfl, by simp [Instr.extWords]⟩

theorem stcr_passesWords (c : BitVec 4) : PassesWords s (.stcr dop c) := by
  show ∃ t, execStcr dop c s = .next t ∧ _
  unfold execStcr
  split <;> exact ⟨_, rfl, by simp [Instr.extWords]⟩

theorem div_passesWords (d : Reg) : PassesWords s (.div sop d) := by
  show ∃ t, execDiv sop d s = .next t ∧ _
  unfold execDiv
  dsimp only
  split <;> exact ⟨_, rfl, sourceWord_pc s sop⟩

theorem divs_passesWords : PassesWords s (.divs sop) := by
  show ∃ t, execDivs sop s = .next t ∧ _
  unfold execDivs
  dsimp only
  split <;> exact ⟨_, rfl, sourceWord_pc s sop⟩

/-- An instruction without extension words that leaves PC. -/
theorem passesWords_of_pc_kept {s t : State} {i : Instr} (e : exec i s = .next t) (hw : i.extWords = 0)
    (h : t.pc = s.pc) : PassesWords s i := ⟨t, e, by simp [hw, h]⟩

end

/-- Every instruction that does not load PC leaves it past its extension words: those of its operands, one
immediate, or none. -/
theorem passesWords_of_not_loadsPc {i : Instr} (s : State) (h : loadsPc i = false) : PassesWords s i := by
  cases i with
  | szc sop dop | s sop dop | a sop dop | soc sop dop | c sop dop | mov sop dop =>
    exact ⟨_, rfl, dualWord_pc s sop dop⟩
  | szcb sop dop | sb sop dop | ab sop dop | socb sop dop | cb sop dop | movb sop dop =>
    exact ⟨_, rfl, dualByte_pc s sop dop⟩
  | coc sop d | czc sop d | xor sop d | mpy sop d | mpys sop => exact ⟨_, rfl, sourceWord_pc s sop⟩
  | div sop d => exact div_passesWords s sop d
  | divs sop => exact divs_passesWords s sop
  | clr sop | seto sop | inv sop | neg sop | abs sop | swpb sop | inc sop | inct sop | dec sop | dect sop =>
    exact ⟨_, rfl, ea_pc s sop .word⟩
  | ldcr sop c => exact ldcr_passesWords s sop c
  | stcr dop c => exact stcr_passesWords s dop c
  | li r | ai r | andi r | ori r | ci r | lwpi | limi => exact ⟨_, rfl, rfl⟩
  | sla r c | sra r c | srl r c | src r c => exact passesWords_of_pc_kept rfl rfl (shiftCount_pc s c)
  | sbo d | sbz d | tb d | stst r | lst r | stwp r | lwp r | idle | rset | ckon | ckof | lrex | mid w =>
    exact passesWords_of_pc_kept rfl rfl rfl
  | b | bl | blwp | xop | rtwp | x => cases h
  | jmp | jlt | jle | jeq | jhe | jgt | jne | jnc | joc | jno | jl | jh | jop => cases h

/-! ### The statements -/

/-- Settles O1: the two bytes are the opcode word again, and it decodes to the term. -/
theorem decodeOfEncodeIsTheInstruction : Obligations.DecodeOfEncodeIsTheInstruction := fun i h => by
  rw [decodeBytes_high_low, decode_encode h]

/-- Settles O2: the rows' words and the MID ranges follow one another, so that a word lies in one of them, and an
instruction's encoding lies in its own row. -/
theorem opcodeWordsArePartitioned : Obligations.OpcodeWordsArePartitioned := by
  intro w
  refine ⟨?_, fun r hr hv => decode_mnemonic_of_row hr hv, decode_of_isMidOpcode, (decode_standsFor w).encodes,
    (decode_standsFor w).wellFormed⟩
  have once := matches_once w
  show Xor ((matchingRows w).length = 1) ((matchingMids w).length = 1)
  unfold Xor
  omega

/-- Settles O45: instruction by instruction, through the addresses its operands derive. -/
theorem pcPassesTheExtensionWords : Obligations.PcPassesTheExtensionWords := fun _ s h =>
  passesWords_of_not_loadsPc s h

/-- Settles O3: each word decoded by evaluation. -/
theorem sampleWordsDecode : Obligations.SampleWordsDecode :=
  ⟨rfl, rfl, rfl, rfl, rfl, rfl, rfl, rfl, rfl, rfl, rfl, rfl, rfl, rfl, rfl, rfl⟩

end Sys2Proof.Machine
end

section
/-! PROOFS of the statements of 40_addressing_and_status.md: the comparisons C and CB, and that no instruction
writes a status bit outside those listed for it. -/

namespace Sys2Proof.Machine

/-! ### Nothing written after the addresses (R183, R184) -/

/-- A state that stores nothing after the addresses of a DUAL instruction keeps all but what they increment. -/
theorem KeptOutside.afterWord {s t : State} {sop dop : Operand}
    (h : KeptOutside (s.dualWord sop dop).s t fun _ => False) :
    KeptOutside s t fun x => Bumps sop s.wp x ∨ Bumps dop s.wp x :=
  (dualWord_kept s sop dop).trans (h.mono fun _ => False.elim)

theorem KeptOutside.afterByte {s t : State} {sop dop : Operand}
    (h : KeptOutside (s.dualByte sop dop).s t fun _ => False) :
    KeptOutside s t fun x => Bumps sop s.wp x ∨ Bumps dop s.wp x :=
  (dualByte_kept s sop dop).trans (h.mono fun _ => False.elim)

/-! ### The status updates, within their masks (R160 to R168) -/

theorem StatusKept.of_eq {m st st' : Word} (h : st' = st) : StatusKept m st st' := h ▸ .refl m st

/-- Under the mask of all bits nothing is kept (R366, R370). -/
theorem StatusKept.whole (st st' : Word) : StatusKept 0xFFFF st st' := by
  show st' &&& 0#16 = st &&& 0#16
  rw [BitVec.and_zero, BitVec.and_zero]

section
variable {st st' : Word}

theorem StatusKept.cmp0 {n : Nat} (r : BitVec n) (h : StatusKept 0xE000 st st') :
    StatusKept 0xE000 st (cmp0 r st') := cmp0_kept r (by decide) (by decide) (by decide) h

theorem StatusKept.cmpOperands {n : Nat} (s d : BitVec n) (h : StatusKept 0xE000 st st') :
    StatusKept 0xE000 st (cmpOperands s d st') := cmpOperands_kept s d (by decide) (by decide) (by decide) h

/-- A comparison of bytes with a parity (R184). -/
theorem StatusKept.cmpParity {n : Nat} (s d : BitVec n) (b : Bool) (h : StatusKept 0xE400 st st') :
    StatusKept 0xE400 st (stPut stOP b (Machine.cmpOperands s d st')) :=
  (cmpOperands_kept s d (by decide) (by decide) (by decide) h).put (by decide)

theorem StatusKept.stSum {n : Nat} (t : AluSum n) (h : StatusKept 0xF800 st st') :
    StatusKept 0xF800 st (stSum t st') := stSum_kept t (by decide) h

theorem StatusKept.stByte (r : Byte) (h : StatusKept 0xE400 st st') : StatusKept 0xE400 st (stByte r st') :=
  stByte_kept r (by decide) h

/-- COC, CZC and TB write ST2 alone (R196, R197, R285). -/
theorem StatusKept.equal (b : Bool) (h : StatusKept 0x2000 st st') : StatusKept 0x2000 st (stPut stEQ b st') :=
  h.put (by decide)

/-- DIV writes ST4 alone (R200). -/
theorem StatusKept.overflow (b : Bool) (h : StatusKept 0x0800 st st') : StatusKept 0x0800 st (stPut stOV b st') :=
  h.put (by decide)

/-- ABS writes ST0 to ST4 (R248). -/
theorem StatusKept.abs (v : Word) (h : StatusKept 0xF800 st st') : StatusKept 0xF800 st (absStatus v st') :=
  ((cmp0_kept v (by decide) (by decide) (by decide) h).put (by decide)).put (by decide)

/-- A shift writes ST0 to ST3 (R330). -/
theorem StatusKept.stShift {m : Word} (t : Shifted) (hm : m = 0xF000 ∨ m = 0xF800) (h : StatusKept m st st') :
    StatusKept m st (stShift t st') := by
  obtain rfl | rfl := hm
  · exact (cmp0_kept t.r (by decide) (by decide) (by decide) h).put (by decide)
  · exact (cmp0_kept t.r (by decide) (by decide) (by decide) h).put (by decide)

/-- SLA writes ST4 besides (R331). -/
theorem StatusKept.shiftLeft (t : Shifted) (b : Bool) (h : StatusKept 0xF800 st st') :
    StatusKept 0xF800 st (stPut stOV b (Machine.stShift t st')) := (h.stShift t (.inr rfl)).put (by decide)

/-- DIVS writes ST0 to ST2 and ST4: on overflow ST0 to ST2 freely, else from the quotient (R222). -/
theorem StatusKept.divsOverflow (v : BitVec 3) (h : StatusKept 0xE800 st st') :
    StatusKept 0xE800 st (stPut stOV true (stPut3 v st')) :=
  (((h.put (by decide)).put (by decide)).put (by decide)).put (by decide)

theorem StatusKept.divsQuotient (q : Word) (h : StatusKept 0xE800 st st') :
    StatusKept 0xE800 st (stPut stOV false (Machine.cmp0 q st')) :=
  (cmp0_kept q (by decide) (by decide) (by decide) h).put (by decide)

/-- The clearing of ST7 to ST11 that every trap does (R225, R420) writes no other bit. -/
theorem stClear7to11_kept (st : Word) : StatusKept 0x01F0 st (stClear7to11 st) := by
  unfold StatusKept stClear7to11
  rw [BitVec.and_assoc]
  rfl

/-- A mask of written bits may grow. -/
theorem StatusKept.mono {m m' : Word} (hm : ~~~m &&& ~~~m' = ~~~m') (h : StatusKept m st st') :
    StatusKept m' st st' := by
  unfold StatusKept at *
  rw [← hm, ← BitVec.and_assoc, ← BitVec.and_assoc, h]

/-- XOP writes ST6 to ST11 (R225). -/
theorem StatusKept.xop (h : StatusKept 0x03F0 st st') : StatusKept 0x03F0 st (xopStatus st') :=
  (h.trans ((stClear7to11_kept st').mono (by decide))).put (by decide)

end

/-! ### What the parts of an instruction leave of ST -/

@[simp] theorem cruOutBits_st (base : CruAddr) (v : Word) (i k : Nat) (s : State) :
    (cruOutBits base v i k s).st = s.st := by rw [cruOutBits_core]

@[simp] theorem cruInBits_st (base : CruAddr) (i k : Nat) (s : State) : (cruInBits base i k s).2.st = s.st := by
  rw [cruInBits_snd]

@[simp] theorem jump_st (s : State) (d : BitVec 8) (c : Bool) : (s.jump d c).st = s.st := by rw [jump_spec]

/-! ### The instructions with more than one outcome -/

/-- The instruction completes and no bit of ST outside its list changes (R166, R168). -/
def KeepsUnlisted (i : Instr) (s : State) : Prop := ∃ t, exec i s = .next t ∧ StatusKept (affectedBits i) s.st t.st

theorem ldcr_keepsUnlisted (sop : Operand) (c : BitVec 4) (s : State) : KeepsUnlisted (.ldcr sop c) s := by
  cases hc : cruIsByte c with
  | true =>
    refine ⟨_, exec_ldcr_byte hc sop s, ?_⟩
    rw [cruOutBits_st, affectedBits, if_pos hc]
    exact .stByte _ (.of_eq (ea_st ..))
  | false =>
    refine ⟨_, exec_ldcr_word hc sop s, ?_⟩
    rw [cruOutBits_st, affectedBits, if_neg (by simp [hc])]
    exact .cmp0 _ (.of_eq (ea_st ..))

theorem stcr_keepsUnlisted (dop : Operand) (c : BitVec 4) (s : State) : KeepsUnlisted (.stcr dop c) s := by
  cases hc : cruIsByte c with
  | true =>
    refine ⟨_, exec_stcr_byte hc dop s, ?_⟩
    rw [affectedBits, if_pos hc]
    exact .stByte _ (.of_eq ((cruInBits_st ..).trans (ea_st ..)))
  | false =>
    refine ⟨_, exec_stcr_word hc dop s, ?_⟩
    rw [affectedBits, if_neg (by simp [hc])]
    exact .cmp0 _ (.of_eq ((cruInBits_st ..).trans (ea_st ..)))

/-- DIV writes ST4 on overflow and where it divides (R200). -/
theorem div_keepsUnlisted (sop : Operand) (d : Reg) (s : State) : KeepsUnlisted (.div sop d) s := by
  show ∃ t, execDiv sop d s = .next t ∧ StatusKept 0x0800 s.st t.st
  unfold execDiv
  dsimp only
  split
  · exact ⟨_, rfl, .overflow _ (.of_eq (by simp))⟩
  · exact ⟨_, rfl, .overflow _ (.of_eq (by simp))⟩

theorem divs_keepsUnlisted (sop : Operand) (s : State) : KeepsUnlisted (.divs sop) s := by
  show ∃ t, execDivs sop s = .next t ∧ StatusKept 0xE800 s.st t.st
  unfold execDivs
  dsimp only
  split
  · exact ⟨_, rfl, .divsOverflow _ (.of_eq (by simp))⟩
  · exact ⟨_, rfl, .divsQuotient _ (.of_eq (by simp))⟩

/-! ### Every instruction (R166, R168) -/

/-- Every instruction but X keeps the bits not listed for it: its operands and stores leave ST, and its one status
update writes within its mask. -/
theorem exec_keepsUnlisted (i : Instr) (s : State) (hx : ∀ sop, i ≠ .x sop) : KeepsUnlisted i s := by
  cases i with
  | a sop dop | s sop dop => exact ⟨_, rfl, .stSum _ (.of_eq (dualWord_st s sop dop))⟩
  | ab sop dop | sb sop dop => exact ⟨_, rfl, stSumByte_kept _ (.of_eq (dualByte_st s sop dop))⟩
  | c sop dop => exact ⟨_, rfl, .cmpOperands _ _ (.of_eq (dualWord_st s sop dop))⟩
  | cb sop dop => exact ⟨_, rfl, .cmpParity _ _ _ (.of_eq (dualByte_st s sop dop))⟩
  | soc sop dop | szc sop dop | mov sop dop => exact ⟨_, rfl, .cmp0 _ (.of_eq (dualWord_st s sop dop))⟩
  | socb sop dop | szcb sop dop | movb sop dop => exact ⟨_, rfl, .stByte _ (.of_eq (dualByte_st s sop dop))⟩
  | coc sop d | czc sop d => exact ⟨_, rfl, .equal _ (.of_eq (sourceWord_st s sop))⟩
  | xor sop d | mpys sop => exact ⟨_, rfl, .cmp0 _ (.of_eq (by simp))⟩
  | mpy sop d => exact ⟨_, rfl, .of_eq (sourceWord_st s sop)⟩
  | div sop d => exact div_keepsUnlisted sop d s
  | divs sop => exact divs_keepsUnlisted sop s
  | xop sop n => exact ⟨_, rfl, .xop (.of_eq (by simp))⟩
  | b sop | bl sop | blwp sop | clr sop | seto sop | swpb sop => exact ⟨_, rfl, .of_eq (ea_st s sop .word)⟩
  | inv sop => exact ⟨_, rfl, .cmp0 _ (.of_eq (ea_st s sop .word))⟩
  | neg sop | inc sop | inct sop | dec sop | dect sop => exact ⟨_, rfl, .stSum _ (.of_eq (ea_st s sop .word))⟩
  | abs sop => exact ⟨_, rfl, .abs _ (.of_eq (ea_st s sop .word))⟩
  | x sop => exact absurd rfl (hx sop)
  | ldcr sop c => exact ldcr_keepsUnlisted sop c s
  | stcr dop c => exact stcr_keepsUnlisted dop c s
  | tb d => exact ⟨_, rfl, .equal _ (.refl _ _)⟩
  | jmp d | jlt d | jle d | jeq d | jhe d | jgt d | jne d | jnc d | joc d | jno d | jl d | jh d
  | jop d => exact ⟨_, rfl, .of_eq (jump_st ..)⟩
  | sla r c => exact ⟨_, rfl, .shiftLeft _ _ (.of_eq (shiftCount_st s c))⟩
  | sra r c | srl r c | src r c => exact ⟨_, rfl, .stShift _ (.inl rfl) (.of_eq (shiftCount_st s c))⟩
  | li r | andi r | ori r => exact ⟨_, rfl, .cmp0 _ (.refl _ _)⟩
  | ci r => exact ⟨_, rfl, .cmpOperands _ _ (.refl _ _)⟩
  | ai r => exact ⟨_, rfl, .stSum _ (.refl _ _)⟩
  | limi | rset => exact ⟨_, rfl, stPutMask_kept _ s.st⟩
  | lst r | rtwp => exact ⟨_, rfl, .whole ..⟩
  | sbo d | sbz d | lwpi | stst r | stwp r | lwp r | idle | ckon | ckof | lrex | mid w =>
    exact ⟨_, rfl, .refl _ _⟩

/-- An X writes what its target writes, and nothing where the target is again an X (R254). -/
theorem execX_keepsUnlisted (sop : Operand) (s : State) :
    ∃ t, exec (.x sop) s = .next t ∧ StatusKept (affectedBits (decode (s.sourceWord sop).1)) s.st t.st := by
  have e : exec (.x sop) s = execTarget (s.sourceWord sop).1 (s.sourceWord sop).2 := rfl
  cases hv : isX (s.sourceWord sop).1 with
  | true => exact ⟨_, e.trans (execTarget_x hv _), .of_eq (sourceWord_st ..)⟩
  | false =>
    obtain ⟨t, et, kept⟩ := exec_keepsUnlisted (decode (s.sourceWord sop).1) (s.sourceWord sop).2 fun o ho => by
      simp [isX_of_decode ho] at hv
    rw [sourceWord_st] at kept
    exact ⟨t, e.trans ((execTarget_eq hv _).trans et), kept⟩

/-! ### The statements -/

/-- Settles O10: the comparison reads the destination and stores nothing after the addresses are derived. -/
theorem compareWordsAndBytes : Obligations.CompareWordsAndBytes := by
  intro sop dop s
  constructor
  · intro p
    obtain ⟨status, -, drew, kept⟩ := compareWord_spec p fun v d => cmpOperands v d
    rw [dualWord_plat, dualWord_st] at status
    refine ⟨_, rfl, ?_, ?_, drew, kept.afterWord⟩
    all_goals rw [status]
    · exact cmpOperands_compared ..
    · exact .cmpOperands _ _ (.refl _ _)
  · intro p
    obtain ⟨status, -, drew, kept⟩ := compareByte_spec p fun v d st => stPut stOP (parity8 v) (cmpOperands v d st)
    rw [dualByte_plat, dualByte_st] at status
    refine ⟨_, rfl, ?_, ?_, ?_, drew, kept.afterByte⟩
    all_goals rw [status]
    · exact (cmpOperands_compared ..).put (by decide)
    · rw [getLsbD_stPut _ _ _ _ (by decide), if_pos rfl, parity8_eq]
    · exact .cmpParity _ _ _ (.refl _ _)

/-- Settles O44: X through its target, every other instruction by its own mask. -/
theorem onlyListedStatusBits : Obligations.OnlyListedStatusBits := by
  intro i s
  by_cases hx : ∃ sop, i = .x sop
  · obtain ⟨sop, rfl⟩ := hx
    obtain ⟨t, e, kept⟩ := execX_keepsUnlisted sop s
    refine ⟨t, e, fun no => absurd rfl (no sop), fun o ho => ?_⟩
    cases ho
    exact kept
  · obtain ⟨t, e, kept⟩ := exec_keepsUnlisted i s fun sop hi => hx ⟨sop, hi⟩
    exact ⟨t, e, fun _ => kept, fun sop hi => absurd ⟨sop, hi⟩ hx⟩

end Sys2Proof.Machine
end

section
/-! PROOFS of the statements of 41_dual_operand.md: the two-operand instructions that store a result, and the
instructions with a general source and a register. -/

namespace Sys2Proof.Machine

/-! ### A result stored at DA (R180) -/

section
variable {s t : State} {sop dop : Operand} {mask : Word}

/-- What is stored after the addresses of a DUAL instruction on words, as an effect of the whole instruction. -/
theorem DualWordWrote.afterAddresses {r : Word}
    (stored : WordStored (s.dualWord sop dop).s.plat (s.dualWord sop dop).s.bus t.bus (s.dualWord sop dop).da r)
    (status : StatusKept mask (s.dualWord sop dop).s.st t.st)
    (kept : KeptOutside (s.dualWord sop dop).s t (InWord (s.dualWord sop dop).da)) :
    DualWordWrote s t sop dop r mask := by
  rw [dualWord_plat] at stored
  rw [dualWord_st] at status
  have addresses := (dualWord_kept s sop dop).mono fun x hx =>
    show Bumps sop s.wp x ∨ Bumps dop s.wp x ∨ InWord (s.dualWord sop dop).da x from hx.imp_right .inl
  exact ⟨stored, status, addresses.trans (kept.mono fun _ hx => .inr (.inr hx))⟩

/-- The same on bytes. -/
theorem DualByteWrote.afterAddresses {r : Byte}
    (stored : ByteStored (s.dualByte sop dop).s.plat (s.dualByte sop dop).s.bus t.bus (s.dualByte sop dop).da r)
    (status : StatusKept mask (s.dualByte sop dop).s.st t.st)
    (kept : KeptOutside (s.dualByte sop dop).s t
      (InByte (s.dualByte sop dop).s.plat (s.dualByte sop dop).da)) :
    DualByteWrote s t sop dop r mask := by
  rw [dualByte_plat] at stored kept
  rw [dualByte_st] at status
  have addresses := (dualByte_kept s sop dop).mono fun x hx =>
    show Bumps sop s.wp x ∨ Bumps dop s.wp x ∨ InByte s.plat (s.dualByte sop dop).da x from hx.imp_right .inl
  exact ⟨stored, status, addresses.trans (kept.mono fun _ hx => .inr (.inr hx))⟩

end

section
variable (s : State) (sop dop : Operand) {mask : Word}

/-- A read-modify-write of the destination word, as an effect of the whole instruction. -/
theorem modifyWord_wrote (f : Word → Word → Word) (g : Word → Word → Word → Word)
    (within : ∀ v d st, StatusKept mask st (g v d st)) :
    let p := s.dualWord sop dop
    let old := busReadWord s.plat p.s.bus p.da
    DualWordWrote s (modifyWord p f g) sop dop (f p.src old) mask ∧ (modifyWord p f g).st = g p.src old s.st := by
  intro p old
  obtain ⟨stored, status, -, kept⟩ := modifyWord_spec p f g
  have read : busReadWord p.s.plat p.s.bus p.da = old := by rw [dualWord_plat]
  rw [read] at stored status
  refine ⟨.afterAddresses stored ?_ kept, ?_⟩
  · rw [status]; exact within ..
  · rw [status, dualWord_st]

/-- The same for the destination byte. -/
theorem modifyByte_wrote (f : Byte → Byte → Byte) (g : Byte → Byte → Word → Word)
    (within : ∀ v d st, StatusKept mask st (g v d st)) :
    let p := s.dualByte sop dop
    let old := busReadByte s.plat p.s.bus p.da
    DualByteWrote s (modifyByte p f g) sop dop (f p.src old) mask ∧ (modifyByte p f g).st = g p.src old s.st := by
  intro p old
  obtain ⟨stored, status, -, kept⟩ := modifyByte_spec p f g
  have read : busReadByte p.s.plat p.s.bus p.da = old := by rw [dualByte_plat]
  rw [read] at stored status
  refine ⟨.afterAddresses stored ?_ kept, ?_⟩
  · rw [status]; exact within ..
  · rw [status, dualByte_st]

/-- A store at DA that reads no destination (R151, R191). -/
theorem writeWord_wrote (r : Word) (g : Word → Word) (within : ∀ st, StatusKept mask st (g st)) :
    let p := s.dualWord sop dop
    DualWordWrote s ((p.s.writeWord p.da r).mapSt g) sop dop r mask :=
  .afterAddresses (busWriteWord_stored ..) (within _) (.status _ (.store (.refl _ _) fun _ hx => hx))

theorem writeByte_wrote (r : Byte) (g : Word → Word) (within : ∀ st, StatusKept mask st (g st)) :
    let p := s.dualByte sop dop
    DualByteWrote s ((p.s.writeByte p.da r).mapSt g) sop dop r mask :=
  .afterAddresses (busWriteByte_stored ..) (within _) (.status _ (.storeByte (.refl _ _) fun _ hx => hx))

end

/-! ### Results bit by bit, and the status of a byte sum -/

/-- Or sets a bit where the source has a 1 (R187). -/
theorem getLsbD_or_eq_ite {n : Nat} (d v : BitVec n) (i : Nat) :
    (d ||| v).getLsbD i = if v.getLsbD i then true else d.getLsbD i := by
  rw [BitVec.getLsbD_or]
  cases v.getLsbD i <;> simp

/-- And with the complement clears a bit where the source has a 1 (R189). -/
theorem getLsbD_and_not_eq_ite {n : Nat} (d v : BitVec n) {i : Nat} (hi : i < n) :
    (d &&& ~~~v).getLsbD i = if v.getLsbD i then false else d.getLsbD i := by
  rw [BitVec.getLsbD_and, BitVec.getLsbD_not, decide_eq_true hi]
  cases v.getLsbD i <;> simp

/-- ST3 and ST4 after a byte sum (R164, R182). -/
theorem sumCarry_stSumByte (a b : Byte) (st : Word) : SumCarry a b (stSumByte (addN a b) st) := by
  obtain ⟨carry, overflow⟩ := getLsbD_stSumByte (addN a b) st
  exact ⟨carry.trans (addN_c a b), overflow.trans (addN_ov a b)⟩

/-- ST3 and ST4 after a byte difference (R165, R186). -/
theorem differenceCarry_stSumByte (d v : Byte) (st : Word) : DifferenceCarry d v (stSumByte (subN d v) st) := by
  obtain ⟨carry, overflow⟩ := getLsbD_stSumByte (subN d v) st
  exact ⟨carry.trans (subN_c d v), overflow.trans (subN_ov d v)⟩

/-! ### Product and quotient as integers (R199, R200) -/

/-- The product of two words needs no more than 32 bits. -/
theorem widened_mul_toNat (a b : Word) : (a.setWidth 32 * b.setWidth 32).toNat = a.toNat * b.toNat := by
  have bound : a.toNat * b.toNat < 2 ^ 32 := calc
    _ < 2 ^ 16 * 2 ^ 16 := Nat.mul_lt_mul'' a.isLt b.isLt
    _ = 2 ^ 32 := (Nat.pow_add 2 16 16).symm
  rw [BitVec.toNat_mul, BitVec.toNat_setWidth_of_le (by decide), BitVec.toNat_setWidth_of_le (by decide),
    Nat.mod_eq_of_lt bound]

theorem widened_mul_high (a b : Word) :
    (a.setWidth 32 * b.setWidth 32).extractLsb' 16 16 = BitVec.ofNat 16 (a.toNat * b.toNat / 65536) := by
  apply BitVec.eq_of_toNat_eq
  rw [BitVec.extractLsb'_toNat, widened_mul_toNat, BitVec.toNat_ofNat, Nat.shiftRight_eq_div_pow]

theorem widened_mul_low (a b : Word) :
    (a.setWidth 32 * b.setWidth 32).extractLsb' 0 16 = BitVec.ofNat 16 (a.toNat * b.toNat % 65536) := by
  apply BitVec.eq_of_toNat_eq
  rw [BitVec.extractLsb'_toNat, widened_mul_toNat, BitVec.toNat_ofNat, Nat.shiftRight_zero, Nat.mod_mod]

theorem joined_toNat (hi lo : Word) : (hi ++ lo : BitVec 32).toNat = hi.toNat * 65536 + lo.toNat := by
  rw [BitVec.toNat_append, ← Nat.shiftLeft_add_eq_or_of_lt lo.isLt, Nat.shiftLeft_eq]

/-- The quotient that DIV stores is the quotient of the integers, cut to 16 bits. -/
theorem joined_div (hi lo v : Word) : ((hi ++ lo : BitVec 32) / v.setWidth 32).setWidth 16 =
    BitVec.ofNat 16 ((hi.toNat * 65536 + lo.toNat) / v.toNat) := by
  apply BitVec.eq_of_toNat_eq
  rw [BitVec.toNat_setWidth, BitVec.toNat_udiv, BitVec.toNat_setWidth_of_le (by decide), joined_toNat,
    BitVec.toNat_ofNat]

theorem joined_mod (hi lo v : Word) : ((hi ++ lo : BitVec 32) % v.setWidth 32).setWidth 16 =
    BitVec.ofNat 16 ((hi.toNat * 65536 + lo.toNat) % v.toNat) := by
  apply BitVec.eq_of_toNat_eq
  rw [BitVec.toNat_setWidth, BitVec.toNat_umod, BitVec.toNat_setWidth_of_le (by decide), joined_toNat,
    BitVec.toNat_ofNat]

/-- A high word below the divisor makes the quotient one word (R200). -/
theorem quotient_lt_of_high_lt {hi lo v : Word} (h : hi.toNat < v.toNat) :
    (hi.toNat * 65536 + lo.toNat) / v.toNat < 65536 := by
  have low := lo.isLt
  rw [Nat.div_lt_iff_lt_mul (Nat.zero_lt_of_lt h)]
  omega

/-! ### A general source, then a register (R195) -/

section
variable (s : State) (sop : Operand) (d : Reg)

/-- The register of a DUALW instruction, read after the source operand (R195). -/
def State.sourceReg : Word := busReadWord s.plat (s.sourceWord sop).2.bus (wrAddr s.wp d)

/-- The state in which a DUALW instruction has read both operands. -/
def State.sourceRegState : State := ((s.sourceWord sop).2.readReg d).2

/-- The model's read of the register is this one: deriving the source moves neither WP nor the platform. -/
theorem sourceWord_readReg : (s.sourceWord sop).2.readReg d = (s.sourceReg sop d, s.sourceRegState sop d) := by
  have h : ((s.sourceWord sop).2.readReg d).1 = s.sourceReg sop d := by
    rw [State.readReg_fst, sourceWord_plat, sourceWord_wp, State.sourceReg]
  exact Prod.ext h rfl

theorem sourceRegState_drew : OnlyDrew (s.sourceWord sop).2.bus (s.sourceRegState sop d).bus := onlyDrew_readReg ..

theorem sourceRegState_kept : KeptOutside s (s.sourceRegState sop d) (Bumps sop s.wp) := (sourceWord_kept s sop).read

@[simp] theorem sourceRegState_st : (s.sourceRegState sop d).st = s.st := sourceWord_st s sop

@[simp] theorem sourceRegState_wp : (s.sourceRegState sop d).wp = s.wp := sourceWord_wp s sop

@[simp] theorem sourceRegState_plat : (s.sourceRegState sop d).plat = s.plat := sourceWord_plat s sop

/-- What is read after the register does not depend on the register's cycles. -/
theorem busReadWord_sourceRegState (a : Word) : busReadWord s.plat (s.sourceRegState sop d).bus a =
    busReadWord s.plat (s.sourceWord sop).2.tickDraws.bus a := busReadWord_inputCycles ..

/-! ### The meaning of each instruction in these terms -/

theorem exec_coc : exec (.coc sop d) s = .next ((s.sourceRegState sop d).mapSt
    (stPut stEQ ((s.sourceWord sop).1 &&& ~~~s.sourceReg sop d == 0))) := by
  show execCoc sop d s = _
  rw [execCoc, sourceWord_readReg]

theorem exec_czc : exec (.czc sop d) s = .next ((s.sourceRegState sop d).mapSt
    (stPut stEQ ((s.sourceWord sop).1 &&& s.sourceReg sop d == 0))) := by
  show execCzc sop d s = _
  rw [execCzc, sourceWord_readReg]

theorem exec_xor : exec (.xor sop d) s = .next (((s.sourceRegState sop d).writeWord (wrAddr s.wp d)
    (s.sourceReg sop d ^^^ (s.sourceWord sop).1)).mapSt (cmp0 (s.sourceReg sop d ^^^ (s.sourceWord sop).1))) := by
  show execXor sop d s = _
  rw [execXor, sourceWord_readReg]
  simp only [State.writeReg, sourceRegState_wp]

/-- The product of both operands as integers (R199). -/
def State.product : Nat := (s.sourceReg sop d).toNat * (s.sourceWord sop).1.toNat

theorem exec_mpy : exec (.mpy sop d) s = .next (((s.sourceRegState sop d).writeWord (wrAddr s.wp d)
    (BitVec.ofNat 16 (s.product sop d / 65536))).writeWord (wrAddr s.wp d + 2)
    (BitVec.ofNat 16 (s.product sop d % 65536))) := by
  show execMpy sop d s = _
  rw [execMpy, sourceWord_readReg]
  simp only [State.writeReg, sourceRegState_wp, widened_mul_high, widened_mul_low, State.product]

/-- The low word of DIV's dividend, read last (R200). -/
def State.dividendLow : Word := busReadWord s.plat (s.sourceWord sop).2.tickDraws.bus (wrAddr s.wp d + 2)

/-- DIV's dividend as an integer: register D and the word after it (R200). -/
def State.dividend : Nat := (s.sourceReg sop d).toNat * 65536 + (s.dividendLow sop d).toNat

/-- The read of the low word gives it: nothing but cycles comes between. -/
theorem sourceRegState_readLow :
    ((s.sourceRegState sop d).readWord (wrAddr s.wp d + 2)).1 = s.dividendLow sop d := by
  rw [State.readWord_fst, sourceRegState_plat, busReadWord_sourceRegState, State.dividendLow]

/-- DIV with a divisor not above the high word (R200). -/
theorem exec_div_overflow (h : (s.sourceWord sop).1.toNat ≤ (s.sourceReg sop d).toNat) :
    exec (.div sop d) s = .next ((s.sourceRegState sop d).mapSt (stPut stOV true)) := by
  show execDiv sop d s = _
  simp only [execDiv, sourceWord_readReg]
  exact if_pos h

/-- DIV with a divisor above the high word (R200). -/
theorem exec_div_quotient (h : (s.sourceReg sop d).toNat < (s.sourceWord sop).1.toNat) :
    exec (.div sop d) s = .next (((((s.sourceRegState sop d).readWord (wrAddr s.wp d + 2)).2.writeWord (wrAddr s.wp d)
      (BitVec.ofNat 16 (s.dividend sop d / (s.sourceWord sop).1.toNat))).writeWord (wrAddr s.wp d + 2)
      (BitVec.ofNat 16 (s.dividend sop d % (s.sourceWord sop).1.toNat))).mapSt (stPut stOV false)) := by
  show execDiv sop d s = _
  simp only [execDiv, sourceWord_readReg, sourceRegState_readLow, State.writeReg, State.readWord_snd,
    State.inputCycles_wp, sourceRegState_wp, joined_div, joined_mod]
  exact if_neg (Nat.not_le_of_lt h)

end

/-! ### Words stored after both operands are read (R198 to R200) -/

section
variable {s u : State} {b : Bus} {touched : Word → Prop}

/-- A word write after input cycles: the store, and the frame. -/
theorem writeAfter_spec (drew : OnlyDrew b u.bus) (kept : KeptOutside s u touched) (a v : Word) :
    let t := u.writeWord a v
    WordStored s.plat b t.bus a v ∧ KeptOutside s t fun x => touched x ∨ InWord a x := by
  intro t
  have stored : WordStored u.plat b t.bus a v := (busWriteWord_stored ..).after drew
  rw [kept.plat] at stored
  exact ⟨stored, (kept.mono fun _ hx => .inl hx).store fun _ hx => .inr hx⟩

/-- Two word writes after input cycles: both stores in order, and the frame. -/
theorem writeTwice_spec (drew : OnlyDrew b u.bus) (kept : KeptOutside s u touched) (a v a' v' : Word) :
    let t := (u.writeWord a v).writeWord a' v'
    (∃ m, WordStored s.plat b m a v ∧ WordStored s.plat m t.bus a' v') ∧
      KeptOutside s t fun x => touched x ∨ InWord a x ∨ InWord a' x := by
  obtain ⟨first, kept⟩ := writeAfter_spec drew kept a v
  obtain ⟨second, kept⟩ := writeAfter_spec (.refl _) kept a' v'
  exact ⟨⟨_, first, second⟩, kept.mono fun _ => or_assoc.mp⟩

end

/-! ### The comparisons of COC and CZC (R196, R197) -/

/-- A masked word is 0 exactly when no bit of it is 1. -/
theorem and_beq_zero_iff {n : Nat} (v r : BitVec n) :
    (v &&& r == 0) = true ↔ ∀ i, i < n → v.getLsbD i = true → r.getLsbD i = false := by
  rw [beq_iff_eq]
  constructor
  · intro h i _ hv
    have bit := congrArg (fun w => w.getLsbD i) h
    simpa [hv] using bit
  · intro h
    apply BitVec.eq_of_getLsbD_eq
    intro i hi
    rw [BitVec.getLsbD_and]
    cases hv : v.getLsbD i with
    | false => simp
    | true => simp [h i hi hv]

theorem and_not_beq_zero_iff {n : Nat} (v r : BitVec n) :
    (v &&& ~~~r == 0) = true ↔ ∀ i, i < n → v.getLsbD i = true → r.getLsbD i = true := by
  rw [and_beq_zero_iff]
  refine forall₂_congr fun i hi => ?_
  rw [BitVec.getLsbD_not, decide_eq_true hi, Bool.true_and, Bool.not_eq_false']

/-- A test of both operands into ST2 writes nothing else (R196, R197). -/
theorem testRegister_spec (s : State) (sop : Operand) (d : Reg) (b : Bool) :
    let t := (s.sourceRegState sop d).mapSt (stPut stEQ b)
    t.st.getLsbD stEQ = b ∧ StatusKept 0x2000 s.st t.st ∧ OnlyDrew (s.sourceWord sop).2.bus t.bus ∧
      KeptOutside s t (Bumps sop s.wp) := by
  refine ⟨?_, .equal b (.of_eq (sourceRegState_st ..)), sourceRegState_drew .., (sourceRegState_kept ..).status _⟩
  rw [State.mapSt_st, getLsbD_stPut _ _ _ _ (by decide), if_pos rfl]

/-! ### The statements -/

/-- Settles O8: the adder's sum and difference, stored and compared. -/
theorem addAndSubtractWords : Obligations.AddAndSubtractWords := by
  intro sop dop s p old
  constructor
  · obtain ⟨wrote, status⟩ := modifyWord_wrote s sop dop (fun v d => (addN v d).r) (fun v d => stSum (addN v d))
      fun _ _ st => .stSum _ (.refl _ st)
    rw [ofNat_add_toNat, ← addN_r]
    refine ⟨_, rfl, wrote, ?_, ?_⟩
    all_goals rw [status]
    · exact stSum_compared ..
    · exact sumCarry_stSum ..
  · obtain ⟨wrote, status⟩ := modifyWord_wrote s sop dop (fun v d => (subN d v).r) (fun v d => stSum (subN d v))
      fun _ _ st => .stSum _ (.refl _ st)
    rw [ofInt_sub_toInt, ← subN_r]
    refine ⟨_, rfl, wrote, ?_, ?_⟩
    all_goals rw [status]
    · exact stSum_compared ..
    · exact differenceCarry_stSum ..

/-- Settles O9: as for words, with the parity of the stored byte. -/
theorem addAndSubtractBytes : Obligations.AddAndSubtractBytes := by
  intro sop dop s p old
  constructor
  · obtain ⟨wrote, status⟩ := modifyByte_wrote s sop dop (fun v d => (addN v d).r)
      (fun v d => stSumByte (addN v d)) fun _ _ st => stSumByte_kept _ (.refl _ st)
    rw [ofNat_add_toNat, ← addN_r]
    refine ⟨_, rfl, wrote, ?_, ?_, ?_⟩
    all_goals rw [status]
    · exact stSumByte_compared ..
    · exact sumCarry_stSumByte ..
    · exact stSumByte_parity ..
  · obtain ⟨wrote, status⟩ := modifyByte_wrote s sop dop (fun v d => (subN d v).r)
      (fun v d => stSumByte (subN d v)) fun _ _ st => stSumByte_kept _ (.refl _ st)
    rw [ofInt_sub_toInt, ← subN_r]
    refine ⟨_, rfl, wrote, ?_, ?_, ?_⟩
    all_goals rw [status]
    · exact stSumByte_compared ..
    · exact differenceCarry_stSumByte ..
    · exact stSumByte_parity ..

/-- Settles O11: the or, and the and with the complement, read bit by bit. -/
theorem setOnesAndZeroesWords : Obligations.SetOnesAndZeroesWords := by
  intro sop dop s p old
  constructor
  · obtain ⟨wrote, status⟩ := modifyWord_wrote s sop dop (fun v d => d ||| v) (fun v d => cmp0 (d ||| v))
      fun _ _ st => .cmp0 _ (.refl _ st)
    exact ⟨_, _, rfl, wrote, fun i _ => getLsbD_or_eq_ite old p.src i, status ▸ cmp0_compared ..⟩
  · obtain ⟨wrote, status⟩ := modifyWord_wrote s sop dop (fun v d => d &&& ~~~v) (fun v d => cmp0 (d &&& ~~~v))
      fun _ _ st => .cmp0 _ (.refl _ st)
    exact ⟨_, _, rfl, wrote, fun _ hi => getLsbD_and_not_eq_ite old p.src hi, status ▸ cmp0_compared ..⟩

/-- Settles O12: as for words, with the parity of the stored byte. -/
theorem setOnesAndZeroesBytes : Obligations.SetOnesAndZeroesBytes := by
  intro sop dop s p old
  constructor
  · obtain ⟨wrote, status⟩ := modifyByte_wrote s sop dop (fun v d => d ||| v) (fun v d => stByte (d ||| v))
      fun _ _ st => .stByte _ (.refl _ st)
    exact ⟨_, _, rfl, wrote, fun i _ => getLsbD_or_eq_ite old p.src i, status ▸ stByte_compared ..,
      status ▸ stByte_parity ..⟩
  · obtain ⟨wrote, status⟩ := modifyByte_wrote s sop dop (fun v d => d &&& ~~~v) (fun v d => stByte (d &&& ~~~v))
      fun _ _ st => .stByte _ (.refl _ st)
    exact ⟨_, _, rfl, wrote, fun _ hi => getLsbD_and_not_eq_ite old p.src hi, status ▸ stByte_compared ..,
      status ▸ stByte_parity ..⟩

/-- Settles O13: the source is stored without a read of the destination. -/
theorem moveWordsAndBytes : Obligations.MoveWordsAndBytes := by
  intro sop dop s
  constructor
  · exact ⟨_, rfl, writeWord_wrote s sop dop _ (cmp0 _) fun st => .cmp0 _ (.refl _ st), cmp0_compared ..⟩
  · exact ⟨_, rfl, writeByte_wrote s sop dop _ (stByte _) fun st => .stByte _ (.refl _ st), stByte_compared ..,
      stByte_parity ..⟩

/-- Settles O14: ST2 is the test of the masked word, and the masked word is 0 where no bit of it is 1. -/
theorem compareOnesAndZeroesCorresponding : Obligations.CompareOnesAndZeroesCorresponding := by
  intro sop d s q r
  constructor
  · obtain ⟨equal, kept⟩ := testRegister_spec s sop d (q.1 &&& ~~~r == 0)
    exact ⟨_, exec_coc s sop d, Iff.trans (Bool.eq_iff_iff.mp equal) (and_not_beq_zero_iff q.1 r), kept⟩
  · obtain ⟨equal, kept⟩ := testRegister_spec s sop d (q.1 &&& r == 0)
    exact ⟨_, exec_czc s sop d, Iff.trans (Bool.eq_iff_iff.mp equal) (and_beq_zero_iff q.1 r), kept⟩

/-- Settles O15: one store in the register after both operands are read. -/
theorem exclusiveOr : Obligations.ExclusiveOr := by
  intro sop d s q old
  obtain ⟨stored, kept⟩ := writeAfter_spec (sourceRegState_drew s sop d) (sourceRegState_kept s sop d)
    (wrAddr s.wp d) (old ^^^ q.1)
  exact ⟨_, old ^^^ q.1, exec_xor s sop d, stored, fun _ _ => BitVec.getLsbD_xor, cmp0_compared ..,
    .cmp0 _ (.of_eq (sourceRegState_st s sop d)), kept.status _⟩

/-- Settles O16: the halves of the product stored one after the other. -/
theorem multiplyUnsigned : Obligations.MultiplyUnsigned := by
  intro sop d s q product
  obtain ⟨⟨m, high, low⟩, kept⟩ := writeTwice_spec (sourceRegState_drew s sop d) (sourceRegState_kept s sop d)
    (wrAddr s.wp d) (BitVec.ofNat 16 (product / 65536)) (wrAddr s.wp d + 2) (BitVec.ofNat 16 (product % 65536))
  exact ⟨_, m, exec_mpy s sop d, high, low, sourceRegState_st s sop d, kept⟩

/-- Settles O17: no store where the quotient would not fit, else the quotient and the remainder of the integers. -/
theorem divideUnsigned : Obligations.DivideUnsigned := by
  intro sop d s q hi lo
  have quiet : ∀ b, StatusKept 0x0800 s.st (stPut stOV b (s.sourceRegState sop d).st) := fun b =>
    .overflow b (.of_eq (sourceRegState_st ..))
  have overflow : ∀ b st, (stPut stOV b st).getLsbD stOV = b := fun b st => by
    rw [getLsbD_stPut _ _ _ _ (by decide), if_pos rfl]
  constructor
  · intro h
    exact ⟨_, exec_div_overflow s sop d h, sourceRegState_drew .., overflow .., quiet true,
      (sourceRegState_kept ..).status _⟩
  · intro h
    obtain ⟨⟨m, quotient, remainder⟩, kept⟩ := writeTwice_spec
      ((sourceRegState_drew s sop d).trans (onlyDrew_readWord _ (wrAddr s.wp d + 2))) (sourceRegState_kept s sop d).read
      (wrAddr s.wp d) (BitVec.ofNat 16 (s.dividend sop d / q.1.toNat))
      (wrAddr s.wp d + 2) (BitVec.ofNat 16 (s.dividend sop d % q.1.toNat))
    exact ⟨_, m, _, _, exec_div_quotient s sop d h, (Nat.div_add_mod' _ q.1.toNat).symm,
      Nat.mod_lt _ (Nat.zero_lt_of_lt h), quotient_lt_of_high_lt h, quotient, remainder, overflow .., quiet false,
      kept.status _⟩

end Sys2Proof.Machine
end

section
/-! PROOFS of the statements of 42_signed_muldiv_xop.md: signed multiply and divide, and the extended operation. -/

namespace Sys2Proof.Machine

/-! ### The 32-bit product as an integer (R221) -/

/-- The high word of an integer held in 32 bits. -/
theorem ofInt_high (x : Int) : (BitVec.ofInt 32 x).extractLsb' 16 16 = BitVec.ofInt 16 (x / 65536) := by
  apply BitVec.eq_of_toNat_eq
  rw [BitVec.extractLsb'_toNat, BitVec.toNat_ofInt, BitVec.toNat_ofInt, Nat.shiftRight_eq_div_pow]
  omega

theorem ofInt_low (x : Int) : (BitVec.ofInt 32 x).extractLsb' 0 16 = BitVec.ofInt 16 x := by
  apply BitVec.eq_of_toNat_eq
  rw [BitVec.extractLsb'_toNat, BitVec.toNat_ofInt, BitVec.toNat_ofInt, Nat.shiftRight_zero]
  omega

/-- The product of two signed words needs no more than 32 bits. -/
theorem toInt_ofInt_product (a b : Word) : (BitVec.ofInt 32 (a.toInt * b.toInt)).toInt = a.toInt * b.toInt := by
  have above : a.toInt * b.toInt ≤ 2 ^ 30 := BitVec.toInt_mul_toInt_le
  have below : -2 ^ 30 ≤ a.toInt * b.toInt := BitVec.le_toInt_mul_toInt
  apply BitVec.toInt_ofInt_eq_self <;> omega

/-- A word of bits is 0 as a natural number where it is 0 as a signed one. -/
theorem toNat_eq_zero_iff_toInt {n : Nat} (r : BitVec n) : r.toNat = 0 ↔ r.toInt = 0 := by
  rw [← BitVec.toInt_zero (w := n), BitVec.toInt_inj, BitVec.toNat_eq, BitVec.toNat_ofNat, Nat.zero_mod]

/-- ST0 to ST2 of a result, in terms of the signed integer it is (R160). -/
theorem ComparedToZero.signed {n : Nat} {r : BitVec n} {st : Word} (h : ComparedToZero r st) :
    st.getLsbD stL = decide (r.toInt ≠ 0) ∧ st.getLsbD stA = decide (0 < r.toInt) ∧
      st.getLsbD stEQ = decide (r.toInt = 0) := by
  simpa only [ComparedToZero, ne_eq, toNat_eq_zero_iff_toInt] using h

/-! ### The signed quotient and remainder (R222) -/

/-- A signed division exists for every divisor but 0, and is the truncated one. -/
theorem isSignedDivision_iff {n d quot rem : Int} :
    IsSignedDivision n d quot rem ↔ d ≠ 0 ∧ quot = n.tdiv d ∧ rem = n.tmod d := by
  constructor
  · rintro ⟨split, small, sign⟩
    have nonzero : d ≠ 0 := by
      rintro rfl
      exact absurd small (by simp)
    refine ⟨nonzero, ?_⟩
    have sum : rem + d * quot = n := by rw [split, Int.mul_comm, Int.add_comm]
    rw [Int.abs_eq_natAbs, Int.abs_eq_natAbs] at small
    rcases le_total 0 n with hn | hn
    · have hrem : 0 ≤ rem := by
        obtain rfl | sign := sign
        · exact le_rfl
        · rwa [← Int.sign_nonneg_iff, sign, Int.sign_nonneg_iff]
      obtain ⟨hq, hr⟩ := (Int.tdiv_tmod_unique hn nonzero).mpr ⟨sum, hrem, by omega⟩
      exact ⟨hq.symm, hr.symm⟩
    · have hrem : rem ≤ 0 := by
        obtain rfl | sign := sign
        · exact le_rfl
        · rwa [← Int.sign_nonpos_iff, sign, Int.sign_nonpos_iff]
      obtain ⟨hq, hr⟩ := (Int.tdiv_tmod_unique' hn nonzero).mpr ⟨sum, by omega, hrem⟩
      exact ⟨hq.symm, hr.symm⟩
  · rintro ⟨nonzero, rfl, rfl⟩
    refine ⟨(Int.tdiv_mul_add_tmod n d).symm, ?_, ?_⟩
    · have small := Nat.mod_lt n.natAbs (Int.natAbs_pos.mpr nonzero)
      rw [← Int.natAbs_tmod] at small
      rw [Int.abs_eq_natAbs, Int.abs_eq_natAbs]
      exact Int.ofNat_lt.mpr small
    · rw [← Int.sign_eq_zero_iff_zero, Int.sign_tmod]
      split
      · exact .inl rfl
      · exact .inr rfl

/-- DIVS has no result where no quotient of a signed division is a signed word (D7). -/
theorem divSigned_eq_none {n : BitVec 32} {d : Word}
    (h : ∀ quot rem, IsSignedDivision n.toInt d.toInt quot rem → quot < -32768 ∨ 32767 < quot) :
    divSigned n d = none := by
  refine if_pos ?_
  by_cases zero : d = 0
  · exact .inl zero
  · have nonzero : d.toInt ≠ 0 := fun e => zero (BitVec.toInt_inj.mp e)
    exact .inr (h _ _ (isSignedDivision_iff.mpr ⟨nonzero, rfl, rfl⟩))

/-- Where the quotient is a signed word, DIVS has it and the remainder. -/
theorem divSigned_eq_some {n : BitVec 32} {d : Word} {quot rem : Int}
    (h : IsSignedDivision n.toInt d.toInt quot rem) (low : -32768 ≤ quot) (high : quot ≤ 32767) :
    divSigned n d = some (BitVec.ofInt 16 quot, BitVec.ofInt 16 rem) := by
  obtain ⟨nonzero, hq, -⟩ := isSignedDivision_iff.mp h
  have remainder : n.toInt - quot * d.toInt = rem := by rw [h.1, add_sub_cancel_left]
  simp only [divSigned, ← hq, remainder]
  refine if_neg ?_
  rintro (rfl | out)
  · exact nonzero BitVec.toInt_zero
  · omega

/-- The dividend of DIVS: a signed high word, an unsigned low one. -/
theorem joined_toInt (hi lo : Word) : (hi ++ lo : BitVec 32).toInt = hi.toInt * 65536 + lo.toNat := by
  rw [BitVec.toInt_append, if_neg (by decide), Int.mul_comm]
  rfl

/-! ### MPYS and DIVS in these terms (R221, R222) -/

section
variable (s : State) (sop : Operand)

/-- The product of MPYS as an integer (R221). -/
def State.signedProduct : Int := (s.sourceReg sop 0).toInt * (s.sourceWord sop).1.toInt

/-- MPYS stores both halves of the product and compares the whole (R221; D6). -/
theorem exec_mpys : exec (.mpys sop) s = .next ((((s.sourceRegState sop 0).writeWord (wrAddr s.wp 0)
    (BitVec.ofInt 16 (s.signedProduct sop / 65536))).writeWord (wrAddr s.wp 1)
    (BitVec.ofInt 16 (s.signedProduct sop))).mapSt (cmp0 (BitVec.ofInt 32 (s.signedProduct sop)))) := by
  show execMpys sop s = _
  rw [execMpys, sourceWord_readReg]
  simp only [State.writeReg, State.writeWord_wp, sourceRegState_wp, ofInt_high, ofInt_low, State.signedProduct]

/-- The low word of the dividend of DIVS, read last (R222). -/
def State.signedDividendLow : Word := busReadWord s.plat (s.sourceWord sop).2.tickDraws.bus (wrAddr s.wp 1)

/-- The dividend of DIVS as an integer: WR0, signed, and WR1 (R222). -/
def State.signedDividend : Int := (s.sourceReg sop 0).toInt * 65536 + (s.signedDividendLow sop).toNat

/-- The state in which DIVS has read its divisor and both words of its dividend. -/
def State.dividedState : State := ((s.sourceRegState sop 0).readReg 1).2

theorem sourceRegState_readReg :
    (s.sourceRegState sop 0).readReg 1 = (s.signedDividendLow sop, s.dividedState sop) := by
  have h : ((s.sourceRegState sop 0).readReg 1).1 = s.signedDividendLow sop := by
    rw [State.readReg_fst, sourceRegState_plat, sourceRegState_wp, busReadWord_sourceRegState, State.signedDividendLow]
  exact Prod.ext h rfl

theorem dividedState_drew : OnlyDrew (s.sourceWord sop).2.bus (s.dividedState sop).bus :=
  (sourceRegState_drew s sop 0).trans (onlyDrew_readReg ..)

theorem dividedState_kept : KeptOutside s (s.dividedState sop) (Bumps sop s.wp) := (sourceRegState_kept s sop 0).read

@[simp] theorem dividedState_st : (s.dividedState sop).st = s.st := sourceRegState_st s sop 0

@[simp] theorem dividedState_wp : (s.dividedState sop).wp = s.wp := (dividedState_kept s sop).wp

/-- The status of DIVS after an overflow: ST4 set, ST0 to ST2 free (R222; log 18). -/
def State.divsOverflowStatus : Word → Word := fun st =>
  stPut stOV true (stPut3 (Config.freeStatus (s.dividedState sop).bus.draws) st)

/-- DIVS without a result (R222; D7). -/
theorem exec_divs_overflow (h : divSigned (s.sourceReg sop 0 ++ s.signedDividendLow sop) (s.sourceWord sop).1 = none) :
    exec (.divs sop) s = .next ((s.dividedState sop).tickDraws.mapSt (s.divsOverflowStatus sop)) := by
  show execDivs sop s = _
  simp only [execDivs, sourceWord_readReg, sourceRegState_readReg, h]
  rfl

/-- DIVS with a result (R222). -/
theorem exec_divs_quotient {quot rem : Word}
    (h : divSigned (s.sourceReg sop 0 ++ s.signedDividendLow sop) (s.sourceWord sop).1 = some (quot, rem)) :
    exec (.divs sop) s = .next ((((s.dividedState sop).writeWord (wrAddr s.wp 0) quot).writeWord (wrAddr s.wp 1)
      rem).mapSt fun st => stPut stOV false (cmp0 quot st)) := by
  show execDivs sop s = _
  simp only [execDivs, sourceWord_readReg, sourceRegState_readReg, h, State.writeReg, State.writeWord_wp,
    dividedState_wp]

end

/-- A status bit just written. -/
theorem getLsbD_stPut_same {i : Nat} (hi : i < 16) (b : Bool) (st : Word) : (stPut i b st).getLsbD i = b := by
  rw [getLsbD_stPut _ _ _ _ hi, if_pos rfl]

/-- A draw taken is no bus cycle. -/
theorem onlyDrew_tickDraws (s : State) : OnlyDrew s.bus s.tickDraws.bus :=
  .of s.bus (s.bus.draws + 1) (cs := []) fun _ hc => (List.not_mem_nil hc).elim

/-! ### XOP (R225 to R227) -/

/-- The address of an XOP's vector (R225). -/
theorem xopVector_eq (n : BitVec 4) : (0x0040 : Word) + 4 * n.setWidth 16 = BitVec.ofNat 16 (0x0040 + 4 * n.toNat) := by
  apply BitVec.eq_of_toNat_eq
  simp

/-- The status of XOP, bit by bit: ST6 set, ST7 to ST11 cleared (R225). -/
theorem getLsbD_xopStatus (st : Word) {i : Nat} (hi : i < 16) :
    (xopStatus st).getLsbD i = if i = stX then true else if 4 ≤ i ∧ i ≤ 8 then false else st.getLsbD i := by
  have clear : (0xFE0F : Word).getLsbD i = !decide (4 ≤ i ∧ i ≤ 8) := by
    interval_cases i <;> rfl
  unfold xopStatus stClear7to11
  rw [getLsbD_stPut _ _ _ _ hi, BitVec.getLsbD_and, clear]
  by_cases h : 4 ≤ i ∧ i ≤ 8 <;> simp [h]

section
variable (s : State) (sop : Operand) (n : BitVec 4)

/-- The state in which XOP has derived SA and read both words of the vector at `vec` (R225). -/
def State.vectorState (vec : Word) : State := (((s.ea sop .word).2.readWord vec).2.readWord (vec + 2)).2

theorem vectorState_drew (vec : Word) : OnlyDrew (s.ea sop .word).2.bus (s.vectorState sop vec).bus :=
  (onlyDrew_readWord ..).trans (onlyDrew_readWord ..)

theorem vectorState_kept (vec : Word) : KeptOutside s (s.vectorState sop vec) (Bumps sop s.wp) :=
  .read (.read (.derived (.refl ..) fun _ hx => hx))

theorem vectorState_st (vec : Word) : (s.vectorState sop vec).st = s.st := ea_st s sop .word

/-- XOP is a context switch after SA is stored in the new WR11 (R225, R420). -/
theorem exec_xop :
    let q := s.ea sop .word
    let vec := BitVec.ofNat 16 (0x0040 + 4 * n.toNat)
    let newWp := busReadWord s.plat q.2.bus vec
    let newPc := busReadWord s.plat q.2.tickDraws.bus (vec + 2)
    exec (.xop sop n) s = .next { (((s.vectorState sop vec).writeWord (wrAddr (evenAddr newWp) 11) q.1).enter newWp
      newPc).mapSt xopStatus with inhibit := .maskable } := by
  intro q vec newWp newPc
  show execXop sop n s = _
  have plat : q.2.plat = s.plat := ea_plat ..
  have hw : (q.2.readWord vec).1 = newWp := by rw [State.readWord_fst, plat]
  have hp : ((q.2.readWord vec).2.readWord (vec + 2)).1 = newPc := by
    rw [State.readWord_fst, State.readWord_snd, State.inputCycles_plat, busReadWord_inputCycles, plat]
  rw [← hw, ← hp]
  unfold execXop
  simp only [xopVector_eq]
  rfl

end

theorem ContextStored.midFlag {p : Platform} {b c : Bus} {w wp pc st : Word} (h : ContextStored p b c w wp pc st) :
    c.midFlag = b.midFlag := by
  obtain ⟨b1, b2, ⟨-, h1, -⟩, ⟨-, h2, -⟩, ⟨-, h3, -⟩⟩ := h
  rw [h3, h2, h1]

/-- A context switch after one more store: the four stores in order, the frame, and what the bus keeps (R420). -/
theorem enterAfter_spec {s u : State} {b : Bus} {touched : Word → Prop} (drew : OnlyDrew b u.bus)
    (kept : KeptOutside s u touched) (a v newWp newPc : Word) :
    let t := (u.writeWord a v).enter newWp newPc
    let w := evenAddr newWp
    (∃ m, WordStored s.plat b m a v ∧ ContextStored s.plat m t.bus w s.wp u.pc u.st) ∧
      t = { s with pc := evenAddr newPc, wp := w, st := u.st, bus := t.bus } ∧
      t.bus.flags = s.bus.flags ∧ t.bus.midFlag = s.bus.midFlag ∧
      BusKeptOutside s.plat s.bus t.bus fun x => touched x ∨ InWord a x ∨
        InWord (wrAddr w 13) x ∨ InWord (wrAddr w 14) x ∨ InWord (wrAddr w 15) x := by
  intro t w
  obtain ⟨stored, written⟩ := writeAfter_spec drew kept a v
  have context : ContextStored s.plat (u.writeWord a v).bus t.bus w s.wp u.pc u.st := by
    have h := enter_stored (u.writeWord a v) newWp newPc
    rwa [written.plat, written.wp] at h
  obtain ⟨frame, flags, midFlag, bus⟩ := written
  refine ⟨⟨_, stored, context⟩, ?_, context.flags.trans flags, ?_, ?_⟩
  · exact congrArg (fun r : State => { r with pc := evenAddr newPc, wp := w, bus := t.bus }) frame
  · exact context.midFlag.trans midFlag
  · exact (bus.mono fun _ hx => hx.imp_right .inl).trans (context.kept.mono fun _ hx => .inr (.inr hx))

/-- What XOP writes after its context switch: ST, and the inhibit (R225, R227). -/
theorem xopMarks_frame {s r : State} {pc wp st : Word}
    (h : r = { s with pc := pc, wp := wp, st := st, bus := r.bus }) :
    let t := { r.mapSt xopStatus with inhibit := .maskable }
    t.wp = wp ∧ t.pc = pc ∧ t.st = xopStatus st ∧
      t = { s with pc := t.pc, wp := t.wp, st := t.st, bus := t.bus, inhibit := .maskable } := by
  rw [h]
  exact ⟨rfl, rfl, rfl, rfl⟩

/-! ### The statements -/

/-- Settles O18: the halves of the product stored one after the other, the whole of it compared. -/
theorem multiplySigned : Obligations.MultiplySigned := by
  intro sop s q product
  obtain ⟨⟨m, high, low⟩, kept⟩ := writeTwice_spec (sourceRegState_drew s sop 0) (sourceRegState_kept s sop 0)
    (wrAddr s.wp 0) (BitVec.ofInt 16 (product / 65536)) (wrAddr s.wp 1) (BitVec.ofInt 16 product)
  have compared := (cmp0_compared (BitVec.ofInt 32 product) (s.sourceRegState sop 0).st).signed
  rw [show (BitVec.ofInt 32 product).toInt = product from toInt_ofInt_product ..] at compared
  obtain ⟨logical, arithmetic, equal⟩ := compared
  exact ⟨_, m, exec_mpys s sop, high, low, logical, arithmetic, equal,
    .cmp0 _ (.of_eq (sourceRegState_st s sop 0)), kept.status _⟩

/-- Settles O19: the truncated division is the only one, so that DIVS has a result exactly where a quotient fits. -/
theorem divideSigned : Obligations.DivideSigned := by
  intro sop s q n
  have dividend : (s.sourceReg sop 0 ++ s.signedDividendLow sop : BitVec 32).toInt = n := joined_toInt ..
  constructor
  · intro quot rem division above below
    rw [← dividend] at division
    obtain ⟨⟨m, quotient, remainder⟩, kept⟩ := writeTwice_spec (dividedState_drew s sop) (dividedState_kept s sop)
      (wrAddr s.wp 0) (BitVec.ofInt 16 quot) (wrAddr s.wp 1) (BitVec.ofInt 16 rem)
    exact ⟨_, m, exec_divs_quotient s sop (divSigned_eq_some division above below), quotient, remainder,
      (cmp0_compared ..).put (by decide), getLsbD_stPut_same (by decide) ..,
      .divsQuotient _ (.of_eq (dividedState_st s sop)), kept.status _⟩
  · intro noQuotient
    rw [← dividend] at noQuotient
    exact ⟨_, exec_divs_overflow s sop (divSigned_eq_none noQuotient),
      (dividedState_drew s sop).trans (onlyDrew_tickDraws _), getLsbD_stPut_same (by decide) ..,
      .divsOverflow _ (.of_eq (dividedState_st s sop)), (dividedState_kept s sop).tick.status _⟩

/-- Settles O20: the store of SA, then the context switch, then ST. -/
theorem extendedOperation : Obligations.ExtendedOperation := by
  intro sop n s q vec w
  obtain ⟨⟨m, stored, context⟩, frame, flags, midFlag, kept⟩ := enterAfter_spec (vectorState_drew s sop vec)
    (vectorState_kept s sop vec) (wrAddr w 11) q.1 (busReadWord s.plat q.2.bus vec)
    (busReadWord s.plat q.2.tickDraws.bus (vec + 2))
  rw [vectorState_st] at context frame
  obtain ⟨newWp, newPc, status, frame⟩ := xopMarks_frame frame
  refine ⟨_, m, exec_xop s sop n, newWp, newPc, stored, context, fun i hi => ?_, frame, flags, midFlag, kept⟩
  rw [status]
  exact getLsbD_xopStatus s.st hi

end Sys2Proof.Machine
end

section
/-! PROOFS of the statements of 43_single_operand.md: the branches, the instructions that write their one operand,
and X. -/

namespace Sys2Proof

/-! ### Opcodes under the mask of format SINGLE (R240) -/

/-- The decoder gives the only term a word stands for. -/
theorem StandsFor.decode_eq {w : Word} {i : Instr} (h : StandsFor w i) : decode w = i :=
  (congrArg decode h.encodes).symm.trans (decode_encode h.wellFormed)

/-- A word with the opcode of a row of format SINGLE decodes to the row's instruction on its operand field. -/
theorem decode_of_single_opcode {w : Word} {i : Instr} (op : BitVec 10) (he : encode i = encSingle op (srcOf w))
    (hw : i.wellFormed = (srcOf w).wellFormed) (h : w &&& 0xFFC0 = op ++ 0#6) : decode w = i := by
  have value : (op ++ 0#6 : Word).toNat = op.toNat * 64 := by rw [toNat_append_eq]; rfl
  have bounds := (and_leading_eq_iff w (op ++ 0#6) 6 (by omega)).mp h
  exact (StandsFor.single he hw (by omega)).decode_eq

end Sys2Proof

namespace Sys2Proof.Machine

/-! ### The state after SA is derived (R140) -/

section
variable (s : State) (sop : Operand)

theorem ea_kept (size : Size) : KeptOutside s (s.ea sop size).2 (Bumps sop s.wp) :=
  .derived (.refl ..) fun _ hx => hx

/-! ### A result stored at SA (R240) -/

/-- A read-modify-write of the operand, as an effect of the whole instruction. -/
theorem modifySingle_wrote (f : Word → Word) (g : Word → Word → Word) {mask : Word}
    (within : ∀ v st, StatusKept mask st (g v st)) :
    let q := s.ea sop .word
    let old := busReadWord s.plat q.2.bus q.1
    let t := s.modifySingle sop f g
    SingleWrote s t sop (f old) mask ∧ t.st = g old s.st := by
  intro q old t
  obtain ⟨stored, status, -, kept⟩ := modifySingle_spec s sop f g
  exact ⟨⟨stored, status ▸ within .., kept⟩, status⟩

/-- A store at SA that reads no operand keeps ST (R151). -/
theorem writeSingle_wrote (v : Word) :
    let t := s.writeSingle sop v
    SingleWrote s t sop v 0 ∧ t.st = s.st := by
  intro t
  obtain ⟨stored, status, -, kept⟩ := writeSingle_spec s sop v
  exact ⟨⟨stored, .of_eq status, kept⟩, status⟩

/-- An operand put through the adder: its result stored and compared, its carry and overflow in ST3 and ST4. -/
theorem adderSingle_wrote (sum : Word → AluSum 16) :
    let q := s.ea sop .word
    let old := busReadWord s.plat q.2.bus q.1
    let t := s.modifySingle sop (fun v => (sum v).r) (fun v => stSum (sum v))
    SingleWrote s t sop (sum old).r 0xF800 ∧ ComparedToZero (sum old).r t.st ∧
      t.st.getLsbD stC = (sum old).c ∧ t.st.getLsbD stOV = (sum old).ov := by
  intro q old t
  obtain ⟨wrote, status⟩ := modifySingle_wrote s sop (fun v => (sum v).r) (fun v => stSum (sum v))
    fun _ st => .stSum _ (.refl _ st)
  refine ⟨wrote, ?_⟩
  rw [status]
  exact ⟨stSum_compared .., getLsbD_stSum ..⟩

end

/-! ### Words as integers -/

theorem word_toInt (v : Word) : v.toInt = if v.toNat < 32768 then (v.toNat : Int) else v.toNat - 65536 := by
  rw [BitVec.toInt_eq_toNat_cond]
  split_ifs <;> omega

theorem outOfRange_word (x : Int) : outOfRange 16 x = decide (x < -32768 ∨ 32768 ≤ x) := rfl

/-- The one's complement is the distance to 65535 (R246). -/
theorem not_eq_ofNat (v : Word) : ~~~v = BitVec.ofNat 16 (65535 - v.toNat) := by
  apply BitVec.eq_of_toNat_eq
  rw [BitVec.toNat_not, BitVec.toNat_ofNat, Nat.mod_eq_of_lt (by omega)]

theorem neg_eq_ofInt (v : Word) : 0 - v = BitVec.ofInt 16 (-v.toInt) := by
  rw [← Int.zero_sub, ← ofInt_sub_toInt]
  rfl

/-- The absolute value negates exactly the operands with a sign bit (R248). -/
theorem abs_eq_ofInt (v : Word) : (if v.msb then 0 - v else v) = BitVec.ofInt 16 |v.toInt| := by
  rw [BitVec.msb_eq_toInt]
  by_cases negative : v.toInt < 0
  · rw [decide_eq_true negative, if_pos rfl, neg_eq_ofInt, abs_of_neg negative]
  · rw [decide_eq_false negative, if_neg Bool.false_ne_true, abs_of_nonneg (not_lt.mp negative), BitVec.ofInt_toInt]

/-- >8000 is the one word whose negation does not fit (R247, R248). -/
theorem beq_least_iff (v : Word) : (v == 0x8000) = decide (v.toInt = -32768) := by
  rw [Bool.eq_iff_iff, beq_iff_eq, decide_eq_true_eq, ← BitVec.toInt_inj]
  rfl

/-! ### The adder on an operand and a constant (R247, R250 to R253) -/

/-- Negation: carry only for 0, overflow only for >8000 (R247, D4). -/
theorem subN_zero_flags (v : Word) :
    (subN 0 v).c = decide (v.toNat = 0) ∧ (subN 0 v).ov = decide (v.toInt = -32768) := by
  have range := word_toInt v
  have zero : (0 : Word).toInt = 0 := rfl
  constructor
  · rw [subN_c, decide_eq_decide]
    exact Nat.le_zero
  · rw [subN_ov, outOfRange_word, zero, decide_eq_decide]
    split_ifs at range <;> omega

section
variable {v k : Word} {n : Nat} (hk : k.toNat = n) (small : n < 32768)
include hk small

/-- A constant below >8000 as the adder sees it. -/
theorem toInt_of_small : k.toInt = n := by
  rw [word_toInt, hk, if_pos small]

/-- Adding a small constant: the result, the carry where the sum leaves 16 bits, the overflow where a positive
operand passes >7FFF. -/
theorem addN_small :
    (addN v k).r = BitVec.ofInt 16 (v.toInt + n) ∧ (addN v k).c = decide (65536 ≤ v.toNat + n) ∧
      (addN v k).ov = decide (v.toNat < 32768 ∧ 32768 ≤ v.toNat + n) := by
  have constant := toInt_of_small hk small
  have range := word_toInt v
  refine ⟨?_, ?_, ?_⟩
  · apply BitVec.eq_of_toInt_eq
    rw [addN_r, ← constant, BitVec.toInt_ofInt, BitVec.toInt_add]
  · rw [addN_c, hk]
    rfl
  · rw [addN_ov, outOfRange_word, constant, decide_eq_decide]
    split_ifs at range <;> omega

/-- Subtracting a small constant: the carry where nothing is borrowed, the overflow where a negative operand
passes >8000. -/
theorem subN_small :
    (subN v k).r = BitVec.ofInt 16 (v.toInt - n) ∧ (subN v k).c = decide (n ≤ v.toNat) ∧
      (subN v k).ov = decide (32768 ≤ v.toNat ∧ v.toNat < 32768 + n) := by
  have constant := toInt_of_small hk small
  have range := word_toInt v
  refine ⟨?_, ?_, ?_⟩
  · rw [subN_r, ← constant, ofInt_sub_toInt]
  · rw [subN_c, hk]
  · rw [subN_ov, outOfRange_word, constant, decide_eq_decide]
    split_ifs at range <;> omega

end

section
variable (s : State) (sop : Operand) {k : Word} {n : Nat} (hk : k.toNat = n) (small : n < 32768)
include hk small

/-- INC and INCT for any small constant (R250, R251). -/
theorem increment_wrote :
    let q := s.ea sop .word
    let old := busReadWord s.plat q.2.bus q.1
    let t := s.modifySingle sop (fun v => (addN v k).r) (fun v => stSum (addN v k))
    SingleWrote s t sop (BitVec.ofInt 16 (old.toInt + n)) 0xF800 ∧
      ComparedToZero (BitVec.ofInt 16 (old.toInt + n)) t.st ∧ t.st.getLsbD stC = decide (65536 ≤ old.toNat + n) ∧
      t.st.getLsbD stOV = decide (old.toNat < 32768 ∧ 32768 ≤ old.toNat + n) := by
  intro q old t
  obtain ⟨result, carry, overflow⟩ := addN_small (v := old) hk small
  rw [← result, ← carry, ← overflow]
  exact adderSingle_wrote s sop fun v => addN v k

/-- DEC and DECT for any small constant (R252, R253). -/
theorem decrement_wrote :
    let q := s.ea sop .word
    let old := busReadWord s.plat q.2.bus q.1
    let t := s.modifySingle sop (fun v => (subN v k).r) (fun v => stSum (subN v k))
    SingleWrote s t sop (BitVec.ofInt 16 (old.toInt - n)) 0xF800 ∧
      ComparedToZero (BitVec.ofInt 16 (old.toInt - n)) t.st ∧ t.st.getLsbD stC = decide (n ≤ old.toNat) ∧
      t.st.getLsbD stOV = decide (32768 ≤ old.toNat ∧ old.toNat < 32768 + n) := by
  intro q old t
  obtain ⟨result, carry, overflow⟩ := subN_small (v := old) hk small
  rw [← result, ← carry, ← overflow]
  exact adderSingle_wrote s sop fun v => subN v k

end

/-! ### ABS (R248) -/

/-- The status of ABS: the operand compared, no carry, overflow only for >8000 (D5). -/
theorem absStatus_spec (v st : Word) :
    ComparedToZero v (absStatus v st) ∧ (absStatus v st).getLsbD stC = false ∧
      (absStatus v st).getLsbD stOV = decide (v.toInt = -32768) := by
  refine ⟨((cmp0_compared v st).put (by decide)).put (by decide), getLsbD_stPut_same (by decide) .., ?_⟩
  rw [absStatus, getLsbD_stPut _ _ _ _ (by decide), if_neg (by decide), getLsbD_stPut_same (by decide), beq_least_iff]

/-! ### The target of an X (R254) -/

/-- On the CPU's turn a pending target is the step, with no boundary before it (D21). -/
theorem step_pending {s : State} {v : Word} (turn : CpuTurn s) (noReset : s.resetPending = false)
    (pending : s.xPending = some v) : step s = { s with xPending := none }.run (decode v) := by
  obtain ⟨agenda, active, held⟩ := turn
  rw [step_of_agenda_nil agenda]
  simp [State.cpuStep, active, held, noReset, pending]

/-! ### The statements -/

/-- Settles O21: SA is derived, BL stores PC as it stands then, and PC is loaded. -/
theorem branchAndLink : Obligations.BranchAndLink := by
  intro sop s q
  have derived : KeptOutside s q.2 (Bumps sop s.wp) := ea_kept s sop .word
  obtain ⟨linked, kept⟩ := writeAfter_spec (.refl _) derived (wrAddr s.wp 11) q.2.pc
  have link : q.2.writeReg 11 q.2.pc = q.2.writeWord (wrAddr s.wp 11) q.2.pc := by rw [State.writeReg, derived.wp]
  constructor
  · exact ⟨_, rfl, rfl, ea_st s sop .word, rfl, derived.jumpTo _⟩
  · refine ⟨(q.2.writeWord (wrAddr s.wp 11) q.2.pc).setPc q.1, ?_, rfl, ea_st s sop .word, linked, kept.jumpTo _⟩
    rw [← link]
    rfl

/-- Settles O22: the context switch through the vector at SA, seen from before SA is derived. -/
theorem branchAndLoadWorkspace : Obligations.BranchAndLoadWorkspace := by
  intro sop s q w
  obtain ⟨frame, flags, midFlag, kept⟩ := ea_kept s sop .word
  have plat : q.2.plat = s.plat := ea_plat s sop .word
  have context := contextSwitch_stored q.2 q.1
  have switched := contextSwitch_core q.2 q.1
  rw [plat, ea_wp s sop .word, ea_st s sop .word] at context
  rw [plat] at switched
  refine ⟨{ q.2.contextSwitch q.1 with inhibit := .maskable }, rfl, ?_, ?_, context, ?_,
    context.flags.trans flags, context.midFlag.trans midFlag,
    (kept.mono fun _ hx => .inl hx).trans (context.kept.mono fun _ hx => .inr hx)⟩
  · show (q.2.contextSwitch q.1).wp = w
    rw [switched]
  · show (q.2.contextSwitch q.1).pc = _
    rw [switched]
  · rw [switched, ea_core s sop .word]

/-- Settles O25: each result as the integer it stands for; ABS compares what it read. -/
theorem invertNegateAbsolute : Obligations.InvertNegateAbsolute := by
  intro sop s q old
  refine ⟨?inv, ?neg, ?abs⟩
  case inv =>
    obtain ⟨wrote, status⟩ := modifySingle_wrote s sop (fun v => ~~~v) (fun v => cmp0 (~~~v))
      fun _ st => .cmp0 _ (.refl _ st)
    rw [← not_eq_ofNat]
    exact ⟨_, rfl, wrote, status ▸ cmp0_compared ..⟩
  case neg =>
    obtain ⟨wrote, compared, carry, overflow⟩ := adderSingle_wrote s sop (subN 0)
    obtain ⟨noBorrow, least⟩ := subN_zero_flags old
    rw [← neg_eq_ofInt, ← subN_r]
    exact ⟨_, rfl, wrote, compared, carry.trans noBorrow, overflow.trans least⟩
  case abs =>
    obtain ⟨wrote, status⟩ := modifySingle_wrote s sop (fun v => if v.msb then 0 - v else v) absStatus
      fun v st => .abs v (.refl _ st)
    obtain ⟨compared, carry, overflow⟩ := absStatus_spec old s.st
    rw [← abs_eq_ofInt]
    exact ⟨_, rfl, wrote, status ▸ compared, status ▸ carry, status ▸ overflow⟩

/-- Settles O26: the adder with the constants 1 and 2; the operands listed are those at which it carries or
overflows. -/
theorem incrementAndDecrement : Obligations.IncrementAndDecrement := by
  intro sop s q old
  have bound := old.isLt
  refine ⟨?inc, ?inct, ?dec, ?dect⟩
  case inc =>
    obtain ⟨wrote, compared, carry, overflow⟩ := increment_wrote s sop (k := 1) (n := 1) rfl (by decide)
    have carries : 65536 ≤ old.toNat + 1 ↔ old.toNat = 0xFFFF := by omega
    have overflows : old.toNat < 32768 ∧ 32768 ≤ old.toNat + 1 ↔ old.toNat = 0x7FFF := by omega
    exact ⟨_, _, rfl, wrote, rfl, compared, carry.trans (decide_eq_decide.mpr carries),
      overflow.trans (decide_eq_decide.mpr overflows)⟩
  case inct =>
    obtain ⟨wrote, compared, carry, overflow⟩ := increment_wrote s sop (k := 2) (n := 2) rfl (by decide)
    have carries : 65536 ≤ old.toNat + 2 ↔ old.toNat = 0xFFFE ∨ old.toNat = 0xFFFF := by omega
    have overflows : old.toNat < 32768 ∧ 32768 ≤ old.toNat + 2 ↔ old.toNat = 0x7FFE ∨ old.toNat = 0x7FFF := by
      omega
    exact ⟨_, _, rfl, wrote, rfl, compared, carry.trans (decide_eq_decide.mpr carries),
      overflow.trans (decide_eq_decide.mpr overflows)⟩
  case dec =>
    obtain ⟨wrote, compared, carry, overflow⟩ := decrement_wrote s sop (k := 1) (n := 1) rfl (by decide)
    have carries : 1 ≤ old.toNat ↔ old.toNat ≠ 0 := by omega
    have overflows : 32768 ≤ old.toNat ∧ old.toNat < 32768 + 1 ↔ old.toNat = 0x8000 := by omega
    exact ⟨_, _, rfl, wrote, rfl, compared, carry.trans (decide_eq_decide.mpr carries),
      overflow.trans (decide_eq_decide.mpr overflows)⟩
  case dect =>
    obtain ⟨wrote, compared, carry, overflow⟩ := decrement_wrote s sop (k := 2) (n := 2) rfl (by decide)
    have carries : 2 ≤ old.toNat ↔ old.toNat ≠ 0 ∧ old.toNat ≠ 1 := by omega
    have overflows : 32768 ≤ old.toNat ∧ old.toNat < 32768 + 2 ↔ old.toNat = 0x8000 ∨ old.toNat = 0x8001 := by
      omega
    exact ⟨_, _, rfl, wrote, rfl, compared, carry.trans (decide_eq_decide.mpr carries),
      overflow.trans (decide_eq_decide.mpr overflows)⟩

/-- Settles O27: the target runs at once unless it is again an X, which waits for the next step. -/
theorem executeRunsItsTarget : Obligations.ExecuteRunsItsTarget := by
  constructor
  · intro sop s v
    have runs : exec (.x sop) s = execTarget v.1 v.2 := rfl
    cases target : isX v.1 with
    | true => exact ⟨_, runs.trans (execTarget_x target v.2), (if_pos rfl).mpr rfl⟩
    | false =>
      obtain ⟨t, completes, -⟩ := exec_executed (decode v.1) v.2
      rw [execTarget_eq target, completes] at runs
      exact ⟨t, runs, (if_neg Bool.false_ne_true).mpr completes⟩
  · intro s v turn noReset pending
    obtain ⟨t, completes, -⟩ := exec_executed (decode v) { s with xPending := none }
    exact ⟨t, completes, (step_pending turn noReset pending).trans (run_of_exec completes)⟩

/-- Settles O23: both opcodes under their mask, and the store at SA. -/
theorem clearAndSetToOnes : Obligations.ClearAndSetToOnes :=
  ⟨fun _ h => decode_of_single_opcode 0b0000010011 rfl rfl h,
    fun _ h => decode_of_single_opcode 0b0000011100 rfl rfl h,
    fun sop s => ⟨⟨_, rfl, writeSingle_wrote s sop 0x0000⟩, ⟨_, rfl, writeSingle_wrote s sop 0xFFFF⟩⟩⟩

/-- Settles O24: the bytes of what is read, joined the other way round. -/
theorem swapBytes : Obligations.SwapBytes := by
  refine ⟨fun _ h => decode_of_single_opcode 0b0000011011 rfl rfl h, ?_⟩
  intro sop s q old
  obtain ⟨wrote, status⟩ := modifySingle_wrote s sop (fun v => lowByte v ++ highByte v) (fun _ st => st)
    fun _ st => .refl 0 st
  exact ⟨_, lowByte old ++ highByte old, rfl, wrote, status, highByte_append .., lowByte_append ..⟩

end Sys2Proof.Machine
end

section
/-! PROOFS of the statements of 44_cru.md: the single-bit instructions SBO, SBZ and TB. -/

namespace Sys2Proof.Machine

/-! ### The address of a single bit (R148, R286; D10) -/

/-- The base and the displacement as integers, their sum cut to the fifteen address lines. -/
theorem cruBitAddr_eq_ofInt (v : Word) (disp : BitVec 8) :
    cruBitAddr v disp = BitVec.ofInt 15 ((v.toNat : Int) / 2 + disp.toInt) := by
  have base : cruBase v = BitVec.ofInt 15 ((v.toNat : Int) / 2) := by
    apply BitVec.eq_of_toNat_eq
    have bound := v.isLt
    rw [cruBase_toNat, BitVec.toNat_ofInt]
    omega
  rw [cruBitAddr, base, BitVec.signExtend, ← BitVec.ofInt_add]

/-! ### One output cycle (R79, R283, R284) -/

/-- An output cycle at an address is a field of one bit there. -/
theorem busCruOut_written (b : Bus) (a : CruAddr) (v : Bool) :
    CruFieldWritten b (busCruOut b a v) a.toNat 1 fun _ => v := by
  have bound : a.toNat % 32768 = a.toNat := Nat.mod_eq_of_lt a.isLt
  refine ⟨rfl, rfl, rfl, ?events, fun k hk => ?flags, ?midSent, ?midKept⟩
  case events => simp [busCruOut]
  case flags =>
    have flag := getLsbD_busCruOut b a v k hk
    constructor
    · intro i hi sent stored
      exact flag.trans (if_pos ⟨by omega, stored⟩)
    · intro other
      refine flag.trans (if_neg fun ⟨sent, stored⟩ => ?_)
      obtain elsewhere | unstored := other
      · exact elsewhere 0 Nat.one_pos (bound.trans sent)
      · exact stored unstored
  case midSent =>
    intro i hi sent
    exact if_pos (by omega)
  case midKept =>
    intro elsewhere
    exact if_neg fun sent => elsewhere 0 Nat.one_pos (bound.trans sent)

/-- SBO and SBZ read WR12 and then do their one output cycle; only the bus changes. -/
theorem cruSet_spec (s : State) (disp : BitVec 8) (v : Bool) :
    let a := cruBitAddr (busReadWord s.plat s.bus (wrAddr s.wp 12)) disp
    let t := s.cruSet disp v
    OnlyDrew s.bus (s.readReg 12).2.bus ∧ CruFieldWritten (s.readReg 12).2.bus t.bus a.toNat 1 (fun _ => v) ∧
      t = { s with bus := t.bus } :=
  ⟨onlyDrew_readReg s 12, busCruOut_written _ _ v, rfl⟩

/-! ### One input cycle (R78, R285) -/

/-- TB after WR12 is read: the bit of one input cycle into ST2, which changes nothing but ST and the bus. -/
theorem exec_tb (disp : BitVec 8) (s : State) :
    let a := cruBitAddr (busReadWord s.plat s.bus (wrAddr s.wp 12)) disp
    exec (.tb disp) s = .next (((s.readReg 12).2.cruIn a).2.mapSt (stPut stEQ (s.tickDraws.cruBit a))) := rfl

/-! ### The statements -/

/-- Settles O30: the address as an integer sum, then an output cycle for SBO and SBZ and an input cycle for TB. -/
theorem singleCruBits : Obligations.SingleCruBits := by
  intro disp s base a
  have address : cruBitAddr (busReadWord s.plat s.bus (wrAddr s.wp 12)) disp = a := cruBitAddr_eq_ofInt ..
  have output (v : Bool) := cruSet_spec s disp v
  have tested := exec_tb disp s
  simp only [address] at output tested
  refine ⟨⟨_, _, rfl, output true⟩, ⟨_, _, rfl, output false⟩,
    _, tested, getLsbD_stPut_same (by decide) .., .equal _ (.refl _ s.st), ?_, rfl⟩
  exact (onlyDrew_readReg s 12).trans (onlyDrew_cruIn _ a)

end Sys2Proof.Machine
end

section
/-! PROOFS of the statements of 45_jump_shift.md: the thirteen jumps, and the shifts as arithmetic on the word
they shift. -/

namespace Sys2Proof.Machine

/-! ### Jumps (R310) -/

/-- The displacement in words added to PC, as an integer sum cut to 16 bits. -/
theorem jumpTarget_eq_ofInt (pc : Word) (d : BitVec 8) :
    pc + 2 * d.signExtend 16 = BitVec.ofInt 16 (pc.toInt + 2 * d.toInt) := by
  rw [BitVec.ofInt_add, BitVec.ofInt_mul, BitVec.ofInt_toInt]
  rfl

/-- A jump is taken exactly where its test of ST holds, and changes nothing else. -/
theorem exec_of_jump {s : State} {d : BitVec 8} {i : Instr} {test : Bool} {p : Prop} [Decidable p]
    (meaning : exec i s = .next (s.jump d test)) (condition : test = true ↔ p) :
    exec i s = .next (if p then { s with pc := BitVec.ofInt 16 (s.pc.toInt + 2 * d.toInt) } else s) := by
  rw [meaning, jump_spec, jumpTarget_eq_ofInt]
  by_cases holds : p
  · rw [if_pos holds, if_pos (condition.mpr holds)]
  · rw [if_neg holds, if_neg (mt condition.mp holds)]

/-! ### What a shift stores (R330) -/

theorem shiftCount_eq_amount (s : State) (c : BitVec 4) : (s.shiftCount c).1 = ShiftAmount s c := shiftCount_fst s c

theorem shiftAmount_range (s : State) (c : BitVec 4) : 1 ≤ ShiftAmount s c ∧ ShiftAmount s c ≤ 16 :=
  shiftCount_eq_amount s c ▸ shiftCount_range s c

/-- A shift that writes the status bits of a mask, in the words of its statement. -/
theorem shift_wrote (s : State) (w : Reg) (c : BitVec 4) (f : Word → Nat → Shifted) (g : Word → Nat → Word → Word)
    {mask : Word} (within : ∀ v n st, StatusKept mask st (g v n st)) :
    let n := ShiftAmount s c
    let v := ShiftedValue s w c
    let t := s.shift w c f g
    RegisterWrote s t w (f v n).r mask ∧ t.pc = s.pc ∧ t.st = g v n s.st := by
  intro n v t
  obtain ⟨stored, status, pc, kept⟩ := shift_spec s w c f g
  rw [shiftCount_eq_amount] at stored status
  exact ⟨⟨stored, status ▸ within .., kept⟩, pc, status⟩

/-- ST0 to ST3 of a shift: its result compared with 0, and the last bit shifted out. -/
theorem stShift_flags (x : Shifted) (st : Word) :
    ComparedToZero x.r (stShift x st) ∧ (stShift x st).getLsbD stC = x.c :=
  ⟨(cmp0_compared x.r st).put (by decide), getLsbD_stPut_same (by decide) ..⟩

/-- A right shift: result and carry of its function, ST4 not written. -/
theorem shiftRight_wrote (s : State) (w : Reg) (c : BitVec 4) (f : Word → Nat → Shifted) :
    let x := f (ShiftedValue s w c) (ShiftAmount s c)
    let t := s.shift w c f fun v n => stShift (f v n)
    RegisterWrote s t w x.r 0xF000 ∧ t.pc = s.pc ∧ ComparedToZero x.r t.st ∧ t.st.getLsbD stC = x.c := by
  intro x t
  obtain ⟨wrote, pc, status⟩ := shift_wrote s w c f (fun v n => stShift (f v n))
    fun _ _ st => .stShift _ (.inl rfl) (.refl _ st)
  refine ⟨wrote, pc, ?_⟩
  rw [status]
  exact stShift_flags x s.st

/-! ### Shifted words as numbers (R331 to R334) -/

theorem shiftLeft_eq_ofNat {m : Nat} (v : BitVec m) (n : Nat) : v <<< n = BitVec.ofNat m (v.toNat * 2 ^ n) := by
  apply BitVec.eq_of_toNat_eq
  rw [BitVec.toNat_shiftLeft, BitVec.toNat_ofNat, Nat.shiftLeft_eq]

/-- The overflow of SLA: the MSB differs from the original one at some place of the shift. -/
theorem shiftLeftOverflow_iff (v : Word) (n : Nat) :
    shiftLeftOverflow v n = true ↔ ∃ k, 1 ≤ k ∧ k ≤ n ∧ (v <<< k).msb ≠ v.msb := by
  simp only [shiftLeftOverflow, List.any_eq_true, List.mem_range, bne_iff_ne]
  constructor
  · rintro ⟨k, below, changed⟩
    exact ⟨k + 1, Nat.le_add_left 1 k, below, changed⟩
  · rintro ⟨k, positive, within, changed⟩
    exact ⟨k - 1, by omega, by rwa [Nat.sub_add_cancel positive]⟩

/-- Copies of the sign come in from the left: division rounding down. -/
theorem sshiftRight_eq_ofInt {m : Nat} (v : BitVec m) (n : Nat) :
    v.sshiftRight n = BitVec.ofInt m (v.toInt / 2 ^ n) := by
  rw [BitVec.sshiftRight, Int.shiftRight_eq_div_pow]
  norm_cast

theorem ushiftRight_eq_ofNat {m : Nat} (v : BitVec m) (n : Nat) : v >>> n = BitVec.ofNat m (v.toNat / 2 ^ n) := by
  apply BitVec.eq_of_toNat_eq
  rw [BitVec.toNat_ushiftRight, BitVec.toNat_ofNat, Nat.shiftRight_eq_div_pow,
    Nat.mod_eq_of_lt ((Nat.div_le_self ..).trans_lt v.isLt)]

/-- The bits shifted out on the right come in on the left. -/
theorem getLsbD_shiftRightCircular (v : Word) {n : Nat} (bound : n ≤ 16) {i : Nat} (hi : i < 16) :
    (shiftRightCircular v n).r.getLsbD i = v.getLsbD ((i + n) % 16) := by
  simp only [shiftRightCircular, BitVec.getLsbD_or, BitVec.getLsbD_ushiftRight, BitVec.getLsbD_shiftLeft]
  by_cases inside : i + n < 16
  · rw [Nat.mod_eq_of_lt inside, decide_eq_true (show i < 16 - n by omega), Nat.add_comm n i]
    simp
  · rw [BitVec.getLsbD_of_ge v (n + i) (by omega), decide_eq_false (show ¬ i < 16 - n by omega), decide_eq_true hi,
      show (i + n) % 16 = i - (16 - n) by omega]
    simp

/-! ### The statements -/

/-- Settles O32: each jump tests the status bits of its condition. -/
theorem jumpsFollowTheirConditions : Obligations.JumpsFollowTheirConditions := by
  intro d s taken bit
  have always : exec (.jmp d) s = .next taken :=
    (exec_of_jump (p := True) rfl (by decide)).trans (by rw [if_pos trivial])
  refine ⟨always, ?_, ?_, ?_, ?_, ?_, ?_, ?_, ?_, ?_, ?_, ?_, ?_⟩
  all_goals exact exec_of_jump rfl (by simp [bit])

/-- Settles O33: the stored word as a product, the flags of the shift, and ST4 over its places. -/
theorem shiftLeftArithmetic : Obligations.ShiftLeftArithmetic := by
  intro w c s n v
  obtain ⟨wrote, pc, status⟩ := shift_wrote s w c shiftLeft
    (fun v n st => stPut stOV (shiftLeftOverflow v n) (stShift (shiftLeft v n) st))
    fun _ _ st => .shiftLeft _ _ (.refl _ st)
  obtain ⟨compared, carry⟩ := stShift_flags (shiftLeft v n) s.st
  refine ⟨_, _, rfl, wrote, pc, shiftLeft_eq_ofNat v n, ?_⟩
  rw [status]
  refine ⟨compared.put (by decide), ?carry, ?overflow⟩
  case carry =>
    rw [getLsbD_stPut _ _ _ _ (by decide), if_neg (by decide)]
    exact carry
  case overflow =>
    rw [getLsbD_stPut_same (by decide)]
    exact shiftLeftOverflow_iff v n

/-- Settles O34: one argument for the three right shifts, each with its result as a number or bit by bit. -/
theorem shiftsRight : Obligations.ShiftsRight := by
  intro w c s n v
  have ⟨_, bound⟩ := shiftAmount_range s c
  refine ⟨?sra, ?srl, ?src⟩
  case sra =>
    obtain ⟨wrote, pc, flags⟩ := shiftRight_wrote s w c shiftRightArith
    exact ⟨_, _, rfl, wrote, pc, sshiftRight_eq_ofInt v n, flags⟩
  case srl =>
    obtain ⟨wrote, pc, flags⟩ := shiftRight_wrote s w c shiftRightLogical
    exact ⟨_, _, rfl, wrote, pc, ushiftRight_eq_ofNat v n, flags⟩
  case src =>
    obtain ⟨wrote, pc, flags⟩ := shiftRight_wrote s w c shiftRightCircular
    exact ⟨_, _, rfl, wrote, pc, fun i hi => getLsbD_shiftRightCircular v bound hi, flags⟩

end Sys2Proof.Machine
end

section
/-! PROOFS of the statements of 46_immediate_internal.md: the immediate instructions, those that load and store ST and
WP, and RTWP, which undoes a context switch. -/

namespace Sys2Proof

/-- A word with the opcode of a row of format REGW decodes to the row's instruction on its register (R114). -/
theorem decode_of_reg_opcode {w : Word} {i : Instr} (op : BitVec 12) (he : encode i = encReg op (sField w))
    (hw : i.wellFormed = true) (h : w &&& 0xFFF0 = op ++ 0#4) : decode w = i := by
  have value : (op ++ 0#4 : Word).toNat = op.toNat * 16 := by rw [toNat_append_eq]; rfl
  have bounds := (and_leading_eq_iff w (op ++ 0#4) 4 (by omega)).mp h
  exact (StandsFor.reg he hw (by omega)).decode_eq

end Sys2Proof

namespace Sys2Proof.Machine

/-! ### A result stored in a register (R350) -/

section
variable {s t u : State} {w : Reg} {mask : Word}

/-- A register written after input cycles alone, ST as it was. -/
theorem writeReg_wrote (drew : OnlyDrew s.bus u.bus) (kept : KeptOutside s u (InWord (wrAddr s.wp w)))
    (status : u.st = s.st) (v : Word) : RegisterWrote s (u.writeReg w v) w v mask := by
  obtain ⟨stored, written⟩ := writeAfter_spec drew kept (wrAddr s.wp w) v
  rw [State.writeReg, kept.wp]
  exact ⟨stored, .of_eq status, written.mono fun _ hx => hx.elim id id⟩

/-- ST written after the register, within the mask. -/
theorem RegisterWrote.status {r : Word} (h : RegisterWrote s t w r mask) {f : Word → Word}
    (within : ∀ st, StatusKept mask st (f st)) : RegisterWrote s (t.mapSt f) w r mask := by
  obtain ⟨stored, status, kept⟩ := h
  exact ⟨stored, status.trans (within t.st), kept.status f⟩

end

section
variable (s : State) (w : Reg)

/-- An IMMW instruction that combines its register with the immediate, as an effect of the whole instruction. -/
theorem immediateWrite_wrote (f : Word → Word → Word) (g : Word → Word → Word → Word) {mask : Word}
    (within : ∀ r iop st, StatusKept mask st (g r iop st)) :
    let iop := busReadWord s.plat s.bus s.pc
    let old := busReadWord s.plat s.fetch.2.bus (wrAddr s.wp w)
    let t := s.immediateWrite w f g
    RegisterWrote s t w (f old iop) mask ∧ t.st = g old iop s.st ∧ t.pc = s.pc + 2 := by
  intro iop old t
  obtain ⟨stored, status, pc, kept⟩ := immediateWrite_spec s w f g
  exact ⟨⟨stored, status ▸ within .., kept⟩, status, pc⟩

/-- ANDI and ORI differ in their bitwise function alone (R353, R354). -/
theorem bitwiseImmediate_wrote (f : Word → Word → Word) :
    let r := f (busReadWord s.plat s.fetch.2.bus (wrAddr s.wp w)) (busReadWord s.plat s.bus s.pc)
    let t := s.immediateWrite w f fun r iop => cmp0 (f r iop)
    RegisterWrote s t w r 0xE000 ∧ ComparedToZero r t.st ∧ t.pc = s.pc + 2 := by
  intro r t
  obtain ⟨wrote, status, pc⟩ := immediateWrite_wrote s w f (fun r iop => cmp0 (f r iop))
    fun _ _ st => .cmp0 _ (.refl _ st)
  exact ⟨wrote, status ▸ cmp0_compared r s.st, pc⟩

end

/-! ### Words read back after a context switch (R370, R420) -/

/-- A word stored where it is held reads back. -/
theorem WordStored.read_back {p : Platform} {b c : Bus} {a v : Word} (h : WordStored p b c a v) (held : HoldsWord p a) :
    busReadWord p c a = v := by
  obtain ⟨high, low⟩ := h.bytes held
  obtain ⟨answersHigh, answersLow⟩ := held.answers
  rw [busReadWord, busReadByte_of_answers answersHigh, busReadByte_of_answers answersLow, high, low, high_low]

/-- A bus change that does not touch a word leaves what is read of it. -/
theorem BusKeptOutside.read_word {p : Platform} {b c : Bus} {touched : Word → Prop} {a : Word}
    (h : BusKeptOutside p b c touched) (held : HoldsWord p a) (apart : ∀ x, InWord a x → ¬ touched x) :
    busReadWord p c a = busReadWord p b a := by
  obtain ⟨answersHigh, answersLow⟩ := held.answers
  rw [busReadWord, h.busReadByte (apart _ (evenAddr_evenAddr a)) answersHigh,
    h.busReadByte (apart (evenAddr a + 1) (evenAddr_succ a)) answersLow]
  rfl

/-- Input cycles change nothing that is read of a held word. -/
theorem OnlyDrew.read_word {p : Platform} {b c : Bus} {a : Word} (h : OnlyDrew b c) (held : HoldsWord p a) :
    busReadWord p c a = busReadWord p b a :=
  (h.kept (u := fun _ => False)).read_word held fun _ _ => id

/-- Two registers of a workspace share no byte (R26). -/
theorem wrAddr_apart (w : Word) {m n : Reg} (ne : m ≠ n) {x : Word} (hm : InWord (wrAddr w m) x) :
    ¬ InWord (wrAddr w n) x := by
  intro hn
  have same : evenAddr (wrAddr w m) = evenAddr (wrAddr w n) := hm.symm.trans hn
  rw [← BitVec.toNat_inj, evenAddr_toNat, evenAddr_toNat, wrAddr_eq_ofNat, wrAddr_eq_ofNat, BitVec.toNat_ofNat,
    BitVec.toNat_ofNat] at same
  have := m.isLt
  have := n.isLt
  exact ne (BitVec.eq_of_toNat_eq (by omega))

/-- The workspace at an address can hold a saved context: its WR13 to WR15 are writable memory. -/
structure HoldsContext (p : Platform) (w : Word) : Prop where
  wp : HoldsWord p (wrAddr w 13)
  pc : HoldsWord p (wrAddr w 14)
  st : HoldsWord p (wrAddr w 15)

theorem HoldsContext.of_writable {p : Platform} {w : Word} (h13 : RegWritable p w 13) (h14 : RegWritable p w 14)
    (h15 : RegWritable p w 15) : HoldsContext p w := ⟨.inl h13, .inl h14, .inl h15⟩

/-- The three stores of a context switch read back: none overwrites another. -/
theorem ContextStored.read_back {p : Platform} {b c : Bus} {w wp pc st : Word}
    (h : ContextStored p b c w wp pc st) (held : HoldsContext p w) :
    busReadWord p c (wrAddr w 13) = wp ∧ busReadWord p c (wrAddr w 14) = pc ∧
      busReadWord p c (wrAddr w 15) = st := by
  obtain ⟨b1, b2, wpStored, pcStored, stStored⟩ := h
  refine ⟨?wp, ?pc, stStored.read_back held.st⟩
  case wp =>
    rw [stStored.kept.read_word held.wp fun _ => wrAddr_apart w (by decide),
      pcStored.kept.read_word held.wp fun _ => wrAddr_apart w (by decide), wpStored.read_back held.wp]
  case pc =>
    rw [stStored.kept.read_word held.pc fun _ => wrAddr_apart w (by decide), pcStored.read_back held.pc]

/-- RTWP gives back the context that was stored in the current workspace, WP and PC without their LSB (R370, R460). -/
theorem returnSwitch_restores {t : State} {b : Bus} {p : Platform} {w wp pc st : Word} (plat : t.plat = p)
    (workspace : t.wp = w) (context : ContextStored p b t.bus w wp pc st) (held : HoldsContext p w)
    (wpEven : wp.getLsbD 0 = false) (pcEven : pc.getLsbD 0 = false) :
    ∃ u, exec .rtwp t = .next u ∧ u.wp = wp ∧ u.pc = pc ∧ u.st = st := by
  subst plat workspace
  obtain ⟨savedWp, savedPc, savedSt⟩ := context.read_back held
  have once := onlyDrew_tickDraws t
  have twice := once.trans (onlyDrew_tickDraws t.tickDraws)
  refine ⟨t.returnSwitch, rfl, ?wp, ?pc, ?st⟩ <;> rw [returnSwitch_core]
  case wp => rw [twice.read_word held.wp, savedWp, evenAddr_of_even wpEven]
  case pc => rw [once.read_word held.pc, savedPc, evenAddr_of_even pcEven]
  case st => exact savedSt

/-! ### The statements -/

/-- Settles O35: LI writes what it fetches; ANDI and ORI are one argument for two bitwise functions. -/
theorem loadAndCombineImmediate : Obligations.LoadAndCombineImmediate := by
  intro w s iop old
  refine ⟨?li, ?andi, ?ori⟩
  case li =>
    have loaded : RegisterWrote s (s.fetch.2.writeReg w iop) w iop 0xE000 :=
      writeReg_wrote (onlyDrew_fetch s) (.fetched (.refl ..)) rfl iop
    exact ⟨_, rfl, loaded.status fun st => .cmp0 iop (.refl _ st), cmp0_compared iop _, rfl⟩
  case andi =>
    obtain ⟨wrote, compared, pc⟩ := bitwiseImmediate_wrote s w (· &&& ·)
    exact ⟨_, old &&& iop, rfl, wrote, compared, pc, fun _ _ => BitVec.getLsbD_and⟩
  case ori =>
    obtain ⟨wrote, compared, pc⟩ := bitwiseImmediate_wrote s w (· ||| ·)
    exact ⟨_, old ||| iop, rfl, wrote, compared, pc, fun _ _ => BitVec.getLsbD_or⟩

/-- Settles O36: the sum and its flags as integers; CI only reads. -/
theorem addAndCompareImmediate : Obligations.AddAndCompareImmediate := by
  intro w s iop old
  constructor
  · obtain ⟨wrote, status, pc⟩ := immediateWrite_wrote s w (fun r iop => (addN r iop).r)
      (fun r iop => stSum (addN r iop)) fun _ _ st => .stSum _ (.refl _ st)
    refine ⟨_, _, rfl, wrote, (addN_r old iop).trans (ofNat_add_toNat old iop).symm, ?_, ?_, pc⟩ <;> rw [status]
    · exact stSum_compared (addN old iop) s.st
    · exact sumCarry_stSum old iop s.st
  · exact ⟨_, rfl, cmpOperands_compared old iop s.st, .cmpOperands old iop (.refl _ s.st),
      (onlyDrew_fetch s).trans (onlyDrew_readReg _ w), rfl⟩

/-- Settles O55: BLWP, XOP and an interrupt each store the context that RTWP then reads back. -/
theorem returnUndoesTheContextSwitch : Obligations.ReturnUndoesTheContextSwitch := by
  intro s pcEven wpEven
  have derivedPcEven (sop : Operand) : (s.ea sop .word).2.pc.getLsbD 0 = false :=
    ((Moved.refl s).ea sop .word).pc_even pcEven
  refine ⟨?blwp, ?xop, ?interrupt⟩
  case blwp =>
    intro sop q w h13 h14 h15
    obtain ⟨t, runs, workspace, -, context, frame, -⟩ := branchAndLoadWorkspace sop s
    obtain ⟨u, returns⟩ := returnSwitch_restores (congrArg State.plat frame) workspace context
      (.of_writable h13 h14 h15) wpEven (derivedPcEven sop)
    exact ⟨t, u, runs, returns⟩
  case xop =>
    intro sop n q w h13 h14 h15
    obtain ⟨t, m, runs, workspace, -, -, context, -, frame, -⟩ := extendedOperation sop n s
    rw [← xopVector_eq] at workspace context
    obtain ⟨u, returns⟩ := returnSwitch_restores (congrArg State.plat frame) workspace context
      (.of_writable h13 h14 h15) wpEven (derivedPcEven sop)
    exact ⟨t, u, runs, returns⟩
  case interrupt =>
    intro k w h13 h14 h15
    have taken := takeInterrupt_core s k
    have context := contextSwitch_stored s (intVector k)
    rw [← congrArg State.bus taken] at context
    exact returnSwitch_restores (congrArg State.plat taken) (congrArg State.wp taken) context
      (.of_writable h13 h14 h15) wpEven pcEven

/-- Settles O37: the fetched word in WP, or its low four bits in the mask field. -/
theorem loadPointerAndMaskImmediate : Obligations.LoadPointerAndMaskImmediate := by
  intro s iop
  refine ⟨⟨_, rfl, evenAddr_toNat iop, onlyDrew_fetch s, rfl⟩,
    ⟨_, rfl, ?mask, stPutMask_kept _ s.st, onlyDrew_fetch s, rfl⟩⟩
  case mask =>
    show (stMask (stPutMask (iop.extractLsb' 0 4) s.st)).toNat = _
    rw [stMask_stPutMask, toNat_field]
    omega

/-- Settles O38: the opcodes under the mask of format REGW, and a register written with nothing read before. -/
theorem storeStatusAndPointer : Obligations.StoreStatusAndPointer := by
  have stores (w : Reg) (s : State) (v : Word) : RegisterWrote s (s.writeReg w v) w v 0 :=
    writeReg_wrote (.refl s.bus) (.refl ..) rfl v
  exact ⟨fun _ h => decode_of_reg_opcode 0b000000101100 rfl rfl h,
    fun _ h => decode_of_reg_opcode 0b000000101010 rfl rfl h,
    fun w s => ⟨⟨_, rfl, stores w s s.st, rfl, rfl⟩, ⟨_, rfl, stores w s s.wp, rfl, rfl⟩⟩⟩

/-- Settles O39: one register read, in the workspace before WP changes. -/
theorem loadStatusAndPointer : Obligations.LoadStatusAndPointer := fun w s =>
  ⟨⟨_, rfl, onlyDrew_readReg s w, rfl⟩, ⟨_, rfl, evenAddr_toNat _, onlyDrew_readReg s w, rfl⟩⟩

/-- Settles O40: the three reads of the return, one after the other. -/
theorem returnWorkspacePointer : Obligations.ReturnWorkspacePointer := by
  intro s
  have core := returnSwitch_core s
  refine ⟨s.returnSwitch, rfl, congrArg State.st core, congrArg State.pc core, congrArg State.wp core,
    onlyDrew_returnSwitch s, ?frame⟩
  case frame => rw [core]

end Sys2Proof.Machine
end

section
/-! PROOFS of the statements of 47_external_mid.md: the external instructions, each of which puts out its code, and
the MID opcodes. -/

namespace Sys2Proof

/-- A well-formed term is decoded from its own opcode word alone. -/
theorem decode_eq_iff {w : Word} {i : Instr} (h : i.wellFormed = true) : decode w = i ↔ w = encode i where
  mp decoded := by rw [← decoded, (decode_standsFor w).encodes]
  mpr encoded := by rw [encoded, decode_encode h]

end Sys2Proof

namespace Sys2Proof.Machine

/-- `ExtInstr` is one event more on the bus and nothing else (R391). -/
theorem State.extInstr_eq (s : State) (code : BitVec 3) :
    s.extInstr code = { s with bus := { s.bus with events := .extInstr code :: s.bus.events } } := rfl

/-- A MID request goes before the inhibit, the NMI and the mask (R414). -/
theorem grant_of_midPending {s : State} (h : s.midPending = true) : s.grant = some .mid := if_pos h

/-- Settles O41: IDLE sets the Idle state beside its code; RSET puts 0 in the mask field before its code. -/
theorem idleAndReset : Obligations.IdleAndReset := by
  intro s
  have idle : exec .idle s = .next { s.extInstr 0b010 with idle := true } := rfl
  have reset : exec .rset s = .next ((s.mapSt (stPutMask 0)).extInstr 0b011) := rfl
  exact ⟨idle, _, reset, stMask_stPutMask 0 s.st, stPutMask_kept 0 s.st, State.extInstr_eq ..⟩

/-- Settles O42: the three terms have no operand field, so one word stands for each; their execution is `ExtInstr`
alone. -/
theorem userDefinedExternals : Obligations.UserDefinedExternals :=
  ⟨fun _ => decode_eq_iff rfl, fun _ => decode_eq_iff rfl, fun _ => decode_eq_iff rfl, fun s =>
    ⟨congrArg Host.Outcome.next (s.extInstr_eq 0b101), congrArg Host.Outcome.next (s.extInstr_eq 0b110),
      congrArg Host.Outcome.next (s.extInstr_eq 0b111)⟩⟩

/-- Settles O43: the MID opcode leaves its request pending, and the boundary grants that first. -/
theorem midOpcodeRequestsMid : Obligations.MidOpcodeRequestsMid := fun _ s =>
  ⟨s.raiseMid, rfl, rfl, grant_of_midPending rfl⟩

end Sys2Proof.Machine
end

section
/-! PROOFS of the statements of 60_exceptions.md and 70_reset_and_hazards.md: which interrupt a boundary takes and what
taking it leaves, the decrementer, an overwritten opcode, a reset in the middle of the CPU's step, and that no step
stops. -/

namespace Sys2Proof.Machine

/-! ### What a boundary takes (R411, R413, R414) -/

section
variable (s : State)

theorem reqNmi_iff : s.reqNmi = true ↔ s.nmiArmed = true ∧ s.pins.nmi = false := by
  simp [State.reqNmi]

theorem req1_iff : s.req1 = true ↔ s.latch1 = true ∨ s.pins.int1 = false := by
  simp [State.req1]

theorem req2_iff :
    s.req2 = true ↔ s.plat.ovfFunctional = true ∧ s.st.getLsbD stOV = true ∧ s.st.getLsbD stOVEN = true := by
  simp [State.req2, and_assoc]

theorem req4_iff :
    s.req4 = true ↔ s.latch4 = true ∨ (s.bus.flags.getLsbD 0 = false ∧ s.pins.int4 = false) := by
  simp [State.req4]

theorem accepts_iff (level : Nat) (req : Bool) :
    s.accepts level req = true ↔ req = true ∧ level ≤ (stMask s.st).toNat := by
  simp [State.accepts]

theorem acceptedLevel_ne_mid : s.acceptedLevel ≠ some .mid := by
  unfold State.acceptedLevel
  split_ifs <;> simp

theorem grant_mid_iff : s.grant = some .mid ↔ s.midPending = true := by
  refine ⟨fun h => ?_, grant_of_midPending⟩
  obtain ⟨-, pending⟩ | ⟨-, kind, -⟩ | ⟨-, -, -, accepted⟩ := grant_eq_some h
  · exact pending
  · cases kind
  · exact absurd accepted (acceptedLevel_ne_mid s)

theorem grant_nmi_iff :
    s.grant = some .nmi ↔ s.midPending = false ∧ s.inhibit ≠ .allButReset ∧ s.reqNmi = true := by
  constructor
  · intro h
    obtain ⟨kind, -⟩ | ⟨noMid, -, request, lets⟩ | ⟨-, -, -, accepted⟩ := grant_eq_some h
    · cases kind
    · exact ⟨noMid, lets, request⟩
    · exact absurd accepted (acceptedLevel_ne_nmi s)
  · rintro ⟨noMid, lets, request⟩
    rw [State.grant, if_neg (by simp [noMid])]
    cases inhibit : s.inhibit with
    | none => exact if_pos request
    | maskable => exact if_pos request
    | allButReset => exact absurd inhibit lets

/-- A level is taken where nothing goes before the levels and it is the highest accepted. -/
theorem grant_level_iff {k : IntKind} (hmid : k ≠ .mid) (hnmi : k ≠ .nmi) :
    s.grant = some k ↔
      (s.midPending = false ∧ s.inhibit = .none ∧ ¬ s.reqNmi = true) ∧ s.acceptedLevel = some k := by
  constructor
  · intro h
    obtain ⟨kind, -⟩ | ⟨-, kind, -⟩ | ⟨noMid, free, noNmi, accepted⟩ := grant_eq_some h
    · exact absurd kind hmid
    · exact absurd kind hnmi
    · exact ⟨⟨noMid, free, by simp [noNmi]⟩, accepted⟩
  · rintro ⟨⟨noMid, free, noNmi⟩, accepted⟩
    rw [State.grant, if_neg (by simp [noMid]), free]
    exact (if_neg noNmi).trans accepted

/-- The levels in their order: each is the highest accepted where it is accepted and none before it is. -/
theorem acceptedLevel_iff :
    (s.acceptedLevel = some .level1 ↔ s.accepts 1 s.req1 = true) ∧
    (s.acceptedLevel = some .level2 ↔ ¬ s.accepts 1 s.req1 = true ∧ s.accepts 2 s.req2 = true) ∧
    (s.acceptedLevel = some .level3 ↔
      ¬ s.accepts 1 s.req1 = true ∧ ¬ s.accepts 2 s.req2 = true ∧ s.accepts 3 s.latch3 = true) ∧
    (s.acceptedLevel = some .level4 ↔
      ¬ s.accepts 1 s.req1 = true ∧ ¬ s.accepts 2 s.req2 = true ∧ ¬ s.accepts 3 s.latch3 = true ∧
        s.accepts 4 s.req4 = true) := by
  unfold State.acceptedLevel
  split_ifs <;> simp_all

end

/-- Right after the switch of NMI or a level nothing is taken (R422). -/
theorem grant_takeInterrupt_of_ne_mid {s : State} {k : IntKind} (noMid : s.midPending = false) (hk : k ≠ .mid) :
    (s.takeInterrupt k).grant = none := by
  have inhibit : inhibitAfter k = .allButReset := by
    cases k with
    | mid => exact absurd rfl hk
    | nmi | level1 | level2 | level3 | level4 => rfl
  rw [takeInterrupt_core]
  simp [State.grant, noMid, inhibit]

/-- Right after the switch of a MID only an NMI is taken (R422, R433). -/
theorem grant_takeInterrupt_mid (s : State) :
    (s.takeInterrupt .mid).grant = if s.nmiArmed = true ∧ s.pins.nmi = false then some .nmi else none := by
  rw [takeInterrupt_core]
  simp [State.grant, inhibitAfter, State.reqNmi]

/-- Settles O53: the order of R414, each request as its latches and levels. -/
theorem boundaryTakesTheHighestRequest : Obligations.BoundaryTakesTheHighestRequest := by
  refine ⟨fun s => ?order, ⟨rfl, rfl, rfl, rfl, rfl, rfl⟩, fun s k => grant_takeInterrupt_of_ne_mid,
    fun s _ => grant_takeInterrupt_mid s⟩
  case order =>
    intro mask nmi level1 level2 level3 level4 quiet
    have hnmi : s.reqNmi = true ↔ nmi := reqNmi_iff s
    have h1 : s.accepts 1 s.req1 = true ↔ level1 := by rw [accepts_iff, req1_iff]
    have h2 : s.accepts 2 s.req2 = true ↔ level2 := by rw [accepts_iff, req2_iff, and_assoc, and_assoc]
    have h3 : s.accepts 3 s.latch3 = true ↔ level3 := accepts_iff s 3 s.latch3
    have h4 : s.accepts 4 s.req4 = true ↔ level4 := by rw [accepts_iff, req4_iff]
    have level (k : IntKind) (notMid : k ≠ .mid) (notNmi : k ≠ .nmi) :
        s.grant = some k ↔ quiet ∧ s.acceptedLevel = some k := by
      rw [grant_level_iff s notMid notNmi, hnmi]
    obtain ⟨first, second, third, fourth⟩ := acceptedLevel_iff s
    rw [h1] at first second third fourth
    rw [h2] at second third fourth
    rw [h3] at third fourth
    rw [h4] at fourth
    refine ⟨grant_mid_iff s, by rw [grant_nmi_iff, hnmi], ?_, ?_, ?_, ?_⟩
    · rw [level .level1 nofun nofun, first]
    · rw [level .level2 nofun nofun, second]
    · rw [level .level3 nofun nofun, third]
    · rw [level .level4 nofun nofun, fourth]

/-! ### The status after an interrupt (R420, R421) -/

theorem stMask_intStatus (k : IntKind) (st : Word) : stMask (intStatus k st) = newMask k (stMask st) :=
  stMask_stPutMask ..

/-- ST7 to ST11 have the weights 2^8 to 2^4 (R23). -/
theorem getLsbD_stClear7to11 (st : Word) (i : Nat) (hi : i < 16) :
    (stClear7to11 st).getLsbD i = if 4 ≤ i ∧ i ≤ 8 then false else st.getLsbD i := by
  rw [stClear7to11, BitVec.getLsbD_and]
  interval_cases i <;> simp

theorem getLsbD_intStatus (k : IntKind) (st : Word) (i : Nat) (hi : i < 16) :
    (intStatus k st).getLsbD i =
      if i < 4 then (newMask k (stMask st)).getLsbD i else if i ≤ 8 then false else st.getLsbD i := by
  rw [intStatus, getLsbD_stPutMask _ _ _ hi, getLsbD_stClear7to11 _ _ hi]
  by_cases low : i < 4
  · rw [if_pos low, if_pos low]
  · rw [if_neg low, if_neg low]
    by_cases cleared : i ≤ 8
    · rw [if_pos ⟨by omega, cleared⟩, if_pos cleared]
    · rw [if_neg (by omega), if_neg cleared]

/-- A level is taken only where the mask is at least the level (R413). -/
theorem level_le_mask_of_grant (s : State) :
    (s.grant = some .level1 → 1 ≤ (stMask s.st).toNat) ∧ (s.grant = some .level2 → 2 ≤ (stMask s.st).toNat) ∧
    (s.grant = some .level3 → 3 ≤ (stMask s.st).toNat) ∧ (s.grant = some .level4 → 4 ≤ (stMask s.st).toNat) := by
  obtain ⟨-, -, one, two, three, four⟩ := boundaryTakesTheHighestRequest.1 s
  exact ⟨fun h => have ⟨_, _, bound⟩ := one.mp h; bound, fun h => have ⟨_, _, _, _, _, bound⟩ := two.mp h; bound,
    fun h => have ⟨_, _, _, _, bound⟩ := three.mp h; bound, fun h => have ⟨_, _, _, _, _, bound⟩ := four.mp h; bound⟩

/-- Settles O54: the reset sequence clears ST, and an interrupt puts its new mask in ST. -/
theorem maskAfterAnInterrupt : Obligations.MaskAfterAnInterrupt := by
  refine ⟨fun s => ?reset, fun _ => rfl, fun _ => ⟨rfl, rfl, rfl, rfl⟩, fun _ => rfl, level_le_mask_of_grant,
    fun s k => ?taken⟩
  case reset => rw [resetSequence_core]; rfl
  case taken => rw [takeInterrupt_core]; exact stMask_intStatus k s.st

/-! ### The switch of an interrupt (R414, R420 to R422) -/

/-- An interrupt holds back everything for one instruction, but MID lets NMI through (R422). -/
theorem inhibitAfter_eq (k : IntKind) : inhibitAfter k = if k = .mid then .maskable else .allButReset := by
  cases k <;> rfl

/-- Settles O52: the step is the interrupt taken, whose stores are the context switch's. -/
theorem takingAnInterrupt : Obligations.TakingAnInterrupt := by
  intro s k boundary granted vec w
  have stored := contextSwitch_stored s vec
  refine ⟨s.takeInterrupt k, by rw [step_boundary boundary, granted], ?_⟩
  rw [takeInterrupt_core]
  exact ⟨rfl, rfl, stored, getLsbD_intStatus k s.st, rfl, rfl, rfl, rfl, rfl, by rw [← inhibitAfter_eq],
    stored.flags, stored.midFlag, stored.kept⟩

/-! ### The decrementer's word in memory (R446, R450, R451; D18) -/

/-- The decrementer's word reads as the count, at either of its addresses (R450). -/
theorem busReadWord_of_decrementer {p : Platform} {a : Word} (b : Bus) (h : placeOf p a = .decrementer) :
    busReadWord p b a = b.decCount := by
  have even := (placeOf_decrementer_even p a).mpr h
  have odd := placeOf_succ_decrementer even
  rw [busReadWord, busReadByte_of_answers (answers_of_decrementer even),
    busReadByte_of_answers (answers_of_decrementer odd), storedByte_of_decrementer even,
    storedByte_of_decrementer odd]
  simp [high_low]

/-- A byte of the decrementer reads as its half of the count (R450). -/
theorem busReadByte_of_decrementer {p : Platform} {a : Word} (b : Bus) (h : placeOf p a = .decrementer) :
    busReadByte p b a = if a.getLsbD 0 then lowByte b.decCount else highByte b.decCount :=
  (busReadByte_of_answers (answers_of_decrementer h)).trans (storedByte_of_decrementer h)

/-- Settles O6: the word is loaded and read whole, a byte write loads one word that has the byte in its half. -/
theorem decrementerInMemory : Obligations.DecrementerInMemory := by
  intro s a v c place
  have even := (placeOf_decrementer_even s.plat a).mpr place
  have odd := placeOf_succ_decrementer even
  refine ⟨?write, busReadWord_of_decrementer s.bus place, onlyDrew_readWord s a, ?high, ?low, ?byteWrite⟩
  case write => rw [State.writeWord, busWriteWord_of_decrementer v place]
  case high => exact (busReadByte_of_decrementer s.bus even).trans (by simp)
  case low => exact (busReadByte_of_decrementer s.bus odd).trans (by simp)
  case byteWrite =>
    obtain ⟨-, -, stored⟩ := busWriteByte_stored s.plat s.bus a c
    rw [if_pos place] at stored
    obtain ⟨same, byte, -, -⟩ := stored
    refine ⟨(busReadByte_of_answers (answers_of_decrementer place)).trans byte, same, ?mem⟩
    case mem => rw [State.writeByte, busWriteByte_of_decrementer c place]

/-! ### The decrementer's ticks (R447 to R449; D15 to D17) -/

/-- A tick does nothing where the decrementer is disabled or its starting count is 0 (R447). -/
theorem decTick_of_disabled {s : State} (h : s.bus.flags.getLsbD 1 = false ∨ s.bus.decStart = 0) :
    s.decTick = s :=
  if_neg fun enabled => h.elim (by simp [enabled.1]) enabled.2

/-- An enabled tick counts down where the count is not 1 (R448). -/
theorem decTick_of_counting {s : State} (on : s.bus.flags.getLsbD 1 = true) (start : s.bus.decStart ≠ 0)
    (more : s.bus.decCount - 1 ≠ 0) :
    s.decTick = { s with bus := { s.bus with decCount := s.bus.decCount - 1 } } := by
  rw [State.decTick, if_pos ⟨on, start⟩, if_neg more]

/-- An enabled tick that ends the count sets LATCH3 and reloads (R448, R449). -/
theorem decTick_of_last {s : State} (on : s.bus.flags.getLsbD 1 = true) (start : s.bus.decStart ≠ 0)
    (last : s.bus.decCount - 1 = 0) :
    s.decTick = { s with latch3 := true, bus := { s.bus with decCount := s.bus.decStart } } := by
  rw [State.decTick, if_pos ⟨on, start⟩, if_pos last]

/-- The state with its decrementing register at a count. -/
def State.withCount (s : State) (n : Nat) : State := { s with bus := { s.bus with decCount := BitVec.ofNat 16 n } }

theorem withCount_start (s : State) (full : s.bus.decCount = s.bus.decStart) :
    s.withCount s.bus.decStart.toNat = s := by
  rw [State.withCount, BitVec.ofNat_toNat, BitVec.setWidth_eq, ← full]

/-- From a full count N, fewer than N ticks leave N less their number and do nothing else. -/
theorem decTick_iterate {s : State} (on : s.bus.flags.getLsbD 1 = true) (start : s.bus.decStart ≠ 0)
    (full : s.bus.decCount = s.bus.decStart) (k : Nat) (hk : k < s.bus.decStart.toNat) :
    State.decTick^[k] s = s.withCount (s.bus.decStart.toNat - k) := by
  have bound := s.bus.decStart.isLt
  induction k with
  | zero => exact (withCount_start s full).symm
  | succ k ih =>
    have less : BitVec.ofNat 16 (s.bus.decStart.toNat - k) - 1 = BitVec.ofNat 16 (s.bus.decStart.toNat - (k + 1)) := by
      bv_omega
    have more : BitVec.ofNat 16 (s.bus.decStart.toNat - k) - 1 ≠ 0 := by bv_omega
    rw [Function.iterate_succ_apply', ih (by omega),
      decTick_of_counting (s := s.withCount (s.bus.decStart.toNat - k)) on start more]
    exact congrArg (fun c => { s with bus := { s.bus with decCount := c } }) less

/-- Settles O58: a tick counts down until the count is 1, and the next one sets LATCH3 and reloads. -/
theorem decrementerTicks : Obligations.DecrementerTicks := by
  refine ⟨fun s => decTick_of_disabled, fun s => rfl, fun s counter high => ?edge, fun s high timer => ?timer,
    fun s => int4Level_no_edge (.inr rfl), fun s on start full => ⟨decTick_iterate on start full, ?last⟩⟩
  case edge => simp [State.envEvent, State.int4Level, counter, high]
  case timer =>
    show (s.int4Level high).bus = s.bus ∧ (s.int4Level high).latch3 = s.latch3
    rw [int4Level_timer high timer]
    exact ⟨rfl, rfl⟩
  case last =>
    have positive : s.bus.decStart.toNat ≠ 0 := fun e => start (BitVec.eq_of_toNat_eq e)
    obtain ⟨n, hn⟩ := Nat.exists_eq_succ_of_ne_zero positive
    have one : s.bus.decStart.toNat - n = 1 := by omega
    rw [hn, Function.iterate_succ_apply', decTick_iterate on start full n (by omega), one,
      decTick_of_last (s := s.withCount 1) on start (show BitVec.ofNat 16 1 - 1 = 0 by decide)]
    exact congrArg (fun c => { s with latch3 := true, bus := { s.bus with decCount := c } }) full.symm

/-! ### An overwritten opcode (R490; D22) -/

/-- The prefetch noted after an instruction: the next opcode's word as it was in a bus, where it is no more (R490). -/
def overwritten (p : Platform) (base : Bus) (t : State) : Option Word :=
  if storedWord p base t.pc = storedWord t.plat t.bus t.pc then none else some (storedWord p base t.pc)

/-- Where the next opcode could be prefetched, what is noted is its word in the bus from before the stores (R490). -/
theorem notePrefetch_of_some {i : Instr} {u t : State} {base : Bus} (hx : t.xPending = none)
    (hb : u.prefetchBase i = some base) : (State.notePrefetch i u t).prefetch = overwritten u.plat base t := by
  rw [State.notePrefetch, hx, hb]
  rfl

theorem notePrefetch_of_none {i : Instr} {u t : State} (hx : t.xPending = none) (hb : u.prefetchBase i = none) :
    (State.notePrefetch i u t).prefetch = none := by
  rw [State.notePrefetch, hx, hb]

theorem isBranch_iff (i : Instr) : isBranch i = true ↔ ∃ o, i = .b o where
  mp h := by
    unfold isBranch at h
    split at h
    · exact ⟨_, rfl⟩
    · cases h
  mpr := fun ⟨_, h⟩ => by rw [h]; rfl

theorem isBranch_eq_false {i : Instr} (h : ∀ o, i ≠ .b o) : isBranch i = false :=
  Bool.eq_false_iff.mpr fun e => have ⟨o, ho⟩ := (isBranch_iff i).mp e; h o ho

/-- Past a B nothing is prefetched, past any other instruction but X what was there before it ran. -/
theorem prefetchBase_of_ne_x (u : State) {i : Instr} (hx : ∀ sop, i ≠ .x sop) :
    u.prefetchBase i = if isBranch i then none else some u.bus := by
  cases i with
  | x sop => exact absurd rfl (hx sop)
  | _ => rfl

/-- Past an X the same holds of its target, which runs after X's operand is read. -/
theorem prefetchBase_x (u : State) (sop : Operand) :
    u.prefetchBase (.x sop) =
      if isBranch (decode (u.sourceWord sop).1) then none else some (u.sourceWord sop).2.bus := rfl

/-- An overwritten opcode's fetch: the old or the new word, with PC past it and nothing prefetched any more (R490). -/
theorem fetchOpcode_of_some {s : State} {old : Word} (h : s.prefetch = some old) :
    (s.fetchOpcode.1 = old ∨ s.fetchOpcode.1 = busReadWord s.plat s.bus s.pc) ∧
      OnlyDrew s.bus s.fetchOpcode.2.bus ∧
      s.fetchOpcode.2 = { s with pc := s.pc + 2, prefetch := none, bus := s.fetchOpcode.2.bus } := by
  have fetched : s.fetchOpcode =
      (if Config.freeOldOpcode (s.fetchAs true).2.bus.draws then old else busReadWord s.plat s.bus s.pc,
        { (s.fetchAs true).2.tickDraws with prefetch := none }) := by
    rw [State.fetchOpcode, h]
    rfl
  rw [fetched]
  exact ⟨ite_eq_or_eq .., (onlyDrew_readWordAs true s s.pc).trans (onlyDrew_tickDraws _), rfl⟩

/-- Settles O51: what is noted follows the bus that could be prefetched from; the next fetch then chooses a word. -/
theorem overwrittenOpcodeRunsOldOrNew : Obligations.OverwrittenOpcodeRunsOldOrNew := by
  refine ⟨fun i u t done notB notX => ?other, fun sop u t done => notePrefetch_of_none done rfl,
    fun sop u t done => ?x, fun s old boundary nothing awake kept => ?next⟩
  case other =>
    exact notePrefetch_of_some done (by rw [prefetchBase_of_ne_x u notX, isBranch_eq_false notB]; rfl)
  case x =>
    exact ⟨fun isB => notePrefetch_of_none done (by rw [prefetchBase_x, if_pos ((isBranch_iff _).mpr isB)]),
      fun notB => notePrefetch_of_some done (by rw [prefetchBase_x, isBranch_eq_false notB]; rfl)⟩
  case next =>
    obtain ⟨word, drew, core⟩ := fetchOpcode_of_some (s := { s with inhibit := .none }) kept
    obtain ⟨t, runs, -⟩ := exec_executed _ _
    exact ⟨_, t, _, word, drew, core, runs, (step_runs boundary nothing awake).trans (run_of_exec runs)⟩

/-! ### The bus cycles of the CPU's step do all that it does on the bus (R481; log 12) -/

/-- From `s` to `t` the platform stays, and the cycles noted, performed in order, do all that happened on the bus. -/
structure Performed (s t : State) : Prop where
  plat : t.plat = s.plat
  replayed : Replayed s.plat s.bus t.bus

section
variable {s t : State}

theorem Performed.refl (s : State) : Performed s s := ⟨rfl, .refl ..⟩

theorem Performed.trans {r : State} (h : Performed s t) (k : Performed t r) : Performed s r :=
  ⟨k.plat.trans h.plat, h.replayed.trans (h.plat ▸ k.replayed)⟩

/-- Whatever else changes beside the bus. -/
theorem Performed.same {r : State} (h : Performed s t) (plat : r.plat = t.plat) (bus : r.bus = t.bus) :
    Performed s r := ⟨plat.trans h.plat, bus ▸ h.replayed⟩

theorem Performed.mapSt (h : Performed s t) (f : Word → Word) : Performed s (t.mapSt f) := h.same rfl rfl

theorem Performed.setPc (h : Performed s t) (v : Word) : Performed s (t.setPc v) := h.same rfl rfl

theorem Performed.setWp (h : Performed s t) (v : Word) : Performed s (t.setWp v) := h.same rfl rfl

theorem Performed.setSt (h : Performed s t) (st : Word) : Performed s { t with st := st } := h.same rfl rfl

theorem Performed.setInhibit (h : Performed s t) (i : Inhibit) : Performed s { t with inhibit := i } :=
  h.same rfl rfl

theorem Performed.tick (h : Performed s t) : Performed s t.tickDraws := ⟨h.plat, h.replayed.tick _⟩

theorem Performed.input (h : Performed s t) {cs : List BusEvent} (hc : ∀ c ∈ cs, isInput c = true) :
    Performed s (t.inputCycles cs) := h.trans ⟨rfl, .inputs _ _ _ hc⟩

theorem Performed.readAs (h : Performed s t) (iaq : Bool) (a : Word) : Performed s (t.readWordAs iaq a).2 :=
  h.input (isInput_readCycles t.plat iaq a)

theorem Performed.read (h : Performed s t) (a : Word) : Performed s (t.readWord a).2 := h.readAs false a

theorem Performed.readByte (h : Performed s t) (a : Word) : Performed s (t.readByte a).2 := h.input (by simp [isInput])

theorem Performed.readReg (h : Performed s t) (n : Reg) : Performed s (t.readReg n).2 := h.read _

theorem Performed.fetchAs (h : Performed s t) (iaq : Bool) : Performed s (t.fetchAs iaq).2 :=
  (h.readAs iaq t.pc).same rfl rfl

theorem Performed.fetch (h : Performed s t) : Performed s t.fetch.2 := h.fetchAs false

theorem Performed.cruIn (h : Performed s t) (a : CruAddr) : Performed s (t.cruIn a).2 := h.input (by simp [isInput])

theorem Performed.write (h : Performed s t) (a v : Word) : Performed s (t.writeWord a v) :=
  h.trans ⟨rfl, replayed_busWriteWord ..⟩

theorem Performed.writeByte (h : Performed s t) (a : Word) (v : Byte) : Performed s (t.writeByte a v) :=
  h.trans ⟨rfl, replayed_busWriteByte ..⟩

theorem Performed.writeReg (h : Performed s t) (n : Reg) (v : Word) : Performed s (t.writeReg n v) := h.write ..

theorem Performed.cruOut (h : Performed s t) (a : CruAddr) (v : Bool) : Performed s (t.cruOut a v) :=
  h.trans ⟨rfl, replayed_busCruOut ..⟩

theorem Performed.extInstr (h : Performed s t) (code : BitVec 3) : Performed s (t.extInstr code) :=
  h.trans ⟨rfl, replayed_extInstr ..⟩

theorem Performed.ea (h : Performed s t) (op : Operand) (size : Size) : Performed s (t.ea op size).2 := by
  cases op with
  | reg r => exact h
  | ind r => exact h.readReg r
  | sym => exact h.fetch
  | idx r => exact h.fetch.readReg r
  | autoInc r => exact (h.readReg r).writeReg ..

theorem Performed.sourceWord (h : Performed s t) (op : Operand) : Performed s (t.sourceWord op).2 := (h.ea ..).read _

theorem Performed.dualWord (h : Performed s t) (sop dop : Operand) : Performed s (t.dualWord sop dop).s :=
  ((h.ea ..).read _).ea ..

theorem Performed.dualByte (h : Performed s t) (sop dop : Operand) : Performed s (t.dualByte sop dop).s :=
  ((h.ea ..).readByte _).ea ..

theorem Performed.modifySingle (h : Performed s t) (op : Operand) (f : Word → Word) (g : Word → Word → Word) :
    Performed s (t.modifySingle op f g) := (((h.ea ..).read _).write ..).mapSt _

theorem Performed.immediateWrite (h : Performed s t) (r : Reg) (f : Word → Word → Word)
    (g : Word → Word → Word → Word) : Performed s (t.immediateWrite r f g) :=
  ((h.fetch.readReg _).writeReg ..).mapSt _

theorem Performed.jump (h : Performed s t) (d : BitVec 8) (c : Bool) : Performed s (t.jump d c) := by
  rw [jump_spec]
  exact h.same rfl rfl

theorem Performed.shiftCount (h : Performed s t) (c : BitVec 4) : Performed s (t.shiftCount c).2 := by
  unfold State.shiftCount
  split
  · exact h.readReg 0
  · exact h

theorem Performed.shift (h : Performed s t) (r : Reg) (c : BitVec 4) (f : Word → Nat → Shifted)
    (g : Word → Nat → Word → Word) : Performed s (t.shift r c f g) :=
  (((h.shiftCount c).readReg r).writeReg ..).mapSt _

theorem Performed.cruSet (h : Performed s t) (d : BitVec 8) (v : Bool) : Performed s (t.cruSet d v) :=
  (h.readReg 12).cruOut ..

theorem Performed.cruOutBits (base : CruAddr) (v : Word) (i k : Nat) {t : State} (h : Performed s t) :
    Performed s (cruOutBits base v i k t) := by
  induction k generalizing i t with
  | zero => exact h
  | succ k ih => exact ih (i + 1) (h.cruOut ..)

theorem Performed.cruInBits (base : CruAddr) (i k : Nat) {t : State} (h : Performed s t) :
    Performed s (cruInBits base i k t).2 := by
  induction k generalizing i t with
  | zero => exact h
  | succ k ih => exact ih (i + 1) (h.cruIn _)

/-- The stores of a saved context, WP changed before them and PC after them (R420). -/
theorem Performed.context (h : Performed s t) (wp pc st : Word) :
    Performed s (((t.writeReg 13 wp).writeReg 14 pc).writeReg 15 st) := ((h.writeReg ..).writeReg ..).writeReg ..

theorem Performed.contextSwitch (h : Performed s t) (vec : Word) : Performed s (t.contextSwitch vec) :=
  ((((h.read vec).read (vec + 2)).setWp _).context ..).setPc _

theorem compareWord_performed {p : Pair 16} (h : Performed s p.s) (g : Word → Word → Word → Word) :
    Performed s (compareWord p g) := (h.read _).mapSt _

theorem compareByte_performed {p : Pair 8} (h : Performed s p.s) (g : Byte → Byte → Word → Word) :
    Performed s (compareByte p g) := (h.readByte _).mapSt _

theorem modifyWord_performed {p : Pair 16} (h : Performed s p.s) (f : Word → Word → Word)
    (g : Word → Word → Word → Word) : Performed s (modifyWord p f g) := ((h.read _).write ..).mapSt _

theorem modifyByte_performed {p : Pair 8} (h : Performed s p.s) (f : Byte → Byte → Byte)
    (g : Byte → Byte → Word → Word) : Performed s (modifyByte p f g) := ((h.readByte _).writeByte ..).mapSt _

end

/-- The instruction completes, and its cycles do all that it does on the bus. -/
def PerformsCycles (i : Instr) (s : State) : Prop := ∃ t, exec i s = .next t ∧ Performed s t

theorem ldcr_performsCycles (sop : Operand) (c : BitVec 4) (s : State) : PerformsCycles (.ldcr sop c) s := by
  have h := Performed.refl s
  cases hc : cruIsByte c with
  | true =>
    exact ⟨_, exec_ldcr_byte hc sop s,
      .cruOutBits _ _ _ _ ((((h.ea sop .byte).input (by simp [isInput])).mapSt _).readReg 12)⟩
  | false =>
    exact ⟨_, exec_ldcr_word hc sop s,
      .cruOutBits _ _ _ _ ((((h.ea sop .word).input (isInput_readCycles _ _ _)).mapSt _).readReg 12)⟩

theorem stcr_performsCycles (dop : Operand) (c : BitVec 4) (s : State) : PerformsCycles (.stcr dop c) s := by
  have h := Performed.refl s
  cases hc : cruIsByte c with
  | true =>
    exact ⟨_, exec_stcr_byte hc dop s, ((Performed.cruInBits _ _ _ ((h.ea ..).readReg 12)).writeByte ..).mapSt _⟩
  | false =>
    exact ⟨_, exec_stcr_word hc dop s, ((Performed.cruInBits _ _ _ ((h.ea ..).readReg 12)).write ..).mapSt _⟩

theorem div_performsCycles (sop : Operand) (d : Reg) (s : State) : PerformsCycles (.div sop d) s := by
  have h := ((Performed.refl s).sourceWord sop).readReg d
  show ∃ t, execDiv sop d s = .next t ∧ Performed s t
  unfold execDiv
  dsimp only
  split
  · exact ⟨_, rfl, h.mapSt _⟩
  · exact ⟨_, rfl, (((h.read _).writeReg ..).write ..).mapSt _⟩

theorem divs_performsCycles (sop : Operand) (s : State) : PerformsCycles (.divs sop) s := by
  have h := (((Performed.refl s).sourceWord sop).readReg 0).readReg 1
  show ∃ t, execDivs sop s = .next t ∧ Performed s t
  unfold execDivs
  dsimp only
  split
  · exact ⟨_, rfl, h.tick.mapSt _⟩
  · exact ⟨_, rfl, ((h.writeReg ..).writeReg ..).mapSt _⟩

/-- Every instruction but X touches the bus through its cycles alone, draws and the MID flag apart. -/
theorem exec_performsCycles (i : Instr) (s : State) (hx : ∀ sop, i ≠ .x sop) : PerformsCycles i s := by
  have h := Performed.refl s
  cases i with
  | szc sop dop | s sop dop | a sop dop | soc sop dop => exact ⟨_, rfl, modifyWord_performed (h.dualWord ..) _ _⟩
  | szcb sop dop | sb sop dop | ab sop dop | socb sop dop =>
    exact ⟨_, rfl, modifyByte_performed (h.dualByte ..) _ _⟩
  | c sop dop => exact ⟨_, rfl, compareWord_performed (h.dualWord ..) _⟩
  | cb sop dop => exact ⟨_, rfl, compareByte_performed (h.dualByte ..) _⟩
  | mov sop dop => exact ⟨_, rfl, ((h.dualWord sop dop).write ..).mapSt _⟩
  | movb sop dop => exact ⟨_, rfl, ((h.dualByte sop dop).writeByte ..).mapSt _⟩
  | coc sop d | czc sop d => exact ⟨_, rfl, ((h.sourceWord sop).readReg d).mapSt _⟩
  | xor sop d => exact ⟨_, rfl, (((h.sourceWord sop).readReg d).writeReg ..).mapSt _⟩
  | mpy sop d => exact ⟨_, rfl, (((h.sourceWord _).readReg _).writeReg ..).write ..⟩
  | div sop d => exact div_performsCycles sop d s
  | mpys sop => exact ⟨_, rfl, ((((h.sourceWord sop).readReg 0).writeReg ..).writeReg ..).mapSt _⟩
  | divs sop => exact divs_performsCycles sop s
  | xop sop n =>
    exact ⟨_, rfl, (h.ea sop .word |>.read _ |>.read _ |>.setWp _ |>.writeReg 11 _ |>.context _ _ _ |>.setPc _
      |>.mapSt _ |>.setInhibit _)⟩
  | b sop => exact ⟨_, rfl, (h.ea sop .word).setPc _⟩
  | bl sop => exact ⟨_, rfl, ((h.ea sop .word).writeReg ..).setPc _⟩
  | blwp sop => exact ⟨_, rfl, ((h.ea sop .word).contextSwitch _).setInhibit _⟩
  | clr sop | seto sop => exact ⟨_, rfl, (h.ea ..).write ..⟩
  | inv sop | neg sop | abs sop | swpb sop | inc sop | inct sop | dec sop | dect sop =>
    exact ⟨_, rfl, h.modifySingle ..⟩
  | x sop => exact absurd rfl (hx sop)
  | ldcr sop c => exact ldcr_performsCycles sop c s
  | stcr dop c => exact stcr_performsCycles dop c s
  | sbo d | sbz d => exact ⟨_, rfl, h.cruSet ..⟩
  | tb d => exact ⟨_, rfl, ((h.readReg 12).cruIn _).mapSt _⟩
  | jmp d | jlt d | jle d | jeq d | jhe d | jgt d | jne d | jnc d | joc d | jno d | jl d | jh d
  | jop d => exact ⟨_, rfl, h.jump ..⟩
  | sla r c | sra r c | srl r c | src r c => exact ⟨_, rfl, h.shift ..⟩
  | li r => exact ⟨_, rfl, (h.fetch.writeReg ..).mapSt _⟩
  | ai r | andi r | ori r => exact ⟨_, rfl, h.immediateWrite ..⟩
  | ci r => exact ⟨_, rfl, (h.fetch.readReg _).mapSt _⟩
  | lwpi => exact ⟨_, rfl, h.fetch.setWp _⟩
  | limi => exact ⟨_, rfl, h.fetch.mapSt _⟩
  | stst r | stwp r => exact ⟨_, rfl, h.writeReg ..⟩
  | lst r => exact ⟨_, rfl, (h.readReg r).setSt _⟩
  | lwp r => exact ⟨_, rfl, (h.readReg r).setWp _⟩
  | rtwp => exact ⟨_, rfl, h.readReg 15 |>.readReg 14 |>.readReg 13 |>.setSt _ |>.setPc _ |>.setWp _⟩
  | idle => exact ⟨_, rfl, (h.extInstr _).same rfl rfl⟩
  | rset => exact ⟨_, rfl, (h.mapSt _).extInstr _⟩
  | ckon | ckof | lrex => exact ⟨_, rfl, h.extInstr _⟩
  | mid w => exact ⟨_, rfl, rfl, h.replayed.mid true⟩

/-- An X reads its operand, and its target's cycles follow; a target that waits has none yet (R254). -/
theorem execX_performsCycles (sop : Operand) (s : State) : PerformsCycles (.x sop) s := by
  have h := (Performed.refl s).sourceWord sop
  have e : exec (.x sop) s = execTarget (s.sourceWord sop).1 (s.sourceWord sop).2 := rfl
  cases hv : isX (s.sourceWord sop).1 with
  | true => exact ⟨_, e.trans (execTarget_x hv _), h.same rfl rfl⟩
  | false =>
    obtain ⟨t, et, ht⟩ := exec_performsCycles (decode (s.sourceWord sop).1) (s.sourceWord sop).2 fun o ho => by
      simp [isX_of_decode ho] at hv
    exact ⟨t, e.trans ((execTarget_eq hv _).trans et), h.trans ht⟩

/-- Every instruction completes, and touches the bus through its cycles alone. -/
theorem exec_performed (i : Instr) (s : State) : PerformsCycles i s := by
  by_cases hx : ∃ sop, i = .x sop
  · obtain ⟨sop, rfl⟩ := hx
    exact execX_performsCycles sop s
  · exact exec_performsCycles i s fun sop hi => hx ⟨sop, hi⟩

/-! ### The CPU's step, branch by branch (R414) -/

/-- Noting the prefetch is no cycle. -/
theorem run_performed (u : State) (i : Instr) : ∃ t, u.run i = .next t ∧ Performed u t := by
  obtain ⟨t, runs, h⟩ := exec_performed i u
  refine ⟨_, run_of_exec runs, ?_⟩
  rw [notePrefetch_core]
  exact h.same rfl rfl

theorem fetchOpcode_performed (s : State) : Performed s s.fetchOpcode.2 := by
  have fetched := (Performed.refl s).fetchAs true
  unfold State.fetchOpcode
  split
  · exact fetched
  · exact fetched.tick.same rfl rfl

theorem proceed_performed (s : State) : ∃ t, s.proceed = .next t ∧ Performed s t := by
  have h := (Performed.refl s).setInhibit .none
  cases asleep : s.idle with
  | true => exact ⟨_, proceed_idle asleep, h.extInstr _⟩
  | false =>
    have awake : s.proceed = { s with inhibit := .none }.runInstruction := if_neg (by simp [asleep])
    obtain ⟨t, runs, ran⟩ := run_performed (State.fetchOpcode { s with inhibit := .none }).2
      (decode (State.fetchOpcode { s with inhibit := .none }).1)
    exact ⟨t, awake.trans runs, (h.trans (fetchOpcode_performed _)).trans ran⟩

theorem takeInterrupt_performed (s : State) (k : IntKind) : Performed s (s.takeInterrupt k) := by
  rw [takeInterrupt_core]
  exact ((Performed.refl s).contextSwitch (intVector k)).same (by rw [contextSwitch_core]) rfl

theorem resetContext_performed (s : State) : Performed s s.resetContext := by
  rw [resetContext_core]
  exact (Performed.refl s).same rfl rfl

/-- As `Performed`, but for the flags and the MID flag, which the reset sequence clears without a cycle (R480). -/
def PerformedBesideFlags (s t : State) : Prop :=
  ∃ u, Performed s u ∧ t.bus = { u.bus with flags := t.bus.flags, midFlag := t.bus.midFlag }

theorem Performed.besideFlags {s t : State} (h : Performed s t) : PerformedBesideFlags s t := ⟨t, h, rfl⟩

theorem resetSequence_performed (s : State) : PerformedBesideFlags s s.resetSequence := by
  refine ⟨_, (resetContext_performed s).contextSwitch 0x0000, ?_⟩
  rw [resetSequence_core]
  rfl

/-- The CPU's step completes, and its cycles do all that it does on the bus, a reset's cleared flags apart. -/
theorem cpuStep_performed (s : State) : ∃ t, s.cpuStep = .next t ∧ PerformedBesideFlags s t := by
  unfold State.cpuStep
  split
  · exact ⟨_, rfl, (Performed.refl s).besideFlags⟩
  split
  · exact ⟨_, rfl, resetSequence_performed s⟩
  split
  case h_1 v hv =>
    obtain ⟨t, runs, ran⟩ := run_performed { s with xPending := none } (decode v)
    have taken : Performed s { s with xPending := none } := (Performed.refl s).same rfl rfl
    exact ⟨t, runs, (taken.trans ran).besideFlags⟩
  case h_2 =>
    split
    case h_1 k hk => exact ⟨_, rfl, (takeInterrupt_performed s k).besideFlags⟩
    case h_2 =>
      obtain ⟨t, runs, ran⟩ := proceed_performed s
      exact ⟨t, runs, ran.besideFlags⟩

/-- The cycles of such a step, the first one first, lead to its decrementer and to every byte it leaves. -/
theorem PerformedBesideFlags.cycles {s t : State} (h : PerformedBesideFlags s t) :
    ∃ cs : List BusEvent, t.bus.events = cs.reverse ++ s.bus.events ∧
      (cs.foldl (busCycle s.plat) s.bus).decStart = t.bus.decStart ∧
      ∀ x, storedByte s.plat (cs.foldl (busCycle s.plat) s.bus) x = storedByte s.plat t.bus x := by
  obtain ⟨u, ⟨-, cs, events, replayed⟩, bus⟩ := h
  refine ⟨cs, ?_, ?_, fun x => ?_⟩
  · rw [bus, ← events]
  · rw [bus, ← replayed]
  · rw [bus, ← replayed]
    rfl

/-- Settles O49: an event of another agent always completes, and so does the CPU's step. -/
theorem noStepStops : Obligations.NoStepStops := by
  intro s
  have completes (r : State) : ∃ t, r.cpuStep = .next t := have ⟨t, e, _⟩ := cpuStep_performed r; ⟨t, e⟩
  unfold step State.machineStep
  split
  · exact completes s
  · exact completes _
  · exact ⟨_, rfl⟩
  · exact ⟨_, rfl⟩

/-! ### A reset in the middle of the CPU's step (R481) -/

/-- A step abandoned after `k` cycles has the first `k` of its cycles performed. -/
theorem abandon_bus {s t : State} {cs : List BusEvent} (events : t.bus.events = cs.reverse ++ s.bus.events) (k : Nat) :
    (s.abandon t k).bus = { (cs.take k).foldl (busCycle s.plat) s.bus with draws := t.bus.draws } := by
  rw [← cyclesBetween_eq events]
  rfl

theorem resetFalls_of_inactive {s : State} (h : s.resetActive = false) :
    s.resetFalls = { s with resetActive := true, resetPending := false, holdState := false, nmiArmed := s.pins.nmi } :=
  if_neg (by simp [h])

theorem resetInside_of_step {s t : State} (hr : s.resetActive = false) (hh : s.holdState = false)
    (ht : s.cpuStep = .next t) (k : Nat) :
    s.resetInside k =
      { s with bus := (s.abandon t k).bus, cutShort := true, resetActive := true, resetPending := false,
               nmiArmed := s.pins.nmi } := by
  rw [State.resetInside, if_neg (by simp [hr, hh]), ht]
  show (s.abandon t k).resetFalls = _
  rw [abandon_resetFalls, resetFalls_of_inactive hr, ← hh]

/-- In the Reset or Hold state RESET falls with no step under way. -/
theorem resetInside_of_held {s : State} (h : s.resetActive = true ∨ s.holdState = true) (k : Nat) :
    s.resetInside k = s.resetFalls := if_pos (Bool.or_eq_true_iff.mpr h)

theorem step_of_agenda_resetWithin {s : State} {k : Nat} {rest : List EnvEvent}
    (h : s.agenda = .resetWithin k :: rest) : step s = .next ({ s with agenda := rest }.resetInside k) := by
  rw [step, State.machineStep, h]

/-- Settles O60: the cycles performed are the first of those that do all of the step. -/
theorem resetWithinAnInstruction : Obligations.ResetWithinAnInstruction := by
  intro s k rest due s'
  have stepped := step_of_agenda_resetWithin due
  refine ⟨fun notReset notHeld => ?within, fun held => ?held⟩
  case held => exact stepped.trans (congrArg _ (resetInside_of_held (s := s') held k))
  case within =>
    obtain ⟨t, completes, performed⟩ := cpuStep_performed s'
    obtain ⟨cs, events, start, bytes⟩ := performed.cycles
    rw [resetInside_of_step (s := s') notReset notHeld completes k, abandon_bus events k] at stepped
    have newestDec := decrementer_foldl_busCycle s.plat (cs.take k) s.bus
    refine ⟨t, _, (cs.drop k).reverse, (cs.take k).reverse, completes, stepped, ?events, ?length,
      foldl_busCycle_events s.plat (cs.take k) s.bus, fun x => storedByte_foldl_busCycle s.plat (cs.take k) s.bus x,
      fun j hj => flags_foldl_busCycle s.plat (cs.take k) s.bus j hj,
      midFlag_foldl_busCycle s.plat (cs.take k) s.bus, newestDec.1, newestDec.2, fun none => ?all, rfl⟩
    case events => rw [events, ← List.reverse_append, List.take_append_drop]
    case length => simp; omega
    case all =>
      have whole : cs.take k = cs := List.take_of_length_le (List.drop_eq_nil_iff.mp (List.reverse_eq_nil_iff.mp none))
      rw [whole]
      exact ⟨start, bytes⟩

end Sys2Proof.Machine
end
